-- ==== Sys2Proof/Word.lean ====
section
/-! DEFINITION. The word, byte and bit-sequence types of the core (00_scope.md R6, R8). -/

namespace Sys2Proof

/-- A register, a command word, a data word or a response word: 32 bits (R6 `REGW`, R23). -/
abbrev Word := BitVec 32

/-- An input byte, a CRC-8 value or a cell: 8 bits. -/
abbrev Byte := BitVec 8

/-- A bit vector in the sense of R8: `v[0]` is the first bit, the one sent or stored first. -/
abbrev Bits := List Bool

end Sys2Proof
end

