-- ==== Sys2Proof/Syntax.lean ====
section
/-! DEFINITION. The commands of the core: one constructor per row of spec/opcode_table.json (30_encoding.md R68). -/

namespace Sys2Proof

/-- A command. An index operand is the unsigned number its field is read as (R67); D and the CRC8 byte are words. -/
inductive Instr
  /-- 0x00, R82. -/
  | nop
  /-- 0x01, R78: stream re-initialisation. -/
  | reset
  /-- 0x02, R80: write configuration register `a` with `d`. -/
  | wrcfg (a : Nat) (d : Word)
  /-- 0x03, R81: push register `a` to RESP. -/
  | rdreg (a : Nat)
  /-- 0x04, R84: validate the configuration and build the tables. -/
  | commit
  /-- 0x05, R90: push the number of input bytes the next FRAME consumes. -/
  | qneed
  /-- 0x06, R87: write FRAMEBUF word `w` with `d`. -/
  | wrfb (w : Nat) (d : Word)
  /-- 0x07, R88: push FRAMEBUF word `w`. -/
  | rdfb (w : Nat)
  /-- 0x08, R89: push CELLBUF cell `j`. -/
  | rdcb (j : Nat)
  /-- 0x10, R197: build one frame, BCH-encode it, push nbch bits. -/
  | frame
  /-- 0x11, R152: fill the LDPC parity region. -/
  | ldpc
  /-- 0x12, R228: frame bits to cells. -/
  | interleave
  /-- 0x13, R246: cells to symbols. -/
  | map
  /-- 0x20, R114: feed byte `b` to the CRC-8 test accumulator. -/
  | crc8 (b : Byte)
  /-- 0x21, R115: clear the CRC-8 test accumulator. -/
  | crc8clr
  /-- 0x22, R133: BCH-encode the frame buffer as it stands. -/
  | bchenc
  /-- 0x23, R188: randomize the frame buffer as it stands. -/
  | rand
  /-- 0x24, R175: write the header for the current FrameState. -/
  | bbhdr
  /-- 0x25, R153: push entry `k` of the adjacency list of parity bit `p`. -/
  | rdadj (k : Nat) (p : Nat)
  /-- 0x26, R154: push the length of the adjacency list of parity bit `p`. -/
  | rdadjn (p : Nat)
deriving DecidableEq, Repr

end Sys2Proof
end

