-- ==== Sys2Proof/WellFormed.lean ====
section
/-! DEFINITION. Well-formed commands: every index operand fits the field that carries it (30_encoding.md R65). -/

namespace Sys2Proof

/-- Does the number fit field A, 8 bits wide (R65)? -/
def fitsA (a : Nat) : Bool := decide (a < 256)

/-- Does the number fit field B, 16 bits wide (R65)? -/
def fitsB (b : Nat) : Bool := decide (b < 65536)

/-- The command has an encoding: A and B operands fit their fields. Whether an index names something that exists is
checked when the command runs (R55, R35), not here. -/
def Instr.wellFormed : Instr → Bool
  | .nop => true
  | .reset => true
  | .wrcfg a _ => fitsA a
  | .rdreg a => fitsA a
  | .commit => true
  | .qneed => true
  | .wrfb w _ => fitsB w
  | .rdfb w => fitsB w
  | .rdcb j => fitsB j
  | .frame => true
  | .ldpc => true
  | .interleave => true
  | .map => true
  | .crc8 _ => true
  | .crc8clr => true
  | .bchenc => true
  | .rand => true
  | .bbhdr => true
  | .rdadj k p => fitsA k && fitsB p
  | .rdadjn p => fitsB p

end Sys2Proof
end

