-- ==== Sys2Proof/Decode.lean ====
section
/-! DEFINITION. The decoder of 30_encoding.md R73, total on every word sequence, the encoder written from the same
formats (R65), the opcode table's masks (R68, R70), and the assembler notation and pseudo-commands of R74 and R75. -/

namespace Sys2Proof

/-! ### Fields (R65, R67) -/

/-- OPC, bits [31:24]. -/
def fieldOpc (w : Word) : Nat := w.toNat / 16777216

/-- A, bits [23:16], an unsigned 8-bit number. -/
def fieldA (w : Word) : Nat := w.toNat / 65536 % 256

/-- B, bits [15:0], an unsigned 16-bit number. -/
def fieldB (w : Word) : Nat := w.toNat % 65536

/-- The length of a command in words, decided by OPC alone (R66). -/
def commandWords (opc : Nat) : Nat := if opc = 0x02 ∨ opc = 0x06 then 2 else 1

/-! ### Decoder -/

/-- Why the decoder rejects a command; both raise `CmdError(CMD_RESERVED)` (R73). -/
inductive Reject
  /-- A reserved opcode (R69). -/
  | reservedOpcode
  /-- A defined opcode with a non-zero unused field (R70). -/
  | unusedField
deriving DecidableEq, Repr

/-- What the front of the command stream holds. -/
inductive Decoded
  /-- A command. -/
  | ok (i : Instr)
  /-- A rejected command, with the number of words it consumes (R66). -/
  | reject (r : Reject) (words : Nat)
  /-- CMD is empty: the idle hold (R262, case 1). -/
  | waitCommand
  /-- The data word of a 2-word command has not arrived (R66; R262, case 2). -/
  | waitData
deriving DecidableEq, Repr

/-- A 1-word command, rejected when its unused fields are not all 0 (R70). -/
def oneWord (unusedZero : Bool) (i : Instr) : Decoded :=
  if unusedZero then .ok i else .reject .unusedField 1

/-- A 2-word command: the data word is read even when the command is then rejected (R66). -/
def twoWord (unusedZero : Bool) (i : Word → Instr) (rest : List Word) : Decoded :=
  match rest with
  | [] => .waitData
  | d :: _ => if unusedZero then .ok (i d) else .reject .unusedField 2

/-- `decode` of R73, on the words that stand in CMD. -/
def decode (ws : List Word) : Decoded :=
  match ws with
  | [] => .waitCommand
  | w :: rest =>
    let a := fieldA w
    let b := fieldB w
    match fieldOpc w with
    | 0x00 => oneWord (a == 0 && b == 0) .nop
    | 0x01 => oneWord (a == 0 && b == 0) .reset
    | 0x02 => twoWord (b == 0) (.wrcfg a) rest
    | 0x03 => oneWord (b == 0) (.rdreg a)
    | 0x04 => oneWord (a == 0 && b == 0) .commit
    | 0x05 => oneWord (a == 0 && b == 0) .qneed
    | 0x06 => twoWord (a == 0) (.wrfb b) rest
    | 0x07 => oneWord (a == 0) (.rdfb b)
    | 0x08 => oneWord (a == 0) (.rdcb b)
    | 0x10 => oneWord (a == 0 && b == 0) .frame
    | 0x11 => oneWord (a == 0 && b == 0) .ldpc
    | 0x12 => oneWord (a == 0 && b == 0) .interleave
    | 0x13 => oneWord (a == 0 && b == 0) .map
    | 0x20 => oneWord (a == 0 && b / 256 == 0) (.crc8 (BitVec.ofNat 8 b))
    | 0x21 => oneWord (a == 0 && b == 0) .crc8clr
    | 0x22 => oneWord (a == 0 && b == 0) .bchenc
    | 0x23 => oneWord (a == 0 && b == 0) .rand
    | 0x24 => oneWord (a == 0 && b == 0) .bbhdr
    | 0x25 => oneWord true (.rdadj a b)
    | 0x26 => oneWord (a == 0) (.rdadjn b)
    | _ => .reject .reservedOpcode 1

/-! ### Encoder -/

/-- The command word with the given OPC, A and B (R65). -/
def packWord (opc a b : Nat) : Word := BitVec.ofNat 32 (opc * 16777216 + a * 65536 + b)

/-- The words of a command, by the formats of R65 and the opcodes of R68. -/
def encode (i : Instr) : List Word :=
  match i with
  | .nop => [packWord 0x00 0 0]
  | .reset => [packWord 0x01 0 0]
  | .wrcfg a d => [packWord 0x02 a 0, d]
  | .rdreg a => [packWord 0x03 a 0]
  | .commit => [packWord 0x04 0 0]
  | .qneed => [packWord 0x05 0 0]
  | .wrfb w d => [packWord 0x06 0 w, d]
  | .rdfb w => [packWord 0x07 0 w]
  | .rdcb j => [packWord 0x08 0 j]
  | .frame => [packWord 0x10 0 0]
  | .ldpc => [packWord 0x11 0 0]
  | .interleave => [packWord 0x12 0 0]
  | .map => [packWord 0x13 0 0]
  | .crc8 b => [packWord 0x20 0 b.toNat]
  | .crc8clr => [packWord 0x21 0 0]
  | .bchenc => [packWord 0x22 0 0]
  | .rand => [packWord 0x23 0 0]
  | .bbhdr => [packWord 0x24 0 0]
  | .rdadj k p => [packWord 0x25 k p]
  | .rdadjn p => [packWord 0x26 0 p]

/-- How many words the command occupies in CMD (R65, R66). -/
def Instr.words (i : Instr) : Nat := (encode i).length

/-! ### The opcode table -/

/-- A row of spec/opcode_table.json: the bits that must match, and their values. -/
structure OpcodeRow where
  mnemonic : String
  mask : Word
  value : Word
  words : Nat
deriving DecidableEq, Repr

/-- The first half of spec/opcode_table.json, in its order. -/
def opcodeRowsLow : List OpcodeRow :=
  [⟨"NOP", 0xFFFFFFFF, 0x00000000, 1⟩, ⟨"RESET", 0xFFFFFFFF, 0x01000000, 1⟩, ⟨"WRCFG", 0xFF00FFFF, 0x02000000, 2⟩,
   ⟨"RDREG", 0xFF00FFFF, 0x03000000, 1⟩, ⟨"COMMIT", 0xFFFFFFFF, 0x04000000, 1⟩, ⟨"QNEED", 0xFFFFFFFF, 0x05000000, 1⟩,
   ⟨"WRFB", 0xFFFF0000, 0x06000000, 2⟩, ⟨"RDFB", 0xFFFF0000, 0x07000000, 1⟩, ⟨"RDCB", 0xFFFF0000, 0x08000000, 1⟩]

/-- The second half of spec/opcode_table.json, in its order. -/
def opcodeRowsHigh : List OpcodeRow :=
  [⟨"FRAME", 0xFFFFFFFF, 0x10000000, 1⟩, ⟨"LDPC", 0xFFFFFFFF, 0x11000000, 1⟩, ⟨"INTERLEAVE", 0xFFFFFFFF, 0x12000000, 1⟩,
   ⟨"MAP", 0xFFFFFFFF, 0x13000000, 1⟩, ⟨"CRC8", 0xFFFFFF00, 0x20000000, 1⟩, ⟨"CRC8CLR", 0xFFFFFFFF, 0x21000000, 1⟩,
   ⟨"BCHENC", 0xFFFFFFFF, 0x22000000, 1⟩, ⟨"RAND", 0xFFFFFFFF, 0x23000000, 1⟩, ⟨"BBHDR", 0xFFFFFFFF, 0x24000000, 1⟩,
   ⟨"RDADJ", 0xFF000000, 0x25000000, 1⟩, ⟨"RDADJN", 0xFFFF0000, 0x26000000, 1⟩]

/-- spec/opcode_table.json: "The opcode table's `mask` covers exactly the bits that must match" (R70). -/
def opcodeTable : List OpcodeRow := opcodeRowsLow ++ opcodeRowsHigh

/-- The row matches the command word. -/
def OpcodeRow.accepts (r : OpcodeRow) (w : Word) : Bool := w &&& r.mask == r.value

/-! ### Assembler notation (R74) and pseudo-commands (R75) -/

/-- The mnemonic of R68. -/
def Instr.mnemonic (i : Instr) : String :=
  match i with
  | .nop => "NOP"
  | .reset => "RESET"
  | .wrcfg _ _ => "WRCFG"
  | .rdreg _ => "RDREG"
  | .commit => "COMMIT"
  | .qneed => "QNEED"
  | .wrfb _ _ => "WRFB"
  | .rdfb _ => "RDFB"
  | .rdcb _ => "RDCB"
  | .frame => "FRAME"
  | .ldpc => "LDPC"
  | .interleave => "INTERLEAVE"
  | .map => "MAP"
  | .crc8 _ => "CRC8"
  | .crc8clr => "CRC8CLR"
  | .bchenc => "BCHENC"
  | .rand => "RAND"
  | .bbhdr => "BBHDR"
  | .rdadj _ _ => "RDADJ"
  | .rdadjn _ => "RDADJN"

/-- A register operand as R74 writes it: by name, or as a number where the index is reserved. -/
def asmReg (a : Nat) : String :=
  match a with
  | 0x00 => "CFG0"
  | 0x01 => "CFG1"
  | 0x02 => "CFG2"
  | 0x03 => "CFG3"
  | 0x10 => "STATUS"
  | 0x11 => "FSTATE"
  | 0x12 => "PARAM0"
  | 0x13 => "PARAM1"
  | 0x14 => "CRCT"
  | 0x15 => "LASTIO"
  | n => toString n

/-- The operands as R74 writes them: separated by commas, numbers in decimal. -/
def Instr.asmOperands (i : Instr) : List String :=
  match i with
  | .wrcfg a d => [asmReg a, toString d.toNat]
  | .rdreg a => [asmReg a]
  | .wrfb w d => [toString w, toString d.toNat]
  | .rdfb w => [toString w]
  | .rdcb j => [toString j]
  | .crc8 b => [toString b.toNat]
  | .rdadj k p => [toString k, toString p]
  | .rdadjn p => [toString p]
  | .nop | .reset | .commit | .qneed | .frame | .ldpc | .interleave | .map | .crc8clr | .bchenc | .rand | .bbhdr => []

/-- A command in the assembler syntax of R74: the mnemonic, then its operands separated by commas. -/
def Instr.asm (i : Instr) : String :=
  match i.asmOperands with
  | [] => i.mnemonic
  | ops => i.mnemonic ++ " " ++ String.intercalate ", " ops

/-- The pseudo-command `ENCODE` (R75): one full frame from input bytes to symbols. -/
def pseudoEncode : List Instr := [.frame, .ldpc, .interleave, .map]

/-- The pseudo-command `SETUP c0, c1, c2, c3` (R75). -/
def pseudoSetup (c0 c1 c2 c3 : Word) : List Instr :=
  [.wrcfg 0x00 c0, .wrcfg 0x01 c1, .wrcfg 0x02 c2, .wrcfg 0x03 c3, .commit]

/-- The words of a program: its commands' words, in order. -/
def assemble (p : List Instr) : List Word := p.flatMap encode

/-! ### The host's numbering of an instruction's bits -/

/-- The words of an instruction whose `nbits` low bits are `w`, bit 0 the least significant bit of the first word and the
bits above `nbits` zero: the first word, and the data word where OPC asks for one (R66). -/
def tableWords (nbits w : Nat) : List Word :=
  let bits := w % 2 ^ nbits
  let first : Word := BitVec.ofNat 32 bits
  if commandWords (fieldOpc first) = 2 then [first, BitVec.ofNat 32 (bits / 4294967296)] else [first]

/-- The command the decoder reads from those words, none where it rejects them. -/
def decodeTableWord (nbits w : Nat) : Option Instr :=
  match decode (tableWords nbits w) with
  | .ok i => some i
  | .reject _ _ => none
  | .waitCommand => none
  | .waitData => none

end Sys2Proof
end

