-- ==== Sys2Proof/Config.lean ====
section
/-! DEFINITION. What is fixed for the life of a model: the configuration names (00_scope.md R12), the exact complex
values a symbol takes (48_mapper.md R241), and the parameters R6 leaves OPEN, as one uninterpreted constant. -/

namespace Sys2Proof

/-- The frame-size class `fs` (R12, CFG0.FS of R25). -/
inductive FrameSize
  | normal
  | short
deriving DecidableEq, Repr, Inhabited

/-- The code rate `rate` (R12); the constructor's name spells the fraction. -/
inductive CodeRate
  | r1_3
  | r2_5
  | r1_2
  | r3_5
  | r2_3
  | r3_4
  | r4_5
  | r5_6
deriving DecidableEq, Repr, Inhabited

/-- The modulation order `mod` (R12). -/
inductive Modulation
  | qpsk
  | qam16
  | qam64
  | qam256
deriving DecidableEq, Repr, Inhabited

/-- The input mode, CFG0.INMODE (R25): Normal mode (NM) or High-efficiency mode (HEM). -/
inductive InputMode
  | nm
  | hem
deriving DecidableEq, Repr, Inhabited

/-- The three BCH variants (42_bch.md R127, 40_control.md R94). -/
inductive BchVariant
  | n12
  | n10
  | s12
deriving DecidableEq, Repr, Inhabited

/-- `P_LDPC_MODE` (R6, R156): write zeros, or computed parity. -/
inductive LdpcMode
  | zero
  | computed
deriving DecidableEq, Repr, Inhabited

/-- An exact real number of the form `(cosCoef · cos φ + sinCoef · sin φ) / √energy`, where φ is `nanoDeg` billionths of
a degree: the shape every real and imaginary part of R241 has. -/
structure ExactReal where
  cosCoef : Int
  sinCoef : Int
  nanoDeg : Nat
  energy : Nat
deriving DecidableEq, Repr, Inhabited

/-- An exact complex value: its real and its imaginary part. "The values are exact real numbers" (R241). -/
structure ExactComplex where
  re : ExactReal
  im : ExactReal
deriving DecidableEq, Repr, Inhabited

/-- One item of SYM_OUT: the codes of the two components in the number format the parameter `P_SYMFMT` chooses (R247).
The spec leaves the format open, so a component is a code of any size. -/
structure SymItem where
  i : Nat
  q : Nat
deriving DecidableEq, Repr, Inhabited

/-- The parameters that R6 leaves OPEN. They are no part of State (R20). -/
structure Params where
  /-- `P_LDPC_MODE` (R6, R152). -/
  ldpcMode : LdpcMode
  /-- `P_LDPC_BASE(fs, rate)`: ABSENT (none) or one list of seeds per group (R145). -/
  ldpcBase : FrameSize → CodeRate → Option (List (List Nat))
  /-- `P_LDPC_CAP`: capacity of the adjacency store, in entries (R149). -/
  ldpcCap : Nat
  /-- `P_TWIST(fs, mod, rate)`, or absent (R221). -/
  twist : FrameSize → Modulation → CodeRate → Option (List Nat)
  /-- `P_MUX(fs, mod, rate)`, or absent (R221). -/
  mux : FrameSize → Modulation → CodeRate → Option (List Nat)
  /-- `P_PI_NONQPSK`: whether the parity regroup also runs for 16/64/256-QAM (R222). -/
  regroupNonQpsk : Bool
  /-- `P_SYMFMT`: total function from the exact complex value to the item pushed on SYM_OUT (R247). -/
  symFmt : ExactComplex → SymItem
deriving Inhabited

/-- The parameters of this core, fixed for its life and left open by the spec (R6, D25, D26, D28, D30, D33): a constant
with no body, so that every proof about it holds for every choice. -/
opaque Config.params : Params

end Sys2Proof
end

