-- ==== Sys2Proof/Machine/State.lean ====
section
/-! DEFINITION. The state of the core as 10_state.md gives it, as plain data; the reasons a step can stop; the state
after power-on reset (R43, R280). -/

namespace Sys2Proof.Machine

/-- A buffer: the listed (address, byte) pairs, addresses strictly rising, no pair equal to what an unlisted address
reads as (`Memory.wf`). For FRAMEBUF address `j` holds the bits FB[8j, 8j+8), FB[8j] the most significant (R51); for
CELLBUF address `j` is cell `j` (R52). -/
abbrev Memory := List Host.Cell

/-- The error codes of STATUS.ERRCODE (60_exceptions.md R261). -/
inductive ErrCode
  | none
  | cfgRate
  | cfgInbandN
  | cfgIlvTable
  | fatalLdpcTable
  | fatalLdpcCap
  | cmdState
  | cmdReserved
  | cmdReg
  | cmdIndex
  | cmdUnavailable
deriving DecidableEq, Repr

/-- A row of the Parameter Table for one frame size and code rate (40_control.md R91, R93), with the frame size N. -/
structure CodeParams where
  kbch : Nat
  nbch : Nat
  pbch : Nat
  variant : BchVariant
  q : Nat
  n : Nat
deriving DecidableEq, Repr

/-- The LDPC parity-bit count nldpcp = N − nbch (R12). -/
def CodeParams.nldpcp (c : CodeParams) : Nat := c.n - c.nbch

/-- What COMMIT builds (R37): the committed code parameters and the derived tables. CRC8T is a constant of the model and
stands in no state (R111). -/
structure Tables where
  /-- The committed code parameters, shown by PARAM0 and PARAM1 (R31, R32). -/
  par : CodeParams
  /-- BCHG, as the integer of R10 (R127). -/
  bchg : Nat
  /-- BCHT, 256 entries of pbch bits (R129). -/
  bcht : List Nat
  /-- RSEQ, 64800 bits (R186). -/
  rseq : Bits
  /-- LDPCADJ: for each parity bit the ordered list of systematic-bit indices, or ABSENT (R148). -/
  adj : Option (List (List Nat))
  /-- TW, the twist offsets; empty for QPSK, which has none (R221). -/
  tw : List Nat
  /-- MX, the mux permutation; empty for QPSK, which has none (R221). -/
  mx : List Nat
  /-- CONST, 2^m points (R241). -/
  points : List ExactComplex
deriving DecidableEq, Repr

/-- The controller state STATE (R20, R29). The derived tables are valid exactly while STATE = READY (R37), so they stand
under READY. -/
inductive Phase
  | unconfigured
  | ready (t : Tables)
  | cfgError
  | fatal
deriving DecidableEq, Repr

/-- The whole state of the core (R20: "Nothing else is state"). -/
structure State where
  /-- STATUS.STATE, with the derived tables of R37 while READY. -/
  phase : Phase
  /-- CFG0 (R25). -/
  cfg0 : Word
  /-- CFG1 (R26). -/
  cfg1 : Word
  /-- CFG2 (R27). -/
  cfg2 : Word
  /-- CFG3 (R28). -/
  cfg3 : Word
  /-- STATUS.CMDERR, sticky (R29). -/
  cmdErr : Bool
  /-- STATUS.SYNCWARN, sticky (R29). -/
  syncWarn : Bool
  /-- STATUS.ERRCODE (R29, R264). -/
  errCode : ErrCode
  /-- STATUS.SWCNT, saturating (R29). -/
  swcnt : BitVec 16
  /-- PBC, packetByteCounter (R38). -/
  pbc : Byte
  /-- PCRC, pendingCRC (R38). -/
  pcrc : Byte
  /-- IBC, inbandFrameCounter (R38). -/
  ibc : BitVec 16
  /-- CRCT[7:0], the CRC-8 engine's test accumulator (R33). -/
  crct : Byte
  /-- LASTIO (R34). -/
  lastio : Word
  /-- FRAMEBUF, 64800 bits (R39). -/
  frameBuf : Memory
  /-- CELLBUF, 32400 cells (R39). -/
  cellBuf : Memory
  /-- CMD: the command words the host has queued and no command has consumed (R40). -/
  cmd : List Word
  /-- IN: the input bytes the host has queued and no FRAME has consumed (R40). -/
  input : List Byte
  /-- BB_OUT: the bits pushed and not yet drained, oldest first (R40). -/
  bbOut : Bits
  /-- SYM_OUT: the symbols pushed and not yet drained, oldest first (R40). -/
  symOut : List SymItem
  /-- RESP: the response words pushed and not yet drained, oldest first (R40). -/
  resp : List Word
deriving DecidableEq, Repr

/-- Why a step ends in a fault: never. The spec gives every command an effect in every state, "every error is precise" and
is recorded in STATUS (60_exceptions.md R260, R271), an index out of range raises CMD_INDEX (R55), and a hold is no fault
(R262). No constructor, so nothing raises one: safe, because no run is cut short. -/
inductive Fault
deriving DecidableEq, Repr

/-- Why a step is refused. -/
inductive Refusal
  /-- Raised by `exec` alone, for an instruction that has no meaning yet; safe, because the run stops there. No arm of
  this model raises it. -/
  | notModelled (mnemonic : String)
deriving DecidableEq, Repr

/-- The machine right after power-on reset: the power-on column of R43, `PowerOnReset` of R280, with the streams empty, as
R280 starts the model by default. -/
def State.reset : State where
  phase := .unconfigured
  cfg0 := 0x00000004
  cfg1 := 0x00000000
  cfg2 := 0x00000001
  cfg3 := 0x00000000
  cmdErr := false
  syncWarn := false
  errCode := .none
  swcnt := 0
  pbc := 0
  pcrc := 0
  ibc := 0
  crct := 0
  lastio := 0
  frameBuf := []
  cellBuf := []
  cmd := []
  input := []
  bbOut := []
  symOut := []
  resp := []

end Sys2Proof.Machine
end

