-- ==== Sys2Proof/Machine/Bits.lean ====
section
/-! DEFINITION. Bit vectors and numbers (00_scope.md R8 to R10): MSB-first fields, byte packing, GF(2) products. -/

namespace Sys2Proof.Machine

/-- `bits_w(x)` of R9: the w-bit vector of `x`, most significant bit first. -/
def natBits (w x : Nat) : Bits := (List.range w).map fun k => x.testBit (w - 1 - k)

/-- `val(v)` of R9, the inverse of `natBits`. -/
def bitsVal (v : Bits) : Nat := v.foldl (fun n b => 2 * n + b.toNat) 0

/-- The 8 bits of a byte, most significant first (R53). -/
def byteBits (b : Byte) : Bits := natBits 8 b.toNat

/-- Input bytes expanded into bits, MSB first (R53). -/
def bytesBits (bs : List Byte) : Bits := bs.flatMap byteBits

/-- Bits packed into bytes, the earlier bit more significant (R51); bits that fill no whole byte are dropped. -/
def packBytes (v : Bits) : List Byte :=
  match v with
  | b0 :: b1 :: b2 :: b3 :: b4 :: b5 :: b6 :: b7 :: rest =>
    BitVec.ofNat 8 (bitsVal [b0, b1, b2, b3, b4, b5, b6, b7]) :: packBytes rest
  | _ => []

/-- Element-wise XOR of two bit vectors (R8). -/
def xorBits (u v : Bits) : Bits := List.zipWith xor u v

/-- `a ⊗ b` of R10: carry-less multiplication. -/
def gf2Mul (a b : Nat) : Nat :=
  (List.range (b.log2 + 1)).foldl (fun acc i => if b.testBit i then acc ^^^ (a <<< i) else acc) 0

/-- The remainder of GF(2) division of the polynomial `v` stands for (R10: the first bit is the highest coefficient) by
the polynomial `g` of degree `p`. -/
def gf2Rem (g p : Nat) (v : Bits) : Nat :=
  v.foldl (fun r b => let r' := 2 * r + b.toNat; if r'.testBit p then r' ^^^ g else r') 0

end Sys2Proof.Machine
end

