-- ==== Sys2Proof/Machine/Ops.lean ====
section
/-! DEFINITION. The shared operations: buffers, raising each event of 60_exceptions.md, the resets, the output streams,
the end of a command, and the host's moves. -/

namespace Sys2Proof.Machine

/-! ### Buffers -/

/-- What an address that the list does not hold reads as: the power-on contents, 0 (R43, R280). -/
def Memory.unlisted : Byte := 0

/-- The canonical form: addresses strictly rising, no pair equal to what an unlisted address reads as. -/
def Memory.wf (m : Memory) : Bool :=
  decide (m.Pairwise fun a b => a.1 < b.1) && m.all fun c => c.2 != Memory.unlisted

/-- Every listed address lies below `size`. -/
def Memory.within (m : Memory) (size : Nat) : Bool := m.all fun c => decide (c.1 < size)

/-- Read one byte. -/
def Memory.read (m : Memory) (x : Nat) : Byte :=
  match m with
  | [] => Memory.unlisted
  | (a, b) :: rest => if a = x then b else Memory.read rest x

/-- Read the bytes at the addresses `a`, …, `a + n − 1`: each listed pair of the range is put in its place (the first pair of
an address last, so that it stands), and every other place reads as unlisted. `Memory.readRange_eq_map` says that this is
`Memory.read` at each address. -/
def Memory.readRange (m : Memory) (a n : Nat) : List Byte :=
  (m.foldr (fun c img => if a ≤ c.1 then img.setIfInBounds (c.1 - a) c.2 else img)
    (Array.replicate n Memory.unlisted)).toList

/-- The pairs that hold the bytes `bs` at the addresses `a`, `a + 1`, …, without those an unlisted address reads as. -/
def Memory.entries (a : Nat) (bs : List Byte) : Memory :=
  match bs with
  | [] => []
  | b :: rest => if b = Memory.unlisted then Memory.entries (a + 1) rest else (a, b) :: Memory.entries (a + 1) rest

/-- Write the bytes `bs` at the addresses `a`, `a + 1`, …, keeping the canonical form. -/
def Memory.writeRange (m : Memory) (a : Nat) (bs : List Byte) : Memory :=
  m.filter (fun c => decide (c.1 < a)) ++ Memory.entries a bs ++ m.filter (fun c => decide (a + bs.length ≤ c.1))

/-! ### FRAMEBUF (20_memory.md R51, R54) -/

/-- FRAMEBUF's size: 64800 bits, 2025 words, 8100 bytes of 8 bits (R50). -/
def fbWords : Nat := 2025

/-- CELLBUF's size (R50). -/
def cbCells : Nat := 32400

/-- `FB[i]`: bit `i mod 8` of byte `i div 8`, counted from the most significant (R51). -/
def fbBit (m : Memory) (i : Nat) : Bool := (m.read (i / 8)).getMsbD (i % 8)

/-- `FB[a .. a+n)`: the bits of the bytes that cover the range, without those before and after it.
`fbBits_eq_map` says that bit `k` of it is `FB[a+k]`. -/
def fbBits (m : Memory) (a n : Nat) : Bits :=
  ((bytesBits (m.readRange (a / 8) ((a % 8 + n + 7) / 8))).drop (a % 8)).take n

/-- `FB[a .. a+len(v)) <- v`: the bits of the first and last byte outside the range are kept. -/
def fbWrite (m : Memory) (a : Nat) (v : Bits) : Memory :=
  let before := fbBits m (8 * (a / 8)) (a % 8)
  let stop := a + v.length
  let after := fbBits m stop ((8 - stop % 8) % 8)
  m.writeRange (a / 8) (packBytes (before ++ v ++ after))

/-- `MemRead(FB, w, 32)` of R51. -/
def fbReadWord (m : Memory) (w : Nat) : Word := BitVec.ofNat 32 (bitsVal (fbBits m (32 * w) 32))

/-- `MemWrite(FB, w, 32, v)` of R51. -/
def fbWriteWord (m : Memory) (w : Nat) (v : Word) : Memory := fbWrite m (32 * w) (natBits 32 v.toNat)

/-! ### The end of a command, and the output streams -/

/-- The command's words leave CMD (R66). -/
def State.retire (s : State) (words : Nat) : State := { s with cmd := s.cmd.drop words }

/-- `Push(RESP, v)` (R11). -/
def State.pushResp (s : State) (v : Word) : State := { s with resp := s.resp ++ [v] }

/-- FRAMEBUF replaced. -/
def State.setFrameBuf (s : State) (m : Memory) : State := { s with frameBuf := m }

/-- CELLBUF replaced. -/
def State.setCellBuf (s : State) (m : Memory) : State := { s with cellBuf := m }

/-! ### Raising an event (60_exceptions.md R264 to R268) -/

/-- STATE = FATAL. -/
def Phase.isFatal (p : Phase) : Bool :=
  match p with
  | .fatal => true
  | .unconfigured | .ready _ | .cfgError => false

/-- STATE is UNCONFIGURED or CFG_ERROR: where WRCFG and COMMIT are legal (R79). -/
def Phase.isConfiguring (p : Phase) : Bool :=
  match p with
  | .unconfigured | .cfgError => true
  | .ready _ | .fatal => false

/-- The derived tables: valid exactly while STATE = READY (R37). -/
def Phase.tables (p : Phase) : Option Tables :=
  match p with
  | .ready t => some t
  | .unconfigured | .cfgError | .fatal => none

/-- `raise CmdError(code)` (R266): CMDERR is set, and ERRCODE is written except in FATAL. -/
def State.raiseCmd (s : State) (code : ErrCode) : State :=
  { s with cmdErr := true, errCode := if s.phase.isFatal then s.errCode else code }

/-- `raise CfgError(code)` (R267): STATE is CFG_ERROR, so no derived table is valid. -/
def State.raiseCfg (s : State) (code : ErrCode) : State := { s with phase := .cfgError, errCode := code }

/-- `raise Fatal(code)` (R268): STATE is FATAL, so no derived table is valid. -/
def State.raiseFatal (s : State) (code : ErrCode) : State := { s with phase := .fatal, errCode := code }

/-- A rejected command of `words` words: the effects of the raise alone, and its words are consumed (R265, R266). -/
def State.rejected (s : State) (words : Nat) (code : ErrCode) : State := (s.raiseCmd code).retire words

/-! ### Resets (70_reset_and_hazards.md R280, R281) -/

/-- `StreamReset` (R281), the effect of RESET: configuration, buffers and streams are kept. -/
def State.streamReset (s : State) : State :=
  { s with
    phase := .unconfigured
    cmdErr := false
    syncWarn := false
    errCode := .none
    swcnt := 0
    pbc := 0
    pcrc := 0
    ibc := 0
    crct := 0
    lastio := 0 }

/-- `PowerOnReset` (R280), the only way out of FATAL. It starts a run: CMD and IN hold "whatever the host has queued", and
BB_OUT, SYM_OUT and RESP are empty. -/
def State.powerOn (s : State) : State := { State.reset with cmd := s.cmd, input := s.input }

/-! ### The host (60_exceptions.md R262) -/

/-- The host's moves, "the only ones the model has" (R262). -/
inductive HostMove
  /-- Words appended to CMD. -/
  | command (ws : List Word)
  /-- Bytes appended to IN. -/
  | feed (bs : List Byte)
  /-- Items removed from the front of BB_OUT. -/
  | drainBb (n : Nat)
  /-- Items removed from the front of SYM_OUT. -/
  | drainSym (n : Nat)
  /-- Items removed from the front of RESP. -/
  | drainResp (n : Nat)
deriving DecidableEq, Repr

/-- One host move: it touches the one stream R262 names for it. -/
def State.host (s : State) (m : HostMove) : State :=
  match m with
  | .command ws => { s with cmd := s.cmd ++ ws }
  | .feed bs => { s with input := s.input ++ bs }
  | .drainBb n => { s with bbOut := s.bbOut.drop n }
  | .drainSym n => { s with symOut := s.symOut.drop n }
  | .drainResp n => { s with resp := s.resp.drop n }

end Sys2Proof.Machine
end

