-- ==== Sys2Proof/Machine/Operands.lean ====
section
/-! DEFINITION. Operand forms: the register index of WRCFG and RDREG (10_state.md R24, R35, R36) and the fields of the
configuration registers (R25 to R28, R12). -/

namespace Sys2Proof.Machine

/-! ### Register indices (R24) -/

/-- The registers of R24. -/
inductive Reg
  | cfg0
  | cfg1
  | cfg2
  | cfg3
  | status
  | fstate
  | param0
  | param1
  | crct
  | lastio
deriving DecidableEq, Repr

/-- The register an index names; none for a reserved index (R24, R35). -/
def regOf (a : Nat) : Option Reg :=
  match a with
  | 0x00 => some .cfg0
  | 0x01 => some .cfg1
  | 0x02 => some .cfg2
  | 0x03 => some .cfg3
  | 0x10 => some .status
  | 0x11 => some .fstate
  | 0x12 => some .param0
  | 0x13 => some .param1
  | 0x14 => some .crct
  | 0x15 => some .lastio
  | _ => none

/-- WMASK(CFG0) (R36). -/
def wmaskCfg0 : Word := 0x000003FF

/-- WMASK(CFG1) (R36). -/
def wmaskCfg1 : Word := 0x07FFFFFF

/-- WMASK(CFG2) (R36). -/
def wmaskCfg2 : Word := 0x0000FFFF

/-- WMASK(CFG3) (R36). -/
def wmaskCfg3 : Word := 0x0000FFFF

/-- `REG(A) <- D & WMASK(A)` (R80); none where the index names no register WRCFG may write (R23). -/
def State.writeReg (s : State) (a : Nat) (d : Word) : Option State :=
  match regOf a with
  | some .cfg0 => some { s with cfg0 := d &&& wmaskCfg0 }
  | some .cfg1 => some { s with cfg1 := d &&& wmaskCfg1 }
  | some .cfg2 => some { s with cfg2 := d &&& wmaskCfg2 }
  | some .cfg3 => some { s with cfg3 := d &&& wmaskCfg3 }
  | some .status | some .fstate | some .param0 | some .param1 | some .crct | some .lastio => none
  | none => none

/-! ### CFG0 (R25) -/

/-- A field of a register: `width` bits from bit `lo` up, as an unsigned number (R9). -/
def regField (w : Word) (lo width : Nat) : Nat := w.toNat / 2 ^ lo % 2 ^ width

/-- CFG0.FS, bit [0]. -/
def cfgFs (c0 : Word) : FrameSize := if regField c0 0 1 = 0 then .normal else .short

/-- The code rate of a RATE code; codes 8 to 15 are reserved (R25). -/
def rateOf (code : Nat) : Option CodeRate :=
  match code with
  | 0 => some .r1_3
  | 1 => some .r2_5
  | 2 => some .r1_2
  | 3 => some .r3_5
  | 4 => some .r2_3
  | 5 => some .r3_4
  | 6 => some .r4_5
  | 7 => some .r5_6
  | _ => none

/-- CFG0.RATE, bits [4:1]. -/
def cfgRate (c0 : Word) : Option CodeRate := rateOf (regField c0 1 4)

/-- CFG0.MOD, bits [6:5]. -/
def cfgMod (c0 : Word) : Modulation :=
  match regField c0 5 2 with
  | 0 => .qpsk
  | 1 => .qam16
  | 2 => .qam64
  | _ => .qam256

/-- CFG0.ROT, bit [7]. -/
def cfgRot (c0 : Word) : Bool := regField c0 7 1 == 1

/-- CFG0.INMODE, bit [8]. -/
def cfgInMode (c0 : Word) : InputMode := if regField c0 8 1 = 0 then .nm else .hem

/-- CFG0.INBAND, bit [9]. -/
def cfgInband (c0 : Word) : Bool := regField c0 9 1 == 1

/-! ### CFG1 to CFG3 (R26 to R28) -/

/-- CFG1.TS_RATE, bits [26:0]. -/
def cfgTsRate (c1 : Word) : Nat := regField c1 0 27

/-- CFG2.INBAND_N, bits [15:0]. -/
def cfgInbandN (c2 : Word) : Nat := regField c2 0 16

/-- CFG3.MATYPE, bits [15:0]. -/
def cfgMatype (c3 : Word) : Nat := regField c3 0 16

/-- The MATYPE fields of R28, by the document's names. The core gives none of them any behaviour: it copies the 16 bits
into the header. -/
structure Matype where
  tsGsMode : Nat
  singleOrMultipleStream : Nat
  constantOrAdaptiveCodingModulation : Nat
  issyFlag : Nat
  nullPacketDeletionFlag : Nat
  rollOffMode : Nat
  inputStreamId : Nat
deriving DecidableEq, Repr

/-- The fields of CFG3.MATYPE (R28). -/
def matypeOf (c3 : Word) : Matype :=
  { tsGsMode := regField c3 14 2
    singleOrMultipleStream := regField c3 13 1
    constantOrAdaptiveCodingModulation := regField c3 12 1
    issyFlag := regField c3 11 1
    nullPacketDeletionFlag := regField c3 10 1
    rollOffMode := regField c3 8 2
    inputStreamId := regField c3 0 8 }

/-- The bits per cell `m` of a modulation order (R12). -/
def modBits (m : Modulation) : Nat :=
  match m with
  | .qpsk => 2
  | .qam16 => 4
  | .qam64 => 6
  | .qam256 => 8

/-- `Ncells = N / m` (R12). -/
def cellCount (n : Nat) (m : Modulation) : Nat := n / modBits m

end Sys2Proof.Machine
end

