-- ==== Sys2Proof/Machine/Flags.lean ====
section
/-! DEFINITION. STATUS and the other views a register read assembles (10_state.md R29 to R34), and the warning event
(60_exceptions.md R269). -/

namespace Sys2Proof.Machine

/-- STATUS[1:0] (R29). -/
def Phase.code (p : Phase) : Nat :=
  match p with
  | .unconfigured => 0
  | .ready _ => 1
  | .cfgError => 2
  | .fatal => 3

/-- STATUS[7:4] (R261). -/
def ErrCode.code (e : ErrCode) : Nat :=
  match e with
  | .none => 0
  | .cfgRate => 1
  | .cfgInbandN => 2
  | .cfgIlvTable => 3
  | .fatalLdpcTable => 4
  | .fatalLdpcCap => 5
  | .cmdState => 6
  | .cmdReserved => 7
  | .cmdReg => 8
  | .cmdIndex => 9
  | .cmdUnavailable => 10

/-- STATUS: STATE [1:0], CMDERR [2], SYNCWARN [3], ERRCODE [7:4], [15:8] reads 0, SWCNT [31:16] (R29). -/
def State.status (s : State) : Word :=
  BitVec.ofNat 32
    (s.phase.code + 4 * s.cmdErr.toNat + 8 * s.syncWarn.toNat + 16 * s.errCode.code + 65536 * s.swcnt.toNat)

/-- FSTATE: PBC [7:0], PCRC [15:8], IBC [31:16] (R30). -/
def State.fstate (s : State) : Word :=
  BitVec.ofNat 32 (s.pbc.toNat + 256 * s.pcrc.toNat + 65536 * s.ibc.toNat)

/-- PARAM0: kbch [15:0], nbch [31:16] while READY, 0 in every other state (R31). -/
def State.param0 (s : State) : Word :=
  match s.phase.tables with
  | some t => BitVec.ofNat 32 (t.par.kbch % 65536 + 65536 * (t.par.nbch % 65536))
  | none => 0

/-- PARAM1: pbch [7:0], q [15:8], N [31:16] while READY, 0 in every other state (R32). -/
def State.param1 (s : State) : Word :=
  match s.phase.tables with
  | some t => BitVec.ofNat 32 (t.par.pbch % 256 + 256 * (t.par.q % 256) + 65536 * (t.par.n % 65536))
  | none => 0

/-- `REG(name)`, as RDREG reads it (R24). -/
def State.readReg (s : State) (r : Reg) : Word :=
  match r with
  | .cfg0 => s.cfg0
  | .cfg1 => s.cfg1
  | .cfg2 => s.cfg2
  | .cfg3 => s.cfg3
  | .status => s.status
  | .fstate => s.fstate
  | .param0 => s.param0
  | .param1 => s.param1
  | .crct => s.crct.zeroExtend 32
  | .lastio => s.lastio

/-- `STATUS.SWCNT <- min(STATUS.SWCNT + 1, 0xFFFF)` (R269): it saturates and does not wrap. -/
def bumpSwcnt (c : BitVec 16) : BitVec 16 := BitVec.ofNat 16 (min (c.toNat + 1) 0xFFFF)

/-- LASTIO: LAST_IN [15:0], LAST_OUT [31:16] (R34, R197). -/
def packLastio (used nbch : Nat) : Word := BitVec.ofNat 32 (used % 65536 + 65536 * (nbch % 65536))

end Sys2Proof.Machine
end

