-- ==== Sys2Proof/Machine/Bch.lean ====
section
/-! DEFINITION. The BCH encoder (42_bch.md): component polynomials, generator, remainder table, parity, BCHENC. -/

namespace Sys2Proof.Machine

/-- gN1 to gN12 (R126). -/
def bchNormal : List Nat :=
  [0x1002D, 0x10173, 0x10FBD, 0x15A55, 0x11F2F, 0x1F7B5, 0x1AF65, 0x17367, 0x10EA1, 0x175A7, 0x13A2D, 0x11AE3]

/-- gS1 to gS12 (R126). -/
def bchShort : List Nat :=
  [0x402B, 0x4941, 0x4647, 0x5591, 0x6B55, 0x6389, 0x6CE5, 0x4F21, 0x460F, 0x5A49, 0x5811, 0x65EF]

/-- The components of a variant (R94, R127). -/
def bchComponents (v : BchVariant) : List Nat :=
  match v with
  | .n12 => bchNormal
  | .n10 => bchNormal.take 10
  | .s12 => bchShort

/-- `BuildBchGenerator` (R127). -/
def buildBchGenerator (v : BchVariant) : Nat := (bchComponents v).foldl gf2Mul 1

/-- `glow = BCHG ^ 2^pbch` (R128). -/
def bchGlow (g p : Nat) : Nat := g ^^^ 2 ^ p

/-- One shift-and-conditionally-XOR step of R129 on a register of `p` bits. -/
def bchShift (glow p r : Nat) : Nat :=
  if r.testBit (p - 1) then ((r <<< 1) % 2 ^ p) ^^^ glow else (r <<< 1) % 2 ^ p

/-- BCHT[b] (R129): 8 steps from `b << (p − 8)`. -/
def bchEntry (glow p b : Nat) : Nat :=
  bchShift glow p (bchShift glow p (bchShift glow p (bchShift glow p
    (bchShift glow p (bchShift glow p (bchShift glow p (bchShift glow p (b <<< (p - 8)))))))))

/-- `BuildBchTable` (R129). -/
def buildBchTable (g p : Nat) : List Nat := (List.range 256).map fun b => bchEntry (bchGlow g p) p b

/-- One byte of R130: the register's high byte XOR the input byte indexes the table. -/
def bchByte (bcht : List Nat) (p reg : Nat) (byte : Byte) : Nat :=
  ((reg <<< 8) % 2 ^ p) ^^^ bcht.getD ((reg >>> (p - 8)) ^^^ byte.toNat) 0

/-- `BchParity` of R130 over the information bits, pbch bits, MSB first. -/
def bchParity (bcht : List Nat) (p : Nat) (info : Bits) : Bits :=
  natBits p ((packBytes info).foldl (bchByte bcht p) 0)

/-- The bit-serial division of R131. -/
def bchSerialBit (glow p reg : Nat) (u : Bool) : Nat :=
  if xor (reg.testBit (p - 1)) u then ((reg <<< 1) % 2 ^ p) ^^^ glow else (reg <<< 1) % 2 ^ p

/-- The parity by bit-serial division (R131), which "a model may compute" instead. -/
def bchSerial (glow p : Nat) (info : Bits) : Bits := natBits p (info.foldl (bchSerialBit glow p) 0)

/-- `FB[kbch, nbch) <- BchParity(FB, kbch, pbch)` (R133, R197). -/
def bchEncode (t : Tables) (m : Memory) : Memory :=
  fbWrite m t.par.kbch (bchParity t.bcht t.par.pbch (fbBits m 0 t.par.kbch))

/-- BCHENC (R133). -/
def execBchenc (s : State) : Host.Outcome State Fault Refusal :=
  match s.phase.tables with
  | none => .next (s.rejected 1 .cmdState)
  | some t => .next ((s.setFrameBuf (bchEncode t s.frameBuf)).retire 1)

end Sys2Proof.Machine
end

