-- ==== Sys2Proof/Machine/Interleaver.lean ====
section
/-! DEFINITION. The bit interleaver (47_interleaver.md): table geometry and validity, regroup, twist, mux, INTERLEAVE. -/

namespace Sys2Proof.Machine

/-! ### Geometry and tables (R221) -/

/-- Nc, the columns: 2m, but m for 256QAM with short frames (R221). -/
def ilvColumns (fs : FrameSize) (m : Modulation) : Nat :=
  match fs, m with
  | .short, .qam256 => 8
  | _, m => 2 * modBits m

/-- Nr = N / Nc, the rows (R221). -/
def ilvRows (n nc : Nat) : Nat := n / nc

/-- `len(TW) = Nc` and every offset is below Nr (R221). -/
def twistValid (nc nr : Nat) (tw : List Nat) : Bool := tw.length == nc && tw.all fun x => decide (x < nr)

/-- `len(MX) = Nc` and MX is a permutation of [0, Nc) (R221). -/
def muxValid (nc : Nat) (mx : List Nat) : Bool :=
  mx.length == nc && (mx.all fun x => decide (x < nc)) && decide mx.Nodup

/-- `IlvTablesValid`: both tables are present and valid (R221). -/
def ilvTablesValid (nc nr : Nat) (tw mx : Option (List Nat)) : Bool :=
  match tw, mx with
  | some tw, some mx => twistValid nc nr tw && muxValid nc mx
  | some _, none => false
  | none, some _ => false
  | none, none => false

/-! ### Stages -/

/-- The index of λ that bit `i` of u takes after the regroup (R222): u[nbch + 360t + s] <- λ[nbch + q·s + t]. -/
def regroupIndex (c : CodeParams) (i : Nat) : Nat :=
  if i < c.nbch then i else c.nbch + c.q * ((i - c.nbch) % 360) + (i - c.nbch) / 360

/-- Does the regroup apply (R222)? -/
def regroupApplies (nonQpsk : Bool) (m : Modulation) (rate : Option CodeRate) : Bool :=
  match m with
  | .qpsk => rate == some .r1_3 || rate == some .r2_5
  | .qam16 | .qam64 | .qam256 => nonQpsk

/-- Bit `i` of u (R228): λ regrouped where R222 applies, else λ. -/
def ilvBit (regroup : Bool) (c : CodeParams) (lam : Array Bool) (i : Nat) : Bool :=
  lam.getD (if regroup then regroupIndex c i else i) false

/-- `Mtx[r][c]` (R223): column c holds u[c·Nr, (c+1)·Nr), its bit `r_in` in row (r_in + TW[c]) mod Nr; so row r holds the
bit with r_in = (r − TW[c]) mod Nr. -/
def twistBit (nr : Nat) (tw : List Nat) (u : Nat → Bool) (r c : Nat) : Bool :=
  u (c * nr + (r + (nr - tw.getD c 0)) % nr)

/-- `y[d]` of a row (R224, R225): MX[e] is the destination of the row's bit e. -/
def muxBit (mx : List Nat) (row : Nat → Bool) (d : Nat) : Bool := row (mx.idxOf d)

/-- A cell from its m bits, y_0 the MSB (R226). -/
def cellOf (m : Nat) (y : Nat → Bool) : Byte := BitVec.ofNat 8 (bitsVal ((List.range m).map y))

/-- Cell `j` (R226, R227): for QPSK bits 2j and 2j+1 of u; else bits h·m … of the muxed row r, j = r·(Nc/m) + h. -/
def ilvCell (m : Modulation) (nc nr : Nat) (tw mx : List Nat) (u : Nat → Bool) (j : Nat) : Byte :=
  match m with
  | .qpsk => cellOf 2 fun k => u (2 * j + k)
  | .qam16 | .qam64 | .qam256 =>
    let per := nc / modBits m
    cellOf (modBits m) fun k => muxBit mx (twistBit nr tw u (j / per)) (j % per * modBits m + k)

/-- The cells of a frame, in order (R228). -/
def ilvCells (nonQpsk : Bool) (c0 : Word) (t : Tables) (fb : Memory) : List Byte :=
  let m := cfgMod c0
  let nc := ilvColumns (cfgFs c0) m
  let lam := (fbBits fb 0 t.par.n).toArray
  let u := ilvBit (regroupApplies nonQpsk m (cfgRate c0)) t.par lam
  (List.range (cellCount t.par.n m)).map (ilvCell m nc (ilvRows t.par.n nc) t.tw t.mx u)

/-- CELLBUF after INTERLEAVE (R228): only CB[0, Ncells) is written. -/
def State.interleaved (s : State) (nonQpsk : Bool) (t : Tables) : Memory :=
  s.cellBuf.writeRange 0 (ilvCells nonQpsk s.cfg0 t s.frameBuf)

/-- INTERLEAVE (R228). -/
def execInterleave (s : State) : Host.Outcome State Fault Refusal :=
  match s.phase.tables with
  | none => .next (s.rejected 1 .cmdState)
  | some t => .next ((s.setCellBuf (s.interleaved Config.params.regroupNonQpsk t)).retire 1)

end Sys2Proof.Machine
end

