-- ==== Sys2Proof/Machine/Ldpc.lean ====
section
/-! DEFINITION. The LDPC parity-adjacency expander and the LDPC parity (43_ldpc.md): LDPC, RDADJ, RDADJN. -/

namespace Sys2Proof.Machine

/-- A present base table is well-formed (R146): G = nbch / 360 rows, every seed below nldpcp. -/
def baseWellFormed (base : List (List Nat)) (c : CodeParams) : Bool :=
  base.length == c.nbch / 360 && base.all fun row => row.all fun x => decide (x < c.nldpcp)

/-- `total = 360 · Σ_g len(base[g])` (R148, R149). -/
def adjTotal (base : List (List Nat)) : Nat := 360 * (base.map List.length).sum

/-- The (parity index, systematic index) pairs of one group, in the loop order of R148: rotation, then seed. -/
def groupEntries (c : CodeParams) (g : Nat) (row : List Nat) : List (Nat × Nat) :=
  (List.range 360).flatMap fun r => row.map fun x => ((x + r * c.q) % c.nldpcp, 360 * g + r)

/-- The pairs of all groups, from group `g` up, in the loop order of R148. -/
def adjEntries (c : CodeParams) (g : Nat) (base : List (List Nat)) : List (Nat × Nat) :=
  match base with
  | [] => []
  | row :: rest => groupEntries c g row ++ adjEntries c (g + 1) rest

/-- The adjacency of R148: each list holds the systematic indices appended to it, in loop order, duplicates kept. -/
def adjLists (c : CodeParams) (base : List (List Nat)) : List (List Nat) :=
  let es := adjEntries c 0 base
  (List.range c.nldpcp).map fun p => es.filterMap fun e => if e.1 = p then some e.2 else none

/-- `ExpandLdpc` (R148): the adjacency (none when ABSENT), or the Fatal it raises. -/
def expandLdpc (mode : LdpcMode) (cap : Nat) (base : Option (List (List Nat))) (c : CodeParams) :
    Except ErrCode (Option (List (List Nat))) :=
  match base with
  | none =>
    match mode with
    | .computed => .error .fatalLdpcTable
    | .zero => .ok none
  | some b =>
    if baseWellFormed b c = false then .error .fatalLdpcTable
    else if cap < adjTotal b then .error .fatalLdpcCap
    else .ok (some (adjLists c b))

/-- The first pass (R150): acc[p] is the XOR of the systematic bits in list p; the empty XOR is 0. -/
def adjXor (m : Memory) (l : List Nat) : Bool := l.foldl (fun acc i => xor acc (fbBit m i)) false

/-- The second pass (R151): the running prefix XOR, `acc` the value of the bit before. -/
def prefixXor (acc : Bool) (v : Bits) : Bits :=
  match v with
  | [] => []
  | b :: rest => xor acc b :: prefixXor (xor acc b) rest

/-- The bits LDPC writes to FB[nbch, N) (R152): zeros, or the parity of R150 and R151. -/
def ldpcParity (mode : LdpcMode) (t : Tables) (m : Memory) : Bits :=
  match mode with
  | .zero => List.replicate t.par.nldpcp false
  | .computed => prefixXor false ((t.adj.getD []).map (adjXor m))

/-- FRAMEBUF after LDPC in the given mode (R152). -/
def ldpcWrite (mode : LdpcMode) (t : Tables) (m : Memory) : Memory := fbWrite m t.par.nbch (ldpcParity mode t m)

/-- LDPC (R152). -/
def execLdpc (s : State) : Host.Outcome State Fault Refusal :=
  match s.phase.tables with
  | none => .next (s.rejected 1 .cmdState)
  | some t => .next ((s.setFrameBuf (ldpcWrite Config.params.ldpcMode t s.frameBuf)).retire 1)

/-- The checks RDADJ and RDADJN share, in the order of R263: the list of parity bit `p`, or the error. -/
def adjList (t : Tables) (p : Nat) : Except ErrCode (List Nat) :=
  match t.adj with
  | none => .error .cmdUnavailable
  | some adj => if t.par.nldpcp ≤ p then .error .cmdIndex else .ok (adj.getD p [])

/-- RDADJ (R153): entry `k`, or 0xFFFF_FFFF past the end of the list. -/
def execRdadj (k p : Nat) (s : State) : Host.Outcome State Fault Refusal :=
  match s.phase.tables with
  | none => .next (s.rejected 1 .cmdState)
  | some t =>
    match adjList t p with
    | .error e => .next (s.rejected 1 e)
    | .ok l =>
      match l[k]? with
      | none => .next ((s.pushResp 0xFFFFFFFF).retire 1)
      | some i => .next ((s.pushResp (BitVec.ofNat 32 i)).retire 1)

/-- RDADJN (R154). -/
def execRdadjn (p : Nat) (s : State) : Host.Outcome State Fault Refusal :=
  match s.phase.tables with
  | none => .next (s.rejected 1 .cmdState)
  | some t =>
    match adjList t p with
    | .error e => .next (s.rejected 1 e)
    | .ok l => .next ((s.pushResp (BitVec.ofNat 32 l.length)).retire 1)

end Sys2Proof.Machine
end

