-- ==== Sys2Proof/Machine/Mapper.lean ====
section
/-! DEFINITION. The constellation mapper (48_mapper.md): labeling, normalisation, rotation, Q-delay, MAP. -/

namespace Sys2Proof.Machine

/-- The Gray decode of R242: the running XOR is appended to `v` bit by bit. -/
def grayValue (acc : Bool) (v : Nat) (gs : Bits) : Nat :=
  match gs with
  | [] => v
  | g :: rest => grayValue (xor acc g) (2 * v + (xor acc g).toNat) rest

/-- `Level(s, g_1, …, g_{k−1})` of R242: sign bit first, then the Gray-coded magnitude. -/
def level (bits : Bits) : Int :=
  match bits with
  | [] => 0
  | s :: gs =>
    let mag : Int := (2 ^ (gs.length + 1) - 1 : Int) - 2 * (grayValue false 0 gs : Int)
    if s then -mag else mag

/-- The even-numbered bits y_0, y_2, … (R242). -/
def evenBits (y : Bits) : Bits :=
  match y with
  | [] => []
  | [a] => [a]
  | a :: _ :: rest => a :: evenBits rest

/-- The odd-numbered bits y_1, y_3, … (R242). -/
def oddBits (y : Bits) : Bits :=
  match y with
  | [] => []
  | [_] => []
  | _ :: b :: rest => b :: oddBits rest

/-- I of cell value `v` before normalisation (R241). -/
def pointI (m v : Nat) : Int := level (evenBits (natBits m v))

/-- Q of cell value `v` before normalisation (R241). -/
def pointQ (m v : Nat) : Int := level (oddBits (natBits m v))

/-- NORM(mod)², the mean energy before normalisation (R243). -/
def normEnergy (m : Modulation) : Nat :=
  match m with
  | .qpsk => 2
  | .qam16 => 10
  | .qam64 => 42
  | .qam256 => 170

/-- Φ(mod) in billionths of a degree: 29°, 16.8°, 8.6°, 3.576334375° (R244). -/
def rotationNanoDeg (m : Modulation) : Nat :=
  match m with
  | .qpsk => 29000000000
  | .qam16 => 16800000000
  | .qam64 => 8600000000
  | .qam256 => 3576334375

/-- (I + i·Q) / √energy. -/
def plainPoint (i q : Int) (energy : Nat) : ExactComplex :=
  { re := { cosCoef := i, sinCoef := 0, nanoDeg := 0, energy := energy }
    im := { cosCoef := q, sinCoef := 0, nanoDeg := 0, energy := energy } }

/-- (I + i·Q) / √energy · e^(iΦ), counter-clockwise (R244): real part I·cos Φ − Q·sin Φ, imaginary part
Q·cos Φ + I·sin Φ. -/
def rotatedPoint (i q : Int) (energy phi : Nat) : ExactComplex :=
  { re := { cosCoef := i, sinCoef := -q, nanoDeg := phi, energy := energy }
    im := { cosCoef := q, sinCoef := i, nanoDeg := phi, energy := energy } }

/-- One entry of CONST (R241). -/
def constPoint (m : Modulation) (rot : Bool) (v : Nat) : ExactComplex :=
  let i := pointI (modBits m) v
  let q := pointQ (modBits m) v
  if rot then rotatedPoint i q (normEnergy m) (rotationNanoDeg m) else plainPoint i q (normEnergy m)

/-- `BuildConst` (R241): 2^m points. -/
def buildConst (m : Modulation) (rot : Bool) : List ExactComplex :=
  (List.range (2 ^ modBits m)).map (constPoint m rot)

/-- `CONST[CB[j] & (2^m − 1)]` (R246). -/
def cellPoint (points : List ExactComplex) (m : Modulation) (cb : Array Byte) (j : Nat) : ExactComplex :=
  points.getD ((cb.getD j 0).toNat % 2 ^ modBits m) default

/-- The exact output symbol `j` of a frame of `n` cells (R245, R246): with rotation on, the imaginary part is that of the
cell before, cyclically within the frame. -/
def mapSymbol (points : List ExactComplex) (m : Modulation) (rot : Bool) (n : Nat) (cb : Array Byte) (j : Nat) :
    ExactComplex :=
  let z := cellPoint points m cb j
  if rot then { re := z.re, im := (cellPoint points m cb ((j + (n - 1)) % n)).im } else z

/-- The exact symbols of the frame in CELLBUF, in order (R246). -/
def State.mapExact (s : State) (t : Tables) : List ExactComplex :=
  let m := cfgMod s.cfg0
  let n := cellCount t.par.n m
  let cb := (s.cellBuf.readRange 0 n).toArray
  (List.range n).map (mapSymbol t.points m (cfgRot s.cfg0) n cb)

/-- MAP's pushes on SYM_OUT, in the given number format (R246, R247). -/
def State.mapped (s : State) (fmt : ExactComplex → SymItem) (t : Tables) : State :=
  { s with symOut := s.symOut ++ (s.mapExact t).map fmt }

/-- MAP (R246). -/
def execMap (s : State) : Host.Outcome State Fault Refusal :=
  match s.phase.tables with
  | none => .next (s.rejected 1 .cmdState)
  | some t => .next ((s.mapped Config.params.symFmt t).retire 1)

end Sys2Proof.Machine
end

