-- ==== Sys2Proof/Machine/ParamTable.lean ====
section
/-! DEFINITION. The Parameter Table (40_control.md R91 to R95). -/

namespace Sys2Proof.Machine

/-- `N_NORMAL` and `N_SHORT` (R6). -/
def frameBitsOf (fs : FrameSize) : Nat :=
  match fs with
  | .normal => 64800
  | .short => 16200

/-- A row of R93, written as the table has it: kbch, nbch, pbch, variant, q; N is the frame size of its class. -/
def ptRow (fs : FrameSize) (kbch nbch pbch : Nat) (v : BchVariant) (q : Nat) : Option CodeParams :=
  some { kbch := kbch, nbch := nbch, pbch := pbch, variant := v, q := q, n := frameBitsOf fs }

/-- PT (R93); none for a pair that is not a row: NORMAL has no 1/3 and no 2/5 (R92). -/
def codeParams (fs : FrameSize) (rate : CodeRate) : Option CodeParams :=
  match fs, rate with
  | .normal, .r1_3 => none
  | .normal, .r2_5 => none
  | .normal, .r1_2 => ptRow .normal 32208 32400 192 .n12 90
  | .normal, .r3_5 => ptRow .normal 38688 38880 192 .n12 72
  | .normal, .r2_3 => ptRow .normal 43040 43200 160 .n10 60
  | .normal, .r3_4 => ptRow .normal 48408 48600 192 .n12 45
  | .normal, .r4_5 => ptRow .normal 51648 51840 192 .n12 36
  | .normal, .r5_6 => ptRow .normal 53840 54000 160 .n10 30
  | .short, .r1_3 => ptRow .short 5232 5400 168 .s12 30
  | .short, .r2_5 => ptRow .short 6312 6480 168 .s12 27
  | .short, .r1_2 => ptRow .short 7032 7200 168 .s12 25
  | .short, .r3_5 => ptRow .short 9552 9720 168 .s12 18
  | .short, .r2_3 => ptRow .short 10632 10800 168 .s12 15
  | .short, .r3_4 => ptRow .short 11712 11880 168 .s12 12
  | .short, .r4_5 => ptRow .short 12432 12600 168 .s12 10
  | .short, .r5_6 => ptRow .short 13152 13320 168 .s12 8

end Sys2Proof.Machine
end

