-- ==== Sys2Proof/Machine/Randomizer.lean ====
section
/-! DEFINITION. The randomizer (45_randomizer.md): the LFSR sequence, its application, RAND. -/

namespace Sys2Proof.Machine

/-- The fixed seed (R185). -/
def randSeed : BitVec 15 := 0x4A80

/-- The output bit: stage 15 XOR stage 14 (R186). -/
def lfsrOut (sr : BitVec 15) : Bool := xor (sr.getLsbD 0) (sr.getLsbD 1)

/-- The register after one step: shifted towards stage 15, the output enters stage 1 (R186). -/
def lfsrNext (sr : BitVec 15) : BitVec 15 := (sr >>> 1) ||| (if lfsrOut sr then 0x4000 else 0)

/-- The first `n` outputs from the register `sr` (R186). -/
def lfsrBits (n : Nat) (sr : BitVec 15) : Bits :=
  match n with
  | 0 => []
  | k + 1 => lfsrOut sr :: lfsrBits k (lfsrNext sr)

/-- `RAND_LEN` (R6). -/
def randLen : Nat := 64800

/-- `BuildRandSeq` (R186). -/
def buildRandSeq : Bits := lfsrBits randLen randSeed

/-- `Randomize()` (R187): FB[i] ^= RSEQ[i] for i in [0, kbch). -/
def randomize (t : Tables) (m : Memory) : Memory := fbWrite m 0 (xorBits (fbBits m 0 t.par.kbch) t.rseq)

/-- RAND (R188). -/
def execRand (s : State) : Host.Outcome State Fault Refusal :=
  match s.phase.tables with
  | none => .next (s.rejected 1 .cmdState)
  | some t => .next ((s.setFrameBuf (randomize t s.frameBuf)).retire 1)

end Sys2Proof.Machine
end

