-- ==== Sys2Proof/Machine/Control.lean ====
section
/-! DEFINITION. The control commands (40_control.md): NOP, RESET, WRCFG, RDREG, COMMIT and the buffer accesses. -/

namespace Sys2Proof.Machine

/-- NOP (R82): nothing, in every state. -/
def execNop (s : State) : Host.Outcome State Fault Refusal := .next (s.retire 1)

/-- RESET (R78): StreamReset, refused in FATAL. -/
def execReset (s : State) : Host.Outcome State Fault Refusal :=
  if s.phase.isFatal then .next (s.rejected 1 .cmdState) else .next (s.streamReset.retire 1)

/-- WRCFG (R80): legal in UNCONFIGURED and CFG_ERROR. -/
def execWrcfg (a : Nat) (d : Word) (s : State) : Host.Outcome State Fault Refusal :=
  if s.phase.isConfiguring then
    match s.writeReg a d with
    | none => .next (s.rejected 2 .cmdReg)
    | some s' => .next (s'.retire 2)
  else .next (s.rejected 2 .cmdState)

/-- RDREG (R81): legal in every state. -/
def execRdreg (a : Nat) (s : State) : Host.Outcome State Fault Refusal :=
  match regOf a with
  | none => .next (s.rejected 1 .cmdReg)
  | some r => .next ((s.pushResp (s.readReg r)).retire 1)

/-! ### COMMIT (R83 to R85) -/

/-- What a COMMIT that does not succeed raises. -/
inductive CommitError
  /-- `CfgError(code)` (R267). -/
  | cfg (code : ErrCode)
  /-- `Fatal(code)` (R268). -/
  | fatal (code : ErrCode)
deriving DecidableEq, Repr

/-- The tables COMMIT builds once every check has passed (R84); TW and MX for non-QPSK only. -/
def buildTables (c : CodeParams) (m : Modulation) (rot : Bool) (adj : Option (List (List Nat)))
    (tw mx : Option (List Nat)) : Tables :=
  let g := buildBchGenerator c.variant
  { par := c
    bchg := g
    bcht := buildBchTable g c.pbch
    rseq := buildRandSeq
    adj := adj
    tw := if m = .qpsk then [] else tw.getD []
    mx := if m = .qpsk then [] else mx.getD []
    points := buildConst m rot }

/-- The rate and Parameter Table row CFG0 selects; none where R84 raises CFG_RATE. -/
def selectParams (c0 : Word) : Option (CodeRate × CodeParams) :=
  match cfgRate c0 with
  | none => none
  | some rate =>
    match codeParams (cfgFs c0) rate with
    | none => none
    | some c => some (rate, c)

/-- The third configuration check of R84: mod is not QPSK and its tables are missing or invalid. -/
def ilvTableError (p : Params) (c0 : Word) (rate : CodeRate) (c : CodeParams) : Bool :=
  let fs := cfgFs c0
  let m := cfgMod c0
  let nc := ilvColumns fs m
  m != .qpsk && !ilvTablesValid nc (ilvRows c.n nc) (p.twist fs m rate) (p.mux fs m rate)

/-- COMMIT's checks and table builds, in the order of R84 and R85. -/
def commitTables (p : Params) (c0 c2 : Word) : Except CommitError Tables :=
  match selectParams c0 with
  | none => .error (.cfg .cfgRate)
  | some (rate, c) =>
    if cfgInband c0 && cfgInbandN c2 == 0 then .error (.cfg .cfgInbandN)
    else if ilvTableError p c0 rate c then .error (.cfg .cfgIlvTable)
    else
      match expandLdpc p.ldpcMode p.ldpcCap (p.ldpcBase (cfgFs c0) rate) c with
      | .error e => .error (.fatal e)
      | .ok adj =>
        .ok (buildTables c (cfgMod c0) (cfgRot c0) adj (p.twist (cfgFs c0) (cfgMod c0) rate)
          (p.mux (cfgFs c0) (cfgMod c0) rate))

/-- The state after COMMIT with the given parameters, where COMMIT is legal (R84): READY with ERRCODE 0, or the event
raised. -/
def State.committed (s : State) (p : Params) : State :=
  match commitTables p s.cfg0 s.cfg2 with
  | .ok t => { s with phase := .ready t, errCode := .none }
  | .error (.cfg e) => s.raiseCfg e
  | .error (.fatal e) => s.raiseFatal e

/-- COMMIT (R84): legal in UNCONFIGURED and CFG_ERROR. -/
def execCommit (s : State) : Host.Outcome State Fault Refusal :=
  if s.phase.isConfiguring then .next ((s.committed Config.params).retire 1) else .next (s.rejected 1 .cmdState)

/-! ### Buffer access (R87 to R89) -/

/-- WRFB (R87). -/
def execWrfb (w : Nat) (d : Word) (s : State) : Host.Outcome State Fault Refusal :=
  if s.phase.isFatal then .next (s.rejected 2 .cmdState)
  else if fbWords ≤ w then .next (s.rejected 2 .cmdIndex)
  else .next ((s.setFrameBuf (fbWriteWord s.frameBuf w d)).retire 2)

/-- RDFB (R88). -/
def execRdfb (w : Nat) (s : State) : Host.Outcome State Fault Refusal :=
  if s.phase.isFatal then .next (s.rejected 1 .cmdState)
  else if fbWords ≤ w then .next (s.rejected 1 .cmdIndex)
  else .next ((s.pushResp (fbReadWord s.frameBuf w)).retire 1)

/-- RDCB (R89): the cell, zero-extended. -/
def execRdcb (j : Nat) (s : State) : Host.Outcome State Fault Refusal :=
  if s.phase.isFatal then .next (s.rejected 1 .cmdState)
  else if cbCells ≤ j then .next (s.rejected 1 .cmdIndex)
  else .next ((s.pushResp ((s.cellBuf.read j).zeroExtend 32)).retire 1)

end Sys2Proof.Machine
end

