-- ==== Sys2Proof/Machine/Crc.lean ====
section
/-! DEFINITION. The CRC-8 engine (41_crc8.md): the table, the running update, the bit-serial form, CRC8 and CRC8CLR. -/

namespace Sys2Proof.Machine

/-- One of the 8 steps of R111: shift left, and XOR 0xD5 when bit 7 was 1. -/
def crc8Shift (r : Byte) : Byte := if r.msb then (r <<< 1) ^^^ 0xD5 else r <<< 1

/-- The entry of CRC8T at index `i` (R111): 8 steps from `i`. -/
def crc8Entry (i : Byte) : Byte :=
  crc8Shift (crc8Shift (crc8Shift (crc8Shift (crc8Shift (crc8Shift (crc8Shift (crc8Shift i)))))))

/-- CRC8T whole (R111, R119): a constant, valid in every state. -/
def crc8Table : List Byte := (List.range 256).map fun i => crc8Entry (BitVec.ofNat 8 i)

/-- `crc8_byte(s, b)` of R112; the table's entry is computed on demand, as R111 allows. -/
def crc8Byte (s b : Byte) : Byte := crc8Entry (s ^^^ b)

/-- `crc8` of a byte sequence (R112): initial value 0, no final XOR. -/
def crc8 (bs : List Byte) : Byte := bs.foldl crc8Byte 0

/-- One bit of the bit-serial form (R113). -/
def crc8Bit (r : Byte) (v : Bool) : Byte := if xor r.msb v then (r <<< 1) ^^^ 0xD5 else r <<< 1

/-- `crc8_bits` of R113. -/
def crc8Bits (v : Bits) : Byte := v.foldl crc8Bit 0

/-- `rev8(x)`: the bits of a byte reversed (R117). -/
def rev8 (x : Byte) : Byte := BitVec.ofNat 8 (bitsVal (byteBits x).reverse)

/-- One of the 8 steps of the reversed method (R117): shift right, and XOR 0xAB when bit 0 was 1. -/
def crcReversedShift (s : Byte) : Byte := if s.getLsbD 0 then (s >>> 1) ^^^ 0xAB else s >>> 1

/-- One byte of the reversed method (R117). -/
def crcReversedByte (s b : Byte) : Byte :=
  crcReversedShift (crcReversedShift (crcReversedShift (crcReversedShift (crcReversedShift (crcReversedShift
    (crcReversedShift (crcReversedShift (s ^^^ b))))))))

/-- `crcR` of R117: the document's reversed, LSB-first register. -/
def crcReversed (bs : List Byte) : Byte := bs.foldl crcReversedByte 0

/-- CRC8 (R114). -/
def execCrc8 (b : Byte) (s : State) : Host.Outcome State Fault Refusal :=
  if s.phase.isFatal then .next (s.rejected 1 .cmdState)
  else .next ({ s with crct := crc8Byte s.crct b }.retire 1)

/-- CRC8CLR (R115). -/
def execCrc8clr (s : State) : Host.Outcome State Fault Refusal :=
  if s.phase.isFatal then .next (s.rejected 1 .cmdState)
  else .next ({ s with crct := 0 }.retire 1)

end Sys2Proof.Machine
end

