-- ==== Sys2Proof/Machine/Header.lean ====
section
/-! DEFINITION. The baseband header and the in-band type-B field (44_bbheader.md), and BBHDR. -/

namespace Sys2Proof.Machine

/-- `pad` (R173, R174, R196): 104 when the frame carries the in-band field, 0 otherwise. -/
def State.pad (s : State) : Nat := if cfgInband s.cfg0 && s.ibc == 0 then 104 else 0

/-- SYNCD (R170). -/
def State.syncd (s : State) : Nat := if s.pbc = 0 then 0 else (188 - s.pbc.toNat) * 8

/-- The 72 field bits H[0, 72) (R166, R174). -/
def State.headerFields (s : State) (kbch : Nat) : Bits :=
  natBits 16 (cfgMatype s.cfg3) ++ natBits 16 1504 ++ natBits 16 (kbch - 80 - s.pad) ++ natBits 8 0x47
    ++ natBits 16 s.syncd

/-- The header CRC with the HEM bit (R171): forced to 1 is an OR. -/
def headerCrc (mode : InputMode) (fields : Bits) : Byte :=
  match mode with
  | .nm => crc8Bits fields
  | .hem => crc8Bits fields ||| 0x01

/-- `BbHeader()`, 80 bits (R174). -/
def State.bbHeader (s : State) (kbch : Nat) : Bits :=
  s.headerFields kbch ++ byteBits (headerCrc (cfgInMode s.cfg0) (s.headerFields kbch))

/-- `InbandB()`, 104 bits (R172, R174). -/
def State.inbandB (s : State) : Bits :=
  natBits 2 1 ++ List.replicate 65 false ++ natBits 27 (cfgTsRate s.cfg1) ++ List.replicate 10 false

/-- `FB[0, 80) <- BbHeader()`, and the in-band field at FB[80, 184) where the frame carries it (R175, R197). -/
def State.writeHeader (s : State) (t : Tables) : Memory :=
  let m := fbWrite s.frameBuf 0 (s.bbHeader t.par.kbch)
  if s.pad = 104 then fbWrite m 80 s.inbandB else m

/-- BBHDR (R175). -/
def execBbhdr (s : State) : Host.Outcome State Fault Refusal :=
  match s.phase.tables with
  | none => .next (s.rejected 1 .cmdState)
  | some t => .next ((s.setFrameBuf (s.writeHeader t)).retire 1)

end Sys2Proof.Machine
end

