-- ==== Sys2Proof/Machine/Pipeline.lean ====
section
/-! DEFINITION. The baseband frame pipeline (46_pipeline.md): the transport-packet state machine, NEED, FRAME. -/

namespace Sys2Proof.Machine

/-! ### The transport-packet state machine (R198 to R201) -/

/-- What a packet step reads and writes: PBC and PCRC of FrameState, and the flag and count of the sync warning. -/
structure PacketState where
  pbc : Byte
  pcrc : Byte
  syncWarn : Bool
  swcnt : BitVec 16
deriving DecidableEq, Repr

/-- The packet state of the core. -/
def State.packet (s : State) : PacketState :=
  { pbc := s.pbc, pcrc := s.pcrc, syncWarn := s.syncWarn, swcnt := s.swcnt }

/-- `warn SyncMismatch` (R269). -/
def PacketState.warn (f : PacketState) : PacketState := { f with syncWarn := true, swcnt := bumpSwcnt f.swcnt }

/-- `(PBC + 1) mod 188` (R198, R199). -/
def nextPbc (pbc : Byte) : Byte := BitVec.ofNat 8 ((pbc.toNat + 1) % 188)

/-- The sync byte (R6). -/
def syncByte : Byte := 0x47

/-- `PacketStep_NM` (R198): every byte emits 8 bits. -/
def packetStepNm (f : PacketState) (b : Byte) : PacketState × Option Byte :=
  if f.pbc = 0 then
    let f' := if b = syncByte then f else f.warn
    ({ f' with pcrc := 0, pbc := 1 }, some f.pcrc)
  else ({ f with pcrc := crc8Byte f.pcrc b, pbc := nextPbc f.pbc }, some b)

/-- `PacketStep_HEM` (R199): the sync byte is dropped unchecked. -/
def packetStepHem (f : PacketState) (b : Byte) : PacketState × Option Byte :=
  if f.pbc = 0 then ({ f with pbc := 1 }, none) else ({ f with pbc := nextPbc f.pbc }, some b)

/-- PacketStep in the configured input mode (R197). -/
def packetStep (mode : InputMode) (f : PacketState) (b : Byte) : PacketState × Option Byte :=
  match mode with
  | .nm => packetStepNm f b
  | .hem => packetStepHem f b

/-- What the loop of R197 leaves: the packet state, the data bytes emitted, the count of bytes consumed, and what stays
in IN. -/
structure Filled where
  packet : PacketState
  out : List Byte
  used : Nat
  rest : List Byte
deriving DecidableEq, Repr

/-- The loop of R197: consume bytes until `d` data bytes are emitted, and no byte more (R202). -/
def fillData (mode : InputMode) (f : PacketState) (d : Nat) (input : List Byte) : Filled :=
  match d, input with
  | 0, bs => { packet := f, out := [], used := 0, rest := bs }
  | _ + 1, [] => { packet := f, out := [], used := 0, rest := [] }
  | k + 1, b :: bs =>
    match packetStep mode f b with
    | (f', none) =>
      let r := fillData mode f' (k + 1) bs
      { r with used := r.used + 1 }
    | (f', some o) =>
      let r := fillData mode f' k bs
      { r with out := o :: r.out, used := r.used + 1 }

/-! ### NEED (R203) -/

/-- The count of R203 in HEM: `d` data bytes still to emit, `c` the packet byte counter. -/
def needHem (d c : Nat) : Nat :=
  match d with
  | 0 => 0
  | k + 1 => if c = 0 then 2 + needHem k 2 else 1 + needHem k ((c + 1) % 188)

/-- The data bytes of the next frame: (kbch − 80 − pad) / 8 (R196, R203). -/
def State.dataBytes (s : State) (t : Tables) : Nat := (t.par.kbch - 80 - s.pad) / 8

/-- `NEED()` (R203). -/
def State.need (s : State) (t : Tables) : Nat :=
  match cfgInMode s.cfg0 with
  | .nm => s.dataBytes t
  | .hem => needHem (s.dataBytes t) s.pbc.toNat

/-- QNEED (R90). -/
def execQneed (s : State) : Host.Outcome State Fault Refusal :=
  match s.phase.tables with
  | none => .next (s.rejected 1 .cmdState)
  | some t => .next ((s.pushResp (BitVec.ofNat 32 (s.need t))).retire 1)

/-! ### FRAME (R197) -/

/-- The loop of R197 run on the core's own IN and FrameState. -/
def State.filled (s : State) (t : Tables) : Filled :=
  fillData (cfgInMode s.cfg0) s.packet (s.dataBytes t) s.input

/-- FRAMEBUF with header, in-band field and data field in place, before randomization (R197). -/
def State.frameRaw (s : State) (t : Tables) : Memory :=
  fbWrite (s.writeHeader t) (80 + s.pad) (bytesBits (s.filled t).out)

/-- FRAMEBUF after FRAME: randomized, then BCH-encoded (R197). -/
def State.frameCoded (s : State) (t : Tables) : Memory := bchEncode t (randomize t (s.frameRaw t))

/-- IBC after FRAME (R205): it advances only when in-band signalling is on. -/
def State.nextIbc (s : State) : BitVec 16 :=
  if cfgInband s.cfg0 then BitVec.ofNat 16 ((s.ibc.toNat + 1) % cfgInbandN s.cfg2) else s.ibc

/-- Everything FRAME does once IN holds enough bytes (R197). -/
def State.frameDone (s : State) (t : Tables) : State :=
  let r := s.filled t
  let fb := s.frameCoded t
  { s with
    pbc := r.packet.pbc
    pcrc := r.packet.pcrc
    syncWarn := r.packet.syncWarn
    swcnt := r.packet.swcnt
    ibc := s.nextIbc
    frameBuf := fb
    input := r.rest
    bbOut := s.bbOut ++ fbBits fb 0 t.par.nbch
    lastio := packLastio r.used t.par.nbch }

/-- FRAME (R197). With fewer than NEED bytes in IN it holds (R204): it has consumed and changed nothing, and it still
stands in CMD. -/
def execFrame (s : State) : Host.Outcome State Fault Refusal :=
  match s.phase.tables with
  | none => .next (s.rejected 1 .cmdState)
  | some t => if s.input.length < s.need t then .next s else .next ((s.frameDone t).retire 1)

end Sys2Proof.Machine
end

