-- ==== Sys2Proof/Machine/Dispatch.lean ====
section
/-! DEFINITION. One arm per command, each one call of its meaning. -/

namespace Sys2Proof.Machine

def exec (i : Instr) (s : State) : Host.Outcome State Fault Refusal :=
  match i with
  | .nop => Sys2Proof.Machine.execNop s
  | .reset => Sys2Proof.Machine.execReset s
  | .wrcfg a d => Sys2Proof.Machine.execWrcfg a d s
  | .rdreg a => Sys2Proof.Machine.execRdreg a s
  | .commit => Sys2Proof.Machine.execCommit s
  | .qneed => Sys2Proof.Machine.execQneed s
  | .wrfb w d => Sys2Proof.Machine.execWrfb w d s
  | .rdfb w => Sys2Proof.Machine.execRdfb w s
  | .rdcb j => Sys2Proof.Machine.execRdcb j s
  | .frame => Sys2Proof.Machine.execFrame s
  | .ldpc => Sys2Proof.Machine.execLdpc s
  | .interleave => Sys2Proof.Machine.execInterleave s
  | .map => Sys2Proof.Machine.execMap s
  | .crc8 b => Sys2Proof.Machine.execCrc8 b s
  | .crc8clr => Sys2Proof.Machine.execCrc8clr s
  | .bchenc => Sys2Proof.Machine.execBchenc s
  | .rand => Sys2Proof.Machine.execRand s
  | .bbhdr => Sys2Proof.Machine.execBbhdr s
  | .rdadj k p => Sys2Proof.Machine.execRdadj k p s
  | .rdadjn p => Sys2Proof.Machine.execRdadjn p s

end Sys2Proof.Machine
end

