-- ==== Sys2Proof/Machine/Step.lean ====
section
/-! DEFINITION. One step of the core (40_control.md R77): decode the command at the front of CMD and execute it
atomically, or hold. -/

namespace Sys2Proof.Machine

/-- One step (R77). A hold (R262) is a step that changes nothing: idle, a data word that has not arrived, or a FRAME
short of input (in `execFrame`). A rejected encoding raises `CmdError(CMD_RESERVED)` and consumes its words (R69, R70). -/
def step (s : State) : Host.Outcome State Fault Refusal :=
  match decode s.cmd with
  | .ok i => exec i s
  | .reject _ words => .next (s.rejected words .cmdReserved)
  | .waitCommand => .next s
  | .waitData => .next s

/-- The command whose `nbits` low bits are `w` (the bits above zero), put at the front of CMD, where the next step takes
its command from. -/
def State.withFetchWord (s : State) (nbits w : Nat) : State := { s with cmd := tableWords nbits w ++ s.cmd }

end Sys2Proof.Machine
end

