-- ==== Sys2Proof/Machine/Run.lean ====
section
/-! DEFINITION. Runs (60_exceptions.md R262, R277): where the core waits, what a run is, when it ends, and its result. -/

namespace Sys2Proof.Machine

/-! ### Holds (R262) -/

/-- The three places where the core waits (R262). -/
inductive Hold
  /-- CMD is empty. -/
  | idle
  /-- A 2-word command whose data word has not arrived. -/
  | dataWord
  /-- FRAME with fewer than NEED() bytes in IN. -/
  | input
deriving DecidableEq, Repr

/-- The hold the core is in, if any. -/
def State.hold (s : State) : Option Hold :=
  match decode s.cmd with
  | .waitCommand => some .idle
  | .waitData => some .dataWord
  | .reject _ _ => none
  | .ok i =>
    match i, s.phase.tables with
    | .frame, some t => if s.input.length < s.need t then some .input else none
    | _, _ => none

/-! ### Runs (R277) -/

/-- Everything pushed to the three output streams, in order, drained or not. -/
structure Pushed where
  bb : Bits
  sym : List SymItem
  resp : List Word
deriving DecidableEq, Repr

/-- A run so far: the state it has reached, and everything pushed during it. -/
structure Run where
  state : State
  pushed : Pushed
deriving DecidableEq, Repr

/-- What a run is made of: "core steps and host moves" (R277). -/
inductive RunMove
  | core
  | host (m : HostMove)
deriving DecidableEq, Repr

/-- The host moves that drain an output stream (R262). -/
def RunMove.drains (m : RunMove) : Bool :=
  match m with
  | .core | .host (.command _) | .host (.feed _) => false
  | .host (.drainBb _) | .host (.drainSym _) | .host (.drainResp _) => true

/-- A run begins with power-on reset, "the only event that starts a run" (R280), whatever the state it finds; nothing has
been pushed. Every further power-on reset starts another run. -/
def Run.start (s : State) : Run := { state := s.powerOn, pushed := { bb := [], sym := [], resp := [] } }

/-- What a step pushed: the items that `t` holds behind those of `s`. A step takes nothing out of an output stream. -/
def Pushed.step (s t : State) : Pushed :=
  { bb := t.bbOut.drop s.bbOut.length, sym := t.symOut.drop s.symOut.length, resp := t.resp.drop s.resp.length }

/-- `p`, and then `q`. -/
def Pushed.append (p q : Pushed) : Pushed := { bb := p.bb ++ q.bb, sym := p.sym ++ q.sym, resp := p.resp ++ q.resp }

/-- One more move of a run. A core step records what it pushes; a host move records nothing, and a drain takes nothing out
of the record. No step faults or is refused (`step_answers`); one that did would leave the run where it was. -/
def Run.move (r : Run) (m : RunMove) : Run :=
  match m with
  | .core =>
    match step r.state with
    | .next t => { state := t, pushed := r.pushed.append (Pushed.step r.state t) }
    | .fault _ => r
    | .refused _ => r
  | .host h => { r with state := r.state.host h }

/-- The run of a finite sequence of moves (R277). -/
def Run.moves (r : Run) (ms : List RunMove) : Run := ms.foldl Run.move r

/-- A run whose host makes no further move ends when the core holds idle (R277). One that leaves a FRAME waiting for input,
or a 2-word command for its data word, has not ended. -/
def Run.ended (r : Run) : Prop := r.state.hold = some .idle

/-- The result of a run that has ended: its final state and everything pushed during it (R277). -/
def Run.result (r : Run) : Option (State × Pushed) :=
  if r.state.hold = some .idle then some (r.state, r.pushed) else none

/-- A state that some run reaches. -/
def Reachable (t : State) : Prop := ∃ (s : State) (ms : List RunMove), ((Run.start s).moves ms).state = t

end Sys2Proof.Machine
end

