-- ==== Sys2Proof/Safety.lean ====
section
/-! DEFINITION. The terms claims are stated in: legality by state, the invariant of the core, and the values that the
model's exact numbers and indices stand for. -/

namespace Sys2Proof.Machine

/-! ### Legality by state (40_control.md R79) -/

/-- The table of R79, row by row: is the command legal in STATE? -/
def legalIn (i : Instr) (p : Phase) : Bool :=
  match i with
  | .nop | .rdreg _ => true
  | .reset => !p.isFatal
  | .wrcfg _ _ | .commit => p.isConfiguring
  | .wrfb _ _ | .rdfb _ | .rdcb _ | .crc8 _ | .crc8clr => !p.isFatal
  | .qneed | .frame | .ldpc | .interleave | .map | .bchenc | .rand | .bbhdr | .rdadj _ _ | .rdadjn _ =>
    p.tables.isSome

/-! ### The invariant -/

/-- What holds of the core in every state a run reaches. -/
structure State.Inv (s : State) : Prop where
  /-- FRAMEBUF is canonical and holds nothing beyond its 64800 bits (R39). -/
  frameBuf_wf : s.frameBuf.wf = true ∧ s.frameBuf.within 8100 = true
  /-- CELLBUF is canonical and holds nothing beyond its 32400 cells (R39). -/
  cellBuf_wf : s.cellBuf.wf = true ∧ s.cellBuf.within 32400 = true
  /-- Reserved bits of the configuration registers read 0 (R36). -/
  reserved_zero : s.cfg0 &&& wmaskCfg0 = s.cfg0 ∧ s.cfg1 &&& wmaskCfg1 = s.cfg1 ∧ s.cfg2 &&& wmaskCfg2 = s.cfg2 ∧
    s.cfg3 &&& wmaskCfg3 = s.cfg3
  /-- PBC is in 0 to 187 (R38). -/
  pbc_range : s.pbc.toNat < 188
  /-- FrameState, the warning state and LASTIO leave their reset values only in READY: only FRAME writes them. -/
  fresh_outside_ready : s.phase.tables = none →
    s.pbc = 0 ∧ s.pcrc = 0 ∧ s.ibc = 0 ∧ s.lastio = 0 ∧ s.syncWarn = false ∧ s.swcnt = 0
  /-- In READY the tables are those COMMIT builds from the configuration registers as they stand (R37, R79). -/
  tables_committed : ∀ t, s.phase.tables = some t → commitTables Config.params s.cfg0 s.cfg2 = .ok t
  /-- IBC is in 0 to INBAND_N − 1 when in-band signalling is on, and 0 when it is off (R38, R205). -/
  ibc_range : if cfgInband s.cfg0 ∧ s.phase.tables.isSome then s.ibc.toNat < cfgInbandN s.cfg2 else s.ibc = 0
  /-- SYNCWARN records that SWCNT has counted something (R269). -/
  warn_counted : s.syncWarn = true ↔ s.swcnt ≠ 0
  /-- In HEM nothing writes PCRC and no warning is raised (R199). -/
  hem_silent : cfgInMode s.cfg0 = .hem → s.pcrc = 0 ∧ s.swcnt = 0
  /-- LASTIO is 0 or its LAST_OUT is nbch (R34). -/
  last_out : ∀ t, s.phase.tables = some t → s.lastio = 0 ∨ s.lastio.toNat / 65536 = t.par.nbch
  /-- In FATAL, ERRCODE is the Fatal's code (R264, R268). -/
  fatal_code : s.phase = .fatal → s.errCode = .fatalLdpcTable ∨ s.errCode = .fatalLdpcCap
  /-- A CmdError code in ERRCODE means that CMDERR is set (R266). -/
  cmd_code : 6 ≤ s.errCode.code → s.cmdErr = true

/-! ### The values that exact numbers stand for (48_mapper.md R241) -/

/-- The real number an `ExactReal` stands for. -/
noncomputable def ExactReal.value (x : ExactReal) : ℝ :=
  (x.cosCoef * Real.cos (x.nanoDeg / 1000000000 * (Real.pi / 180)) +
    x.sinCoef * Real.sin (x.nanoDeg / 1000000000 * (Real.pi / 180))) / Real.sqrt x.energy

/-- The energy |z|² of a symbol. -/
noncomputable def ExactComplex.energy (z : ExactComplex) : ℝ :=
  ExactReal.value z.re ^ 2 + ExactReal.value z.im ^ 2

/-- The complex number an `ExactComplex` stands for. -/
noncomputable def ExactComplex.value (z : ExactComplex) : ℂ := ⟨ExactReal.value z.re, ExactReal.value z.im⟩

/-- Φ in radians (R244). -/
noncomputable def rotationAngle (m : Modulation) : ℝ := rotationNanoDeg m / 1000000000 * (Real.pi / 180)

/-- The amplitudes of R242 in the order of their labels, a label being the k = m/2 bits as a number, sign bit first. -/
def levelTable (m : Modulation) : List Int :=
  match m with
  | .qpsk => [1, -1]
  | .qam16 => [3, 1, -3, -1]
  | .qam64 => [7, 5, 1, 3, -7, -5, -1, -3]
  | .qam256 => [15, 13, 9, 11, 1, 3, 7, 5, -15, -13, -9, -11, -1, -3, -7, -5]

/-- The label that cell value `v` carries in its bits y_o, y_{o+2}, …: the real part's with o = 0, the imaginary part's
with o = 1 (R242). y_j is bit m − 1 − j of `v`. -/
def cellLabel (m : Modulation) (v o : Nat) : Nat :=
  let k := modBits m / 2
  ((List.range k).map fun t => v / 2 ^ (modBits m - 1 - (2 * t + o)) % 2 * 2 ^ (k - 1 - t)).sum

/-! ### The interleaver's map (47_interleaver.md R229) -/

/-- The cell and the cell bit (0 = MSB) that frame bit `i` goes to, without the regroup (R229). -/
def ilvPlace (m nc nr : Nat) (tw mx : List Nat) (i : Nat) : Nat × Nat :=
  let c := i / nr
  let r := (i % nr + tw.getD c 0) % nr
  let d := mx.getD c 0
  (r * (nc / m) + d / m, d % m)

/-! ### Data bytes of a frame (46_pipeline.md R198, R201) -/

/-- PCRC in NM when a frame that began at packet byte `pbc` has consumed `k` bytes of `input`: the CRC-8 of the payload
bytes since the last sync byte. `n` counts them; where that sync byte lies before the frame, the frame's bytes go on from
the PCRC it began with. -/
def slotCrc (pcrc : Byte) (pbc : Nat) (input : List Byte) (k : Nat) : Byte :=
  let n := (pbc + k + 187) % 188
  if n < k then crc8 ((input.drop (k - n)).take n) else (input.take k).foldl crc8Byte pcrc

end Sys2Proof.Machine
end

