-- ==== Sys2Proof/Certificates/Slice0/Obligations.lean ====
section
/-! DEFINITION. The statements for the provers, from the numbered rules of spec/. Where a statement says `t = { s with … }`
it says that every piece of state not named is unchanged. -/

open Sys2Proof
open Sys2Proof.Machine

/-! ### Resets and the invariant -/

/-- R280: power-on reset from any state, FATAL included, gives every piece of state the value the rule lists, keeps what the
host has queued in CMD and IN, and starts with BB_OUT, SYM_OUT and RESP empty. That items not yet drained go, because they
belong to the run before, is the model's reading of R43 and R280 together (notes/assumptions/10.md). -/
def Obligations.PowerOnSetsEveryRegisterAndBuffer : Prop :=
  ∀ s : State,
    s.powerOn = { State.reset with cmd := s.cmd, input := s.input } ∧
    s.powerOn.bbOut = [] ∧ s.powerOn.symOut = [] ∧ s.powerOn.resp = [] ∧
    s.powerOn.phase = .unconfigured ∧ s.powerOn.phase.tables = none ∧
    s.powerOn.cfg0 = 0x00000004 ∧ s.powerOn.cfg1 = 0 ∧ s.powerOn.cfg2 = 0x00000001 ∧ s.powerOn.cfg3 = 0 ∧
    s.powerOn.status = 0 ∧ s.powerOn.pbc = 0 ∧ s.powerOn.pcrc = 0 ∧ s.powerOn.ibc = 0 ∧ s.powerOn.crct = 0 ∧
    s.powerOn.lastio = 0 ∧ (∀ i, fbBit s.powerOn.frameBuf i = false) ∧ (∀ j, s.powerOn.cellBuf.read j = 0)

/-- R78, R281: RESET applies StreamReset in every state but FATAL, where it raises CMD_STATE; CFG0 to CFG3, the buffers and
the other streams keep their values. -/
def Obligations.ResetCommandAppliesStreamReset : Prop :=
  ∀ s : State,
    (s.phase ≠ .fatal →
      exec .reset s = .next { s with
        phase := .unconfigured, cmdErr := false, syncWarn := false, errCode := .none, swcnt := 0, pbc := 0, pcrc := 0,
        ibc := 0, crct := 0, lastio := 0, cmd := s.cmd.drop 1 }) ∧
    (s.phase = .fatal → exec .reset s = .next { s with cmdErr := true, cmd := s.cmd.drop 1 })

/-- The invariant holds after power-on reset. -/
def Obligations.InvHoldsAtReset : Prop := State.reset.Inv

/-- Every step of the core keeps the invariant: canonical buffers within their size, reserved bits zero, PBC and IBC in
range, the derived tables those of the configuration, FATAL's code kept. -/
def Obligations.StepKeepsInv : Prop := ∀ s t : State, s.Inv → step s = .next t → t.Inv

/-- Every host move, and power-on reset, keeps the invariant; and each host move does to the stream it names what R262 says:
words are appended to CMD, bytes to IN, and items are removed from the front of one output stream. It changes nothing
else. -/
def Obligations.HostMovesAndPowerOnKeepInv : Prop :=
  (∀ (s : State) (m : HostMove), s.Inv → (s.host m).Inv) ∧ (∀ s : State, s.powerOn.Inv) ∧
  ∀ s : State,
    (∀ ws, s.host (.command ws) = { s with cmd := s.cmd ++ ws }) ∧
    (∀ bs, s.host (.feed bs) = { s with input := s.input ++ bs }) ∧
    (∀ n, s.host (.drainBb n) = { s with bbOut := s.bbOut.drop n }) ∧
    (∀ n, s.host (.drainSym n) = { s with symOut := s.symOut.drop n }) ∧
    ∀ n, s.host (.drainResp n) = { s with resp := s.resp.drop n }

/-! ### Decoding and the step -/

/-- R77: when the words at the front of CMD decode to a command, the step is that command's execution. Nothing is added
around it: the command itself takes its words from CMD. -/
def Obligations.StepRunsTheDecodedCommand : Prop :=
  ∀ (s : State) (i : Instr), decode s.cmd = .ok i → step s = exec i s

/-- R66: the length is decided by OPC alone: 2 words for 0x02 and 0x06, 1 word for every other value, reserved values
included. A 2-word command whose data word has not arrived holds; every other command that does not hold consumes its
length, rejected or not. That a hold is a step that changes nothing is the model's own form (notes/assumptions/1.md), and
so is the moment at which the words leave CMD (notes/assumptions/2.md). -/
def Obligations.CommandLengthIsDecidedByOpcode : Prop :=
  ∀ (s : State) (w : Word) (rest : List Word), s.cmd = w :: rest →
    let two := fieldOpc w = 0x02 ∨ fieldOpc w = 0x06
    (two ∧ rest = [] → step s = .next s) ∧
    (two ∧ rest ≠ [] → ∃ t, step s = .next t ∧ t.cmd = rest.drop 1) ∧
    (¬ two ∧ s.hold = none → ∃ t, step s = .next t ∧ t.cmd = rest)

/-- R69: a reserved opcode raises CmdError(CMD_RESERVED), consumes 1 word and has no other effect. -/
def Obligations.ReservedOpcodeRaisesCmdReserved : Prop :=
  ∀ (s : State) (w : Word) (rest : List Word), s.cmd = w :: rest →
    (0x09 ≤ fieldOpc w ∧ fieldOpc w ≤ 0x0F ∨ 0x14 ≤ fieldOpc w ∧ fieldOpc w ≤ 0x1F ∨ 0x27 ≤ fieldOpc w) →
    step s = .next { s with
      cmdErr := true, errCode := if s.phase = .fatal then s.errCode else .cmdReserved, cmd := rest }

/-- R70: a defined opcode with a non-zero unused field raises CmdError(CMD_RESERVED), consumes its full length and has no
other effect. -/
def Obligations.NonzeroUnusedFieldRaisesCmdReserved : Prop :=
  ∀ (s : State) (w : Word) (rest : List Word), s.cmd = w :: rest →
    ((fieldOpc w ∈ [0x00, 0x01, 0x04, 0x05, 0x10, 0x11, 0x12, 0x13, 0x21, 0x22, 0x23, 0x24] ∧
        (fieldA w ≠ 0 ∨ fieldB w ≠ 0)) ∨
      (fieldOpc w = 0x03 ∧ fieldB w ≠ 0) ∨
      (fieldOpc w ∈ [0x07, 0x08, 0x26] ∧ fieldA w ≠ 0) ∨
      (fieldOpc w = 0x20 ∧ (fieldA w ≠ 0 ∨ 256 ≤ fieldB w)) →
      step s = .next { s with
        cmdErr := true, errCode := if s.phase = .fatal then s.errCode else .cmdReserved, cmd := rest }) ∧
    ((fieldOpc w = 0x02 ∧ fieldB w ≠ 0 ∨ fieldOpc w = 0x06 ∧ fieldA w ≠ 0) ∧ rest ≠ [] →
      step s = .next { s with
        cmdErr := true, errCode := if s.phase = .fatal then s.errCode else .cmdReserved, cmd := rest.drop 1 })

/-- The decoder and spec/opcode_table.json agree on every word: a word (with a data word behind it) decodes to a command
of mnemonic `n` exactly when the table has a row of that mnemonic whose mask and value accept it. -/
def Obligations.DecoderAgreesWithOpcodeTable : Prop :=
  ∀ (w d : Word) (n : String),
    (∃ i, decode [w, d] = .ok i ∧ i.mnemonic = n) ↔ ∃ r ∈ opcodeTable, r.mnemonic = n ∧ r.accepts w = true

/-- Decoding the encoding of any well-formed command gives it back, every operand at every value, whatever follows it in
CMD. -/
def Obligations.DecodeOfEncodeIsIdentity : Prop :=
  ∀ (i : Instr) (rest : List Word), i.wellFormed = true → decode (encode i ++ rest) = .ok i

/-- Whatever decodes is well-formed, and its encoding is exactly the words at the front of CMD. -/
def Obligations.DecodedWordsAreTheEncoding : Prop :=
  ∀ (ws : List Word) (i : Instr), decode ws = .ok i → i.wellFormed = true ∧ ∃ rest, ws = encode i ++ rest

/-- R76: the host program `SETUP 0x4, 0, 1, 0` followed by `ENCODE` is the word sequence the rule lists. -/
def Obligations.SetupEncodeProgramIsItsWordSequence : Prop :=
  assemble (pseudoSetup 0x4 0 1 0 ++ pseudoEncode) =
    [0x02000000, 0x00000004, 0x02010000, 0x00000000, 0x02020000, 0x00000001, 0x02030000, 0x00000000, 0x04000000,
      0x10000000, 0x11000000, 0x12000000, 0x13000000]

/-- Words of R74, R73 and the decoder vectors decode to the commands they stand for. -/
def Obligations.SampleWordsDecode : Prop :=
  decode [0x02000000, 0x00000004] = .ok (.wrcfg 0 4) ∧ decode [0x03100000] = .ok (.rdreg 0x10) ∧
    decode [0x20000047] = .ok (.crc8 0x47) ∧ decode [0x25000011] = .ok (.rdadj 0 17) ∧
    decode [0x25FF0000] = .ok (.rdadj 255 0) ∧ decode [0x060000DB, 0x00000100] = .ok (.wrfb 219 0x100) ∧
    decode [0x06010000, 0x00000000] = .reject .unusedField 2 ∧ decode [0x09000000] = .reject .reservedOpcode 1

/-- The core waits exactly in the three holds of R262: the step leaves the state as it is exactly then. A drain lifts no
hold. (That a hold is a step that changes nothing is the model's own form, notes/assumptions/1.md.) -/
def Obligations.StepChangesNothingExactlyInAHold : Prop :=
  ∀ s : State, (step s = .next s ↔ s.hold ≠ none) ∧
    ∀ n, (s.host (.drainBb n)).hold = s.hold ∧ (s.host (.drainSym n)).hold = s.hold ∧
      (s.host (.drainResp n)).hold = s.hold

/-! ### Whole-machine rules -/

/-- R79: a command issued in a state where the table says no raises CmdError(CMD_STATE) and does nothing else; its words are
consumed. -/
def Obligations.CommandIllegalInStateRaisesCmdState : Prop :=
  ∀ (i : Instr) (s : State), legalIn i s.phase = false →
    exec i s = .next { s with
      cmdErr := true, errCode := if s.phase = .fatal then s.errCode else .cmdState, cmd := s.cmd.drop i.words }

/-- R268: in FATAL only NOP and RDREG run; whatever command comes, STATE stays FATAL, ERRCODE keeps the Fatal's code, and
nothing but CMDERR, RESP and CMD changes. -/
def Obligations.NoStepLeavesFatal : Prop :=
  ∀ s t : State, s.phase = .fatal → step s = .next t →
    t = { s with cmdErr := t.cmdErr, resp := t.resp, cmd := t.cmd }

/-- In READY no command changes the configuration registers, and the derived tables stay until RESET (R79, R37). -/
def Obligations.ReadyKeepsConfigurationAndTables : Prop :=
  ∀ (s t : State) (tb : Tables) (i : Instr), s.phase = .ready tb → exec i s = .next t →
    t.cfg0 = s.cfg0 ∧ t.cfg1 = s.cfg1 ∧ t.cfg2 = s.cfg2 ∧ t.cfg3 = s.cfg3 ∧
      (i ≠ .reset → t.phase = .ready tb) ∧ (i = .reset → t.phase = .unconfigured)

/-- Who writes what: FrameState, LASTIO, the warning state and IN by FRAME and RESET alone (IN by FRAME alone), CRCT by CRC8,
CRC8CLR and RESET alone, FRAMEBUF by WRFB, FRAME, LDPC, BCHENC, RAND and BBHDR alone, CELLBUF by INTERLEAVE alone, STATE by
COMMIT and RESET alone, CFG0 to CFG3 by WRCFG alone (R33, R38, R50, R79). -/
def Obligations.EachPieceOfStateHasItsWriters : Prop :=
  ∀ (i : Instr) (s t : State), exec i s = .next t →
    (i ≠ .frame → i ≠ .reset → t.pbc = s.pbc ∧ t.pcrc = s.pcrc ∧ t.ibc = s.ibc ∧ t.lastio = s.lastio ∧
      t.syncWarn = s.syncWarn ∧ t.swcnt = s.swcnt) ∧
    (i ≠ .frame → t.input = s.input) ∧
    ((∀ b, i ≠ .crc8 b) → i ≠ .crc8clr → i ≠ .reset → t.crct = s.crct) ∧
    ((∀ w d, i ≠ .wrfb w d) → i ≠ .frame → i ≠ .ldpc → i ≠ .bchenc → i ≠ .rand → i ≠ .bbhdr →
      t.frameBuf = s.frameBuf) ∧
    (i ≠ .interleave → t.cellBuf = s.cellBuf) ∧
    (i ≠ .commit → i ≠ .reset → t.phase = s.phase) ∧
    ((∀ a d, i ≠ .wrcfg a d) → t.cfg0 = s.cfg0 ∧ t.cfg1 = s.cfg1 ∧ t.cfg2 = s.cfg2 ∧ t.cfg3 = s.cfg3)

/-- Output streams only grow, at their end; BB_OUT by FRAME alone, SYM_OUT by MAP alone, RESP by at most one word, from the
commands R40 names. So R277's "everything pushed ... during the run, in order" is what the streams would hold had the host
drained nothing, whatever it drained; draining changes nothing else; what is not drained stands at the end of it; and a run
has its final state and all that was pushed as its result exactly when CMD is empty, and else no result. -/
def Obligations.OutputStreamsOnlyGrow : Prop :=
  (∀ (i : Instr) (s t : State), exec i s = .next t →
    (∃ b, t.bbOut = s.bbOut ++ b) ∧ (i ≠ .frame → t.bbOut = s.bbOut) ∧
    (∃ y, t.symOut = s.symOut ++ y) ∧ (i ≠ .map → t.symOut = s.symOut) ∧
    (t.resp = s.resp ∨ ∃ v, t.resp = s.resp ++ [v]) ∧
    (i.mnemonic ∉ ["RDREG", "RDFB", "RDCB", "QNEED", "RDADJ", "RDADJN"] → t.resp = s.resp)) ∧
  ∀ (s : State) (ms : List RunMove),
    let r := (Run.start s).moves ms
    let undrained := ((Run.start s).moves (ms.filter fun m => !m.drains)).state
    r.pushed = { bb := undrained.bbOut, sym := undrained.symOut, resp := undrained.resp } ∧
    r.state = { undrained with bbOut := r.state.bbOut, symOut := r.state.symOut, resp := r.state.resp } ∧
    r.state.bbOut <:+ r.pushed.bb ∧ r.state.symOut <:+ r.pushed.sym ∧ r.state.resp <:+ r.pushed.resp ∧
    (r.state.cmd = [] → r.result = some (r.state, r.pushed)) ∧ (r.state.cmd ≠ [] → r.result = none)

/-- CMDERR and SYNCWARN are sticky and SWCNT never falls: only RESET clears them (R29). -/
def Obligations.ErrorFlagsAreSticky : Prop :=
  ∀ (i : Instr) (s t : State), exec i s = .next t → i ≠ .reset →
    (s.cmdErr = true → t.cmdErr = true) ∧ (s.syncWarn = true → t.syncWarn = true) ∧ s.swcnt.toNat ≤ t.swcnt.toNat

/-! ### Control commands and registers -/

/-- R82: NOP leaves all state unchanged in every state; its own word leaves CMD. -/
def Obligations.NopChangesNothing : Prop :=
  ∀ s : State, exec .nop s = .next { s with cmd := s.cmd.drop 1 }

/-- R80, R36: in UNCONFIGURED and CFG_ERROR, WRCFG stores D & WMASK in the register named; an index that names no writable
register raises CMD_REG; in READY and FATAL it raises CMD_STATE. -/
def Obligations.WrcfgStoresTheMaskedWord : Prop :=
  ∀ (s : State) (d : Word),
    (s.phase = .unconfigured ∨ s.phase = .cfgError →
      exec (.wrcfg 0x00 d) s = .next { s with cfg0 := d &&& 0x000003FF, cmd := s.cmd.drop 2 } ∧
      exec (.wrcfg 0x01 d) s = .next { s with cfg1 := d &&& 0x07FFFFFF, cmd := s.cmd.drop 2 } ∧
      exec (.wrcfg 0x02 d) s = .next { s with cfg2 := d &&& 0x0000FFFF, cmd := s.cmd.drop 2 } ∧
      exec (.wrcfg 0x03 d) s = .next { s with cfg3 := d &&& 0x0000FFFF, cmd := s.cmd.drop 2 } ∧
      ∀ a, 3 < a → exec (.wrcfg a d) s = .next { s with cmdErr := true, errCode := .cmdReg, cmd := s.cmd.drop 2 }) ∧
    (∀ a tb, s.phase = .ready tb →
      exec (.wrcfg a d) s = .next { s with cmdErr := true, errCode := .cmdState, cmd := s.cmd.drop 2 }) ∧
    (∀ a, s.phase = .fatal → exec (.wrcfg a d) s = .next { s with cmdErr := true, cmd := s.cmd.drop 2 })

/-- R81: in every state RDREG pushes the register the index names, by the map of R24; a reserved index raises CMD_REG and
pushes nothing. -/
def Obligations.RdregPushesTheRegister : Prop :=
  ∀ s : State,
    (∀ p ∈ [(0x00, s.cfg0), (0x01, s.cfg1), (0x02, s.cfg2), (0x03, s.cfg3), (0x10, s.status), (0x11, s.fstate),
        (0x12, s.param0), (0x13, s.param1), (0x14, BitVec.ofNat 32 s.crct.toNat), (0x15, s.lastio)],
      exec (.rdreg p.1) s = .next { s with resp := s.resp ++ [p.2], cmd := s.cmd.drop 1 }) ∧
    ∀ a, (3 < a ∧ a < 0x10 ∨ 0x15 < a) →
      exec (.rdreg a) s = .next { s with
        cmdErr := true, errCode := if s.phase = .fatal then s.errCode else .cmdReg, cmd := s.cmd.drop 1 }

/-- R29, R261: the fields of STATUS, each at its bits; bits [15:8] read 0; the codes of STATE, and the codes 0 to 10 of
ERRCODE. -/
def Obligations.StatusShowsItsFields : Prop :=
  (Phase.unconfigured.code = 0 ∧ (∀ t, (Phase.ready t).code = 1) ∧ Phase.cfgError.code = 2 ∧ Phase.fatal.code = 3) ∧
  [ErrCode.none, .cfgRate, .cfgInbandN, .cfgIlvTable, .fatalLdpcTable, .fatalLdpcCap, .cmdState, .cmdReserved, .cmdReg,
    .cmdIndex, .cmdUnavailable].map ErrCode.code = List.range 11 ∧
  ∀ s : State,
    s.status.toNat % 4 = s.phase.code ∧ s.status.getLsbD 2 = s.cmdErr ∧ s.status.getLsbD 3 = s.syncWarn ∧
    s.status.toNat / 16 % 16 = s.errCode.code ∧ s.status.toNat / 256 % 256 = 0 ∧
    s.status.toNat / 65536 = s.swcnt.toNat

/-- R30, R31, R32: the fields of FSTATE, and of PARAM0 and PARAM1 while READY with a row of the Parameter Table; PARAM0 and
PARAM1 read 0 in every other state. -/
def Obligations.FstateAndParamShowTheirFields : Prop :=
  ∀ s : State,
    (s.fstate.toNat % 256 = s.pbc.toNat ∧ s.fstate.toNat / 256 % 256 = s.pcrc.toNat ∧
      s.fstate.toNat / 65536 = s.ibc.toNat) ∧
    (∀ t fs rate, s.phase = .ready t → codeParams fs rate = some t.par →
      s.param0.toNat % 65536 = t.par.kbch ∧ s.param0.toNat / 65536 = t.par.nbch ∧
      s.param1.toNat % 256 = t.par.pbch ∧ s.param1.toNat / 256 % 256 = t.par.q ∧
      s.param1.toNat / 65536 = t.par.n) ∧
    ((∀ t, s.phase ≠ .ready t) → s.param0 = 0 ∧ s.param1 = 0)

/-- R84, R85, R267: the first check. A RATE code above 7, or a pair that is no row of the Parameter Table, is CFG_RATE,
whatever else is wrong; the second check, INBAND = 1 with INBAND_N = 0, is CFG_INBAND_N, whatever the tables. The fields of
CFG0 to CFG3 that COMMIT and the frame commands read stand at the bits and have the codes of R25 to R28. -/
def Obligations.CommitRejectsUndefinedConfigurations : Prop :=
  (∀ w : Word, let v := w.toNat
    cfgFs w = (if v % 2 = 0 then .normal else .short) ∧
    cfgRate w = [CodeRate.r1_3, .r2_5, .r1_2, .r3_5, .r2_3, .r3_4, .r4_5, .r5_6][v / 2 % 16]? ∧
    some (cfgMod w) = [Modulation.qpsk, .qam16, .qam64, .qam256][v / 32 % 4]? ∧
    cfgRot w = decide (v / 128 % 2 = 1) ∧ cfgInMode w = (if v / 256 % 2 = 0 then .nm else .hem) ∧
    cfgInband w = decide (v / 512 % 2 = 1) ∧ cfgTsRate w = v % 2 ^ 27 ∧ cfgInbandN w = v % 65536 ∧
    cfgMatype w = v % 65536) ∧
  ∀ s : State, s.phase = .unconfigured ∨ s.phase = .cfgError →
    (cfgRate s.cfg0 = none ∨ (∃ r, cfgRate s.cfg0 = some r ∧ codeParams (cfgFs s.cfg0) r = none) →
      exec .commit s = .next { s with phase := .cfgError, errCode := .cfgRate, cmd := s.cmd.drop 1 }) ∧
    (∀ r c, cfgRate s.cfg0 = some r → codeParams (cfgFs s.cfg0) r = some c → cfgInband s.cfg0 = true →
      cfgInbandN s.cfg2 = 0 →
      exec .commit s = .next { s with phase := .cfgError, errCode := .cfgInbandN, cmd := s.cmd.drop 1 })

/-- R84: once the rate and in-band checks pass, COMMIT goes on in this order. The interleaver tables (R221, not for QPSK):
unless both are present with Nc entries each, every offset below Nr and MX a permutation of [0, Nc), CFG_ILV_TABLE. The
LDPC base table (R146, R148, R263): ABSENT in COMPUTED mode, or present with a row count other than nbch / 360 or a seed at
or above nldpcp = N − nbch, FATAL_LDPC_TABLE. Its size (R149): 360 times the number of seeds above P_LDPC_CAP,
FATAL_LDPC_CAP; a total equal to the capacity passes. Else READY with the Parameter Table row, BCHG, BCHT, RSEQ, the
expanded base table as LDPCADJ (ABSENT where it is ABSENT), TW and MX (not for QPSK) and CONST, and ERRCODE 0. Nothing else
changes. This holds for every choice `p` of the OPEN parameters, and COMMIT is that function at the model's own. -/
def Obligations.CommitBuildsTheTables : Prop :=
  ∀ (s : State) (r : CodeRate) (c : CodeParams) (p : Params), s.phase = .unconfigured ∨ s.phase = .cfgError →
    cfgRate s.cfg0 = some r → codeParams (cfgFs s.cfg0) r = some c →
    (cfgInband s.cfg0 = true → cfgInbandN s.cfg2 ≠ 0) →
    let fs := cfgFs s.cfg0
    let m := cfgMod s.cfg0
    let geometry : Nat × Nat :=
      match fs, m with
      | .normal, .qam16 => (8, 8100)
      | .normal, .qam64 => (12, 5400)
      | .normal, .qam256 => (16, 4050)
      | .short, .qam16 => (8, 2025)
      | .short, .qam64 => (12, 1350)
      | .short, .qam256 => (8, 2025)
      | .normal, .qpsk => (0, 0)
      | .short, .qpsk => (0, 0)
    let nc := geometry.1
    let nr := geometry.2
    let ilvAccepted := m = .qpsk ∨ ∃ tw mx, p.twist fs m r = some tw ∧ p.mux fs m r = some mx ∧
      tw.length = nc ∧ mx.length = nc ∧ (∀ x ∈ tw, x < nr) ∧ mx.Perm (List.range nc)
    let base := p.ldpcBase fs r
    let baseCorrupted := (base = none ∧ p.ldpcMode = .computed) ∨
      ∃ b, base = some b ∧ (b.length ≠ c.nbch / 360 ∨ ∃ row ∈ b, ∃ x ∈ row, c.n - c.nbch ≤ x)
    let overCapacity := ∃ b, base = some b ∧ p.ldpcCap < 360 * (b.map List.length).sum
    exec .commit s = .next { s.committed Config.params with cmd := s.cmd.drop 1 } ∧
    (m ≠ .qpsk → ilvColumns fs m = nc ∧ c.n / nc = nr) ∧
    (¬ ilvAccepted → s.committed p = { s with phase := .cfgError, errCode := .cfgIlvTable }) ∧
    (ilvAccepted → baseCorrupted → s.committed p = { s with phase := .fatal, errCode := .fatalLdpcTable }) ∧
    (ilvAccepted → ¬ baseCorrupted → overCapacity →
      s.committed p = { s with phase := .fatal, errCode := .fatalLdpcCap }) ∧
    (ilvAccepted → ¬ baseCorrupted → ¬ overCapacity →
      s.committed p = { s with
        phase := .ready {
          par := c
          bchg := buildBchGenerator c.variant
          bcht := buildBchTable (buildBchGenerator c.variant) c.pbch
          rseq := buildRandSeq
          adj := base.map (adjLists c)
          tw := if m = .qpsk then [] else (p.twist fs m r).getD []
          mx := if m = .qpsk then [] else (p.mux fs m r).getD []
          points := buildConst m (cfgRot s.cfg0) }
        errCode := .none })

/-- R95, R96: in every row of the Parameter Table q = nldpcp / 360, kbch, kbch − 80 and kbch − 184 are multiples of 8, and
nbch is a multiple of 360; and (R91) nbch − kbch = pbch and N − nbch > 0. The rows are those of R93 (kbch, nbch, pbch,
variant, q, N for each class and rate), and no others (R92). -/
def Obligations.ParameterTableInvariants : Prop :=
  [CodeRate.r1_3, .r2_5, .r1_2, .r3_5, .r2_3, .r3_4, .r4_5, .r5_6].map (codeParams .normal) =
    [none, none, some ⟨32208, 32400, 192, .n12, 90, 64800⟩, some ⟨38688, 38880, 192, .n12, 72, 64800⟩,
      some ⟨43040, 43200, 160, .n10, 60, 64800⟩, some ⟨48408, 48600, 192, .n12, 45, 64800⟩,
      some ⟨51648, 51840, 192, .n12, 36, 64800⟩, some ⟨53840, 54000, 160, .n10, 30, 64800⟩] ∧
  [CodeRate.r1_3, .r2_5, .r1_2, .r3_5, .r2_3, .r3_4, .r4_5, .r5_6].map (codeParams .short) =
    [some ⟨5232, 5400, 168, .s12, 30, 16200⟩, some ⟨6312, 6480, 168, .s12, 27, 16200⟩,
      some ⟨7032, 7200, 168, .s12, 25, 16200⟩, some ⟨9552, 9720, 168, .s12, 18, 16200⟩,
      some ⟨10632, 10800, 168, .s12, 15, 16200⟩, some ⟨11712, 11880, 168, .s12, 12, 16200⟩,
      some ⟨12432, 12600, 168, .s12, 10, 16200⟩, some ⟨13152, 13320, 168, .s12, 8, 16200⟩] ∧
  ∀ (fs : FrameSize) (r : CodeRate) (c : CodeParams), codeParams fs r = some c →
    c.nbch - c.kbch = c.pbch ∧ 0 < c.n - c.nbch ∧ c.n = frameBitsOf fs ∧ c.n - c.nbch = 360 * c.q ∧
    c.kbch % 8 = 0 ∧ (c.kbch - 80) % 8 = 0 ∧ (c.kbch - 184) % 8 = 0 ∧ c.nbch % 360 = 0

/-- R87, R51: WRFB writes bit 31 − k of the word to FB[32w + k] and no other bit; a word index above 2024 raises CMD_INDEX;
in FATAL it raises CMD_STATE. -/
def Obligations.WrfbWritesOneFramebufWord : Prop :=
  ∀ (s : State) (w : Nat) (d : Word),
    (s.phase ≠ .fatal → w ≤ 2024 → ∃ t, exec (.wrfb w d) s = .next t ∧
      t = { s with frameBuf := t.frameBuf, cmd := s.cmd.drop 2 } ∧
      (∀ k < 32, fbBit t.frameBuf (32 * w + k) = d.getLsbD (31 - k)) ∧
      ∀ i, i < 32 * w ∨ 32 * w + 32 ≤ i → fbBit t.frameBuf i = fbBit s.frameBuf i) ∧
    (s.phase ≠ .fatal → 2024 < w →
      exec (.wrfb w d) s = .next { s with cmdErr := true, errCode := .cmdIndex, cmd := s.cmd.drop 2 }) ∧
    (s.phase = .fatal → exec (.wrfb w d) s = .next { s with cmdErr := true, cmd := s.cmd.drop 2 })

/-- R88: RDFB pushes the word whose bit 31 − k is FB[32w + k] and changes nothing else; a word index above 2024 raises
CMD_INDEX and pushes nothing; in FATAL it raises CMD_STATE. -/
def Obligations.RdfbPushesOneFramebufWord : Prop :=
  ∀ (s : State) (w : Nat),
    (s.phase ≠ .fatal → w ≤ 2024 → ∃ v : Word, (∀ k < 32, v.getLsbD (31 - k) = fbBit s.frameBuf (32 * w + k)) ∧
      exec (.rdfb w) s = .next { s with resp := s.resp ++ [v], cmd := s.cmd.drop 1 }) ∧
    (s.phase ≠ .fatal → 2024 < w →
      exec (.rdfb w) s = .next { s with cmdErr := true, errCode := .cmdIndex, cmd := s.cmd.drop 1 }) ∧
    (s.phase = .fatal → exec (.rdfb w) s = .next { s with cmdErr := true, cmd := s.cmd.drop 1 })

/-- R89: RDCB pushes the cell zero-extended and changes nothing else; a cell index above 32399 raises CMD_INDEX and pushes
nothing; in FATAL it raises CMD_STATE. -/
def Obligations.RdcbPushesOneCell : Prop :=
  ∀ (s : State) (j : Nat),
    (s.phase ≠ .fatal → j ≤ 32399 →
      exec (.rdcb j) s = .next { s with
        resp := s.resp ++ [BitVec.ofNat 32 (s.cellBuf.read j).toNat], cmd := s.cmd.drop 1 }) ∧
    (s.phase ≠ .fatal → 32399 < j →
      exec (.rdcb j) s = .next { s with cmdErr := true, errCode := .cmdIndex, cmd := s.cmd.drop 1 }) ∧
    (s.phase = .fatal → exec (.rdcb j) s = .next { s with cmdErr := true, cmd := s.cmd.drop 1 })

/-- QNEED in READY pushes NEED() and changes nothing else (R90); in NM that is (kbch − 80 − pad) / 8, in HEM the number of
bytes that holds D payload bytes from the current packet position on (R203, in closed form). -/
def Obligations.QneedPushesNeed : Prop :=
  ∀ (s : State) (t : Tables), s.phase = .ready t → ∃ n,
    exec .qneed s = .next { s with resp := s.resp ++ [BitVec.ofNat 32 n], cmd := s.cmd.drop 1 } ∧
    (let d := (t.par.kbch - 80 - (if cfgInband s.cfg0 = true ∧ s.ibc = 0 then 104 else 0)) / 8
     (cfgInMode s.cfg0 = .nm → n = d) ∧
     (cfgInMode s.cfg0 = .hem → s.pbc.toNat < 188 →
       ((List.range n).filter fun k => decide ((s.pbc.toNat + k) % 188 ≠ 0)).length = d ∧
       (0 < n → (s.pbc.toNat + (n - 1)) % 188 ≠ 0)))

/-! ### CRC-8 engine -/

/-- R114, R115: outside FATAL, CRC8 sets CRCT to CRC8T[CRCT ^ b] and CRC8CLR to 0; nothing else changes. In FATAL each
raises CMD_STATE. -/
def Obligations.CrcCommandsDriveCrct : Prop :=
  ∀ (s : State) (b : Byte),
    (s.phase ≠ .fatal →
      exec (.crc8 b) s = .next { s with
        crct := crc8Table.getD (s.crct ^^^ b).toNat 0, cmd := s.cmd.drop 1 } ∧
      exec .crc8clr s = .next { s with crct := 0, cmd := s.cmd.drop 1 }) ∧
    (s.phase = .fatal →
      exec (.crc8 b) s = .next { s with cmdErr := true, cmd := s.cmd.drop 1 } ∧
      exec .crc8clr s = .next { s with cmdErr := true, cmd := s.cmd.drop 1 })

/-- The bit-serial form over the bits of a byte sequence, MSB first, equals the table-driven form (R113). -/
def Obligations.CrcBitSerialEqualsTableDriven : Prop := ∀ bs : List Byte, crc8Bits (bytesBits bs) = crc8 bs

/-- Appending the computed CRC and running the check again yields zero (R116). -/
def Obligations.CrcRoundTripIsZero : Prop := ∀ bs : List Byte, crc8 (bs ++ [crc8 bs]) = 0

/-- R117: for every byte sequence, crc8(b_0..b_{n-1}) = rev8(crcR(rev8(b_0) .. rev8(b_{n-1}))): the document's
reversed-table method gives the same value, bit-reversed. -/
def Obligations.CrcReversedMethodIsEquivalent : Prop :=
  ∀ bs : List Byte, crc8 bs = rev8 (crcReversed (bs.map rev8))

/-! ### BCH encoder -/

/-- R133: BCHENC in READY writes the parity of FB[0, kbch) to FB[kbch, nbch) (nbch = kbch + pbch), its first bit at kbch,
and writes no other bit and no other state. -/
def Obligations.BchencWritesTheParity : Prop :=
  ∀ (s : State) (tb : Tables), s.phase = .ready tb → ∃ t, exec .bchenc s = .next t ∧
    t = { s with frameBuf := t.frameBuf, cmd := s.cmd.drop 1 } ∧
    (∀ k < tb.par.pbch, fbBit t.frameBuf (tb.par.kbch + k) =
      (bchParity tb.bcht tb.par.pbch (fbBits s.frameBuf 0 tb.par.kbch)).getD k false) ∧
    ∀ i, i < tb.par.kbch ∨ tb.par.kbch + tb.par.pbch ≤ i → fbBit t.frameBuf i = fbBit s.frameBuf i

/-- R127: the generator of each variant has degree pbch, and its value is the product the table gives. -/
def Obligations.BchGeneratorsAreTheListedProducts : Prop :=
  buildBchGenerator .n12 = 0x14e260e83845c511c50cf2cd8dc350889034785f7660255e7 ∧
    buildBchGenerator .n10 = 0x160150cedfc2a331f6a785703efd12301b8bb6591 ∧
    buildBchGenerator .s12 = 0x14062dbea9869b262cd23a39069528fe7d7d11905a5 ∧
    (buildBchGenerator .n12).log2 = 192 ∧ (buildBchGenerator .n10).log2 = 160 ∧ (buildBchGenerator .s12).log2 = 168

/-- The table-driven encoder equals bit-serial division for every generator of degree p ≥ 8 and every input of whole bytes
(R131). -/
def Obligations.BchTableDrivenEqualsBitSerial : Prop :=
  ∀ (g p : Nat) (u : Bits), 8 ≤ p → 2 ^ p ≤ g → g < 2 ^ (p + 1) → u.length % 8 = 0 →
    bchParity (buildBchTable g p) p u = bchSerial (bchGlow g p) p u

/-- R131: the codeword, the input followed by its parity, is exactly divisible by the generator: zero syndrome. -/
def Obligations.BchCodewordHasZeroSyndrome : Prop :=
  ∀ (v : BchVariant) (u : Bits), u.length % 8 = 0 →
    let g := buildBchGenerator v
    gf2Rem g g.log2 (u ++ bchParity (buildBchTable g g.log2) g.log2 u) = 0

/-- Linearity: the parity of an XOR is the XOR of the parities (R134). -/
def Obligations.BchParityIsLinear : Prop :=
  ∀ (g p : Nat) (u v : Bits), 8 ≤ p → 2 ^ p ≤ g → g < 2 ^ (p + 1) → u.length = v.length → u.length % 8 = 0 →
    bchParity (buildBchTable g p) p (xorBits u v) =
      xorBits (bchParity (buildBchTable g p) p u) (bchParity (buildBchTable g p) p v)

/-! ### LDPC -/

/-- R152, R150, R151: LDPC in READY writes FB[nbch, N) alone: zeros in ZERO mode, whatever the adjacency; else at nbch + p
the XOR over p' ≤ p of the XOR of the systematic bits in list p'. Nothing else changes. -/
def Obligations.LdpcFillsTheParityRegion : Prop :=
  ∀ (s : State) (tb : Tables) (adj : List (List Nat)), s.phase = .ready tb → tb.par.nbch ≤ tb.par.n →
    Config.params.ldpcMode = .zero ∨ tb.adj = some adj ∧ adj.length = tb.par.n - tb.par.nbch →
    ∃ t, exec .ldpc s = .next t ∧
    t = { s with frameBuf := t.frameBuf, cmd := s.cmd.drop 1 } ∧
    (∀ i, i < tb.par.nbch ∨ tb.par.n ≤ i → fbBit t.frameBuf i = fbBit s.frameBuf i) ∧
    ∀ p < tb.par.n - tb.par.nbch, fbBit t.frameBuf (tb.par.nbch + p) =
      match Config.params.ldpcMode with
      | .zero => false
      | .computed => decide ((((adj.take (p + 1)).map fun l =>
          (l.filter fun i => fbBit s.frameBuf i).length).sum) % 2 = 1)

/-- The expansion connects systematic bit 360g + r to parity bit (x + r·q) mod nldpcp for each seed x of row g, and to no
other (R147, R148): one list for each parity bit, in increasing order, which holds the systematic bit once for each seed
that produces it, duplicates kept. -/
def Obligations.LdpcAdjacencyFollowsTheIndexGenerator : Prop :=
  ∀ (c : CodeParams) (base : List (List Nat)), (adjLists c base).length = c.n - c.nbch ∧
    ∀ p, p < c.n - c.nbch →
    (∀ g r, g < base.length → r < 360 → ((adjLists c base).getD p []).count (360 * g + r) =
      (base.getD g []).countP fun x => decide ((x + r * c.q) % (c.n - c.nbch) = p)) ∧
    (∀ i, i ∈ (adjLists c base).getD p [] ↔
      ∃ g r x, g < base.length ∧ r < 360 ∧ x ∈ base.getD g [] ∧ i = 360 * g + r ∧
        (x + r * c.q) % (c.n - c.nbch) = p) ∧
    ((adjLists c base).getD p []).Pairwise (· ≤ ·)

/-- The adjacency holds exactly 360 · Σ len(base[g]) entries (R155). -/
def Obligations.LdpcAdjacencyEntryCount : Prop :=
  ∀ (c : CodeParams) (base : List (List Nat)), 0 < c.n - c.nbch →
    ((adjLists c base).map List.length).sum = 360 * (base.map List.length).sum

/-- R153, R154: in READY, RDADJ and RDADJN raise CMD_UNAVAILABLE when the adjacency is ABSENT, else CMD_INDEX when
p ≥ nldpcp, else push the entry (0xFFFF_FFFF past the end of the list) and the length; nothing else changes. -/
def Obligations.AdjacencyReads : Prop :=
  ∀ (s : State) (tb : Tables) (k p : Nat), s.phase = .ready tb →
    (tb.adj = none →
      exec (.rdadj k p) s = .next { s with cmdErr := true, errCode := .cmdUnavailable, cmd := s.cmd.drop 1 } ∧
      exec (.rdadjn p) s = .next { s with cmdErr := true, errCode := .cmdUnavailable, cmd := s.cmd.drop 1 }) ∧
    (∀ adj, tb.adj = some adj → tb.par.n - tb.par.nbch ≤ p →
      exec (.rdadj k p) s = .next { s with cmdErr := true, errCode := .cmdIndex, cmd := s.cmd.drop 1 } ∧
      exec (.rdadjn p) s = .next { s with cmdErr := true, errCode := .cmdIndex, cmd := s.cmd.drop 1 }) ∧
    (∀ adj, tb.adj = some adj → p < tb.par.n - tb.par.nbch →
      let l := adj.getD p []
      exec (.rdadj k p) s = .next { s with
        resp := s.resp ++ [if l.length ≤ k then 0xFFFFFFFF else BitVec.ofNat 32 (l.getD k 0)], cmd := s.cmd.drop 1 } ∧
      exec (.rdadjn p) s = .next { s with resp := s.resp ++ [BitVec.ofNat 32 l.length], cmd := s.cmd.drop 1 })

/-! ### Header and randomizer -/

/-- R175, R174, R166: BBHDR in READY writes the 80-bit header for the current FrameState at FB[0, 80) and, when INBAND = 1
and IBC = 0, the in-band field at FB[80, 184); every other bit and all other state is unchanged. -/
def Obligations.BbhdrWritesTheHeader : Prop :=
  ∀ (s : State) (tb : Tables), s.phase = .ready tb →
    let carried := cfgInband s.cfg0 = true ∧ s.ibc = 0
    let pad := if carried then 104 else 0
    let fields := natBits 16 (cfgMatype s.cfg3) ++ natBits 16 1504 ++ natBits 16 (tb.par.kbch - 80 - pad) ++
      natBits 8 0x47 ++ natBits 16 (if s.pbc = 0 then 0 else (188 - s.pbc.toNat) * 8)
    let crc := (crc8Bits fields).toNat
    ∃ t, exec .bbhdr s = .next t ∧ t = { s with frameBuf := t.frameBuf, cmd := s.cmd.drop 1 } ∧
      fbBits t.frameBuf 0 80 = fields ++ natBits 8 (if cfgInMode s.cfg0 = .hem then crc ||| 1 else crc) ∧
      (carried → fbBits t.frameBuf 80 104 =
        [false, true] ++ List.replicate 65 false ++ natBits 27 (cfgTsRate s.cfg1) ++ List.replicate 10 false) ∧
      ∀ i, 80 + pad ≤ i → fbBit t.frameBuf i = fbBit s.frameBuf i

/-- R188, R187: RAND in READY XORs RSEQ over FB[0, kbch) and changes nothing else. -/
def Obligations.RandXorsTheSequence : Prop :=
  ∀ (s : State) (tb : Tables), s.phase = .ready tb → tb.par.kbch ≤ tb.rseq.length → ∃ t, exec .rand s = .next t ∧
    t = { s with frameBuf := t.frameBuf, cmd := s.cmd.drop 1 } ∧
    (∀ i < tb.par.kbch, fbBit t.frameBuf i = xor (fbBit s.frameBuf i) (tb.rseq.getD i false)) ∧
    ∀ i, tb.par.kbch ≤ i → fbBit t.frameBuf i = fbBit s.frameBuf i

/-- RSEQ has 64800 bits, starts with the 15 bits of R189, and repeats with period 32767 (R189). -/
def Obligations.RandomizerSequenceIsPeriodic : Prop :=
  buildRandSeq.length = 64800 ∧
    buildRandSeq.take 15 = [false, false, false, false, false, false, true, true, true, true, true, true, false, true,
      true] ∧
    ∀ i, i + 32767 < 64800 → buildRandSeq.getD (i + 32767) false = buildRandSeq.getD i false

/-! ### FRAME -/

/-- R204: with fewer than NEED bytes in IN, FRAME in READY holds: it consumes nothing, writes nothing and pushes nothing;
with NEED bytes or more it completes, consuming NEED of them. That the hold is a step that changes nothing, its word still
in CMD, is the model's own form (notes/assumptions/1.md and 2.md). -/
def Obligations.FrameHoldsOnUnderSupply : Prop :=
  ∀ (s : State) (tb : Tables), s.phase = .ready tb →
    (s.input.length < s.need tb → exec .frame s = .next s) ∧
    (s.need tb ≤ s.input.length → ∃ t, exec .frame s = .next t ∧ t.input = s.input.drop (s.need tb) ∧
      t.cmd = s.cmd.drop 1)

/-- R207, R206, R205, R34: with NEED bytes in IN, FRAME in READY completes: it consumes exactly NEED() bytes, pushes exactly
FB[0], …, FB[nbch − 1], advances IBC modulo INBAND_N when in-band is on, and records both counts in LASTIO. Registers,
CRCT, STATE, ERRCODE, CMDERR, CELLBUF, SYM_OUT, RESP and every bit from nbch up are unchanged. -/
def Obligations.FrameConsumesNeedAndPushesNbch : Prop :=
  ∀ (s : State) (tb : Tables) (fs : FrameSize) (r : CodeRate), s.phase = .ready tb → codeParams fs r = some tb.par →
    tb.par.kbch ≤ tb.rseq.length → s.need tb ≤ s.input.length → ∃ t, exec .frame s = .next t ∧
    t = { s with
      pbc := t.pbc, pcrc := t.pcrc, syncWarn := t.syncWarn, swcnt := t.swcnt,
      ibc := if cfgInband s.cfg0 then BitVec.ofNat 16 ((s.ibc.toNat + 1) % cfgInbandN s.cfg2) else s.ibc,
      frameBuf := t.frameBuf,
      input := s.input.drop (s.need tb),
      bbOut := s.bbOut ++ fbBits t.frameBuf 0 tb.par.nbch,
      lastio := t.lastio,
      cmd := s.cmd.drop 1 } ∧
    t.lastio.toNat % 65536 = s.need tb ∧ t.lastio.toNat / 65536 = tb.par.nbch ∧
    ∀ i, tb.par.nbch ≤ i → fbBit t.frameBuf i = fbBit s.frameBuf i

/-- The frame FRAME leaves in FB[0, nbch) (R195, R197): the header, the in-band field when carried and the data field, XORed
with RSEQ, then the BCH parity of the randomized bits. The data field holds the bytes `out` that the packet state machine
emitted; the next three statements say which they are. -/
def Obligations.FrameLaysOutTheBbframe : Prop :=
  ∀ (s : State) (tb : Tables) (fs : FrameSize) (r : CodeRate), s.phase = .ready tb → codeParams fs r = some tb.par →
    tb.par.kbch ≤ tb.rseq.length → s.need tb ≤ s.input.length →
    let carried := cfgInband s.cfg0 = true ∧ s.ibc = 0
    let pad := if carried then 104 else 0
    let data := bytesBits (s.filled tb).out
    let raw := s.bbHeader tb.par.kbch ++ (if carried then s.inbandB else []) ++ data
    ∃ t, exec .frame s = .next t ∧ data.length = tb.par.kbch - 80 - pad ∧ raw.length = tb.par.kbch ∧
      fbBits t.frameBuf 0 tb.par.kbch = xorBits raw tb.rseq ∧
      fbBits t.frameBuf tb.par.kbch tb.par.pbch =
        bchParity tb.bcht tb.par.pbch (fbBits t.frameBuf 0 tb.par.kbch)

/-- The data bytes of a frame in NM (R198, R201): byte k is input byte k, but at a packet's sync slot it is the CRC-8 of the
payload bytes since the last sync byte, carried over from the frame before where the packet began there. -/
def Obligations.NmDataFieldCarriesBytesAndCrcs : Prop :=
  ∀ (s : State) (tb : Tables) (k : Nat), cfgInMode s.cfg0 = .nm → s.pbc.toNat < 188 →
    s.need tb ≤ s.input.length → k < s.need tb →
    (s.filled tb).out.length = s.need tb ∧
    (s.filled tb).out.getD k 0 =
      if (s.pbc.toNat + k) % 188 = 0 then slotCrc s.pcrc s.pbc.toNat s.input k else s.input.getD k 0

/-- The data bytes of a frame in HEM (R199, R202): the input bytes consumed, without those at a packet's sync byte, which
are not checked; PCRC and the warning state are untouched. FRAME in READY completes so, with PBC advanced by the bytes
consumed, modulo 188, and PCRC, SYNCWARN and SWCNT as they were (R208). -/
def Obligations.HemDataFieldDropsSyncBytes : Prop :=
  ∀ (s : State) (tb : Tables), cfgInMode s.cfg0 = .hem → s.pbc.toNat < 188 → s.need tb ≤ s.input.length →
    (s.filled tb).out =
      ((List.range (s.need tb)).filter fun k => decide ((s.pbc.toNat + k) % 188 ≠ 0)).map (s.input.getD · 0) ∧
    (s.filled tb).packet = { s.packet with pbc := (s.filled tb).packet.pbc } ∧
    (s.phase = .ready tb → ∃ t, exec .frame s = .next t ∧ t.pbc.toNat = (s.pbc.toNat + s.need tb) % 188 ∧
      t.pcrc = s.pcrc ∧ t.syncWarn = s.syncWarn ∧ t.swcnt = s.swcnt)

/-- R269, R200, R198, R201: after a FRAME in NM, SWCNT has grown by the number of bytes consumed at PBC = 0 that are not
0x47, saturating at 0xFFFF, SYNCWARN is set if there was one, PBC has advanced by the bytes consumed, modulo 188, and PCRC
is the CRC-8 of the payload bytes consumed since the last sync byte, going on from the PCRC before where the frame has
consumed no sync byte. -/
def Obligations.FrameCountsSyncMismatches : Prop :=
  ∀ (s : State) (tb : Tables), s.phase = .ready tb → cfgInMode s.cfg0 = .nm → s.pbc.toNat < 188 →
    s.need tb ≤ s.input.length →
    let bad := ((List.range (s.need tb)).filter fun k =>
      decide ((s.pbc.toNat + k) % 188 = 0 ∧ s.input.getD k 0 ≠ 0x47)).length
    ∃ t, exec .frame s = .next t ∧ t.swcnt.toNat = min (s.swcnt.toNat + bad) 0xFFFF ∧
      (t.syncWarn = true ↔ s.syncWarn = true ∨ 0 < bad) ∧ t.pbc.toNat = (s.pbc.toNat + s.need tb) % 188 ∧
      t.pcrc = slotCrc s.pcrc s.pbc.toNat s.input (s.need tb) ∧
      t.errCode = s.errCode ∧ t.cmdErr = s.cmdErr ∧ t.phase = s.phase

/-! ### Interleaver and mapper -/

/-- R227, R228: INTERLEAVE in READY with QPSK makes cell j of the bits 2j and 2j + 1 of u, which is FB[0, N) itself or, at
rates 1/3 and 2/5, its regroup; it writes CB[0, Ncells) alone. -/
def Obligations.InterleaveQpskPairsBits : Prop :=
  ∀ (s : State) (tb : Tables), s.phase = .ready tb → cfgMod s.cfg0 = .qpsk → tb.par.n % 2 = 0 →
    let low := cfgRate s.cfg0 = some .r1_3 ∨ cfgRate s.cfg0 = some .r2_5
    (low → tb.par.n = tb.par.nbch + 360 * tb.par.q) → ∃ t, exec .interleave s = .next t ∧
      t = { s with cellBuf := t.cellBuf, cmd := s.cmd.drop 1 } ∧
      (∀ j < tb.par.n / 2, (t.cellBuf.read j).toNat =
        2 * (fbBit s.frameBuf (if low then regroupIndex tb.par (2 * j) else 2 * j)).toNat +
          (fbBit s.frameBuf (if low then regroupIndex tb.par (2 * j + 1) else 2 * j + 1)).toNat) ∧
      ∀ j, tb.par.n / 2 ≤ j → t.cellBuf.read j = s.cellBuf.read j

/-- INTERLEAVE in READY with 16, 64 or 256-QAM puts bit i of u into the cell and cell bit that R229 gives (twist R223, mux
R225, repacking R226), the high bits of each cell 0, and writes CB[0, Ncells) alone. -/
def Obligations.InterleaveQamTwistsAndMuxes : Prop :=
  ∀ (s : State) (tb : Tables), s.phase = .ready tb → cfgMod s.cfg0 ≠ .qpsk →
    let m := modBits (cfgMod s.cfg0)
    let nc := ilvColumns (cfgFs s.cfg0) (cfgMod s.cfg0)
    let nr := tb.par.n / nc
    tb.par.n = frameBitsOf (cfgFs s.cfg0) → tb.par.n = tb.par.nbch + 360 * tb.par.q →
    tb.tw.length = nc → (∀ x ∈ tb.tw, x < nr) → tb.mx.Perm (List.range nc) → ∃ t, exec .interleave s = .next t ∧
      t = { s with cellBuf := t.cellBuf, cmd := s.cmd.drop 1 } ∧
      (∀ i < tb.par.n, (t.cellBuf.read (ilvPlace m nc nr tb.tw tb.mx i).1).getLsbD
          (m - 1 - (ilvPlace m nc nr tb.tw tb.mx i).2) =
        fbBit s.frameBuf (if Config.params.regroupNonQpsk then regroupIndex tb.par i else i)) ∧
      (∀ j < tb.par.n / m, (t.cellBuf.read j).toNat < 2 ^ m) ∧
      ∀ j, tb.par.n / m ≤ j → t.cellBuf.read j = s.cellBuf.read j

/-- The interleaver's map is a bijection from [0, N) onto [0, Ncells) × [0, m) for all valid tables (R229): every cell bit
comes from exactly one bit of u; and the regroup is a permutation of [0, N) that gathers the bits q apart (R222). -/
def Obligations.InterleaverMapIsABijection : Prop :=
  (∀ (m nc nr : Nat) (tw mx : List Nat), 0 < m → 0 < nr → nc % m = 0 → tw.length = nc → (∀ x ∈ tw, x < nr) →
    mx.Perm (List.range nc) → ∀ j k, j < nr * (nc / m) → k < m →
      ∃ i, i < nr * nc ∧ ilvPlace m nc nr tw mx i = (j, k) ∧
        ∀ i', i' < nr * nc → ilvPlace m nc nr tw mx i' = (j, k) → i' = i) ∧
  ∀ c : CodeParams, c.n = c.nbch + 360 * c.q →
    (∀ i < c.n, regroupIndex c i < c.n ∧ ∀ i' < c.n, regroupIndex c i = regroupIndex c i' → i = i') ∧
    (∀ i < c.nbch, regroupIndex c i = i) ∧
    ∀ s < 360, ∀ t < c.q, regroupIndex c (c.nbch + 360 * t + s) = c.nbch + c.q * s + t

/-- R246, R245: MAP in READY pushes exactly Ncells symbols, each P_SYMFMT of the point its cell selects, with rotation on
with the imaginary part of the cell before, cyclically within the frame; nothing else changes. -/
def Obligations.MapPushesOneSymbolPerCell : Prop :=
  ∀ (s : State) (tb : Tables), s.phase = .ready tb →
    let m := modBits (cfgMod s.cfg0)
    let n := tb.par.n / m
    let point := fun j => tb.points.getD ((s.cellBuf.read j).toNat % 2 ^ m) default
    exec .map s = .next { s with
      symOut := s.symOut ++ (List.range n).map (fun j => Config.params.symFmt
        (if cfgRot s.cfg0 = true then { re := (point j).re, im := (point (if j = 0 then n - 1 else j - 1)).im }
          else point j))
      cmd := s.cmd.drop 1 }

/-- CONST, over the real numbers the model's exact values stand for: cell value `v` carries the amplitudes that R242's Gray
labeling gives its even-numbered bits (I) and its odd-numbered bits (Q); the entry is (I + iQ) / √E with E = 2, 10, 42, 170
(R243), with rotation on times e^(iΦ) for Φ = 29°, 16.8°, 8.6°, 3.576334375°, counter-clockwise (R244); and the mean energy
is exactly 1, with and without rotation (R243). -/
def Obligations.ConstellationMeanEnergyIsOne : Prop :=
  (∀ (m : Modulation) (rot : Bool),
    ((buildConst m rot).map ExactComplex.energy).sum / (2 ^ modBits m : ℝ) = 1) ∧
  [Modulation.qpsk, .qam16, .qam64, .qam256].map normEnergy = [2, 10, 42, 170] ∧
  [Modulation.qpsk, .qam16, .qam64, .qam256].map rotationAngle =
    [29, 16.8, 8.6, 3.576334375].map (fun degrees => degrees * (Real.pi / 180)) ∧
  ∀ (m : Modulation) (v : Nat), v < 2 ^ modBits m →
    let i := (levelTable m).getD (cellLabel m v 0) 0
    let q := (levelTable m).getD (cellLabel m v 1) 0
    let z : ℂ := (i + q * Complex.I) / Real.sqrt (normEnergy m)
    pointI (modBits m) v = i ∧ pointQ (modBits m) v = q ∧
    ExactComplex.value ((buildConst m false).getD v default) = z ∧
    ExactComplex.value ((buildConst m true).getD v default) = z * Complex.exp (rotationAngle m * Complex.I)
end

