-- ==== Sys2Proof/Laws/Bits.lean ====
section
/-! SUPPORT. The small lemmas of Machine/Bits.lean: lengths and entries of MSB-first fields and of packed bytes. -/

namespace Sys2Proof.Machine

@[simp] theorem natBits_length (w x : Nat) : (natBits w x).length = w := by simp [natBits]

theorem natBits_getElem? (w x k : Nat) (h : k < w) : (natBits w x)[k]? = some (x.testBit (w - 1 - k)) := by
  simp [natBits, h]

theorem natBits_getD (w x k : Nat) (h : k < w) : (natBits w x).getD k false = x.testBit (w - 1 - k) := by
  simp [List.getD_eq_getElem?_getD, natBits_getElem? w x k h]

@[simp] theorem byteBits_length (b : Byte) : (byteBits b).length = 8 := by simp [byteBits]

theorem byteBits_getElem? (b : Byte) (k : Nat) (h : k < 8) : (byteBits b)[k]? = some (b.getMsbD k) := by
  rw [byteBits, natBits_getElem? 8 b.toNat k h]
  simp [BitVec.getMsbD, h, BitVec.getLsbD]

@[simp] theorem bytesBits_nil : bytesBits [] = [] := rfl

theorem bytesBits_cons (b : Byte) (bs : List Byte) : bytesBits (b :: bs) = byteBits b ++ bytesBits bs := by
  simp [bytesBits]

theorem bytesBits_append (xs ys : List Byte) : bytesBits (xs ++ ys) = bytesBits xs ++ bytesBits ys := by
  simp [bytesBits]

@[simp] theorem bytesBits_length (bs : List Byte) : (bytesBits bs).length = 8 * bs.length := by
  induction bs with
  | nil => rfl
  | cons b bs ih => rw [bytesBits_cons, List.length_append, ih, byteBits_length, List.length_cons]; omega

/-- Bit `8j + k` of the expanded bytes is bit `k`, from the most significant, of byte `j` (R53). -/
theorem bytesBits_getElem? (bs : List Byte) (j k : Nat) (hj : j < bs.length) (hk : k < 8) :
    (bytesBits bs)[8 * j + k]? = some (bs[j].getMsbD k) := by
  induction bs generalizing j with
  | nil => simp at hj
  | cons b bs ih =>
    rw [bytesBits_cons]
    cases j with
    | zero =>
      rw [List.getElem?_append_left (by simp; omega)]
      simpa using byteBits_getElem? b k hk
    | succ j =>
      rw [List.getElem?_append_right (by simp; omega)]
      have hj' : j < bs.length := by simpa using hj
      have : 8 * (j + 1) + k - (byteBits b).length = 8 * j + k := by simp; omega
      rw [this, ih j hj']
      simp

theorem packBytes_cons8 (b0 b1 b2 b3 b4 b5 b6 b7 : Bool) (rest : Bits) :
    packBytes (b0 :: b1 :: b2 :: b3 :: b4 :: b5 :: b6 :: b7 :: rest) =
      BitVec.ofNat 8 (bitsVal [b0, b1, b2, b3, b4, b5, b6, b7]) :: packBytes rest := rfl

/-- A bit sequence of at least 8 bits is 8 bits and a rest. -/
theorem eight_bits (v : Bits) (h : 8 ≤ v.length) :
    ∃ b0 b1 b2 b3 b4 b5 b6 b7 rest, v = b0 :: b1 :: b2 :: b3 :: b4 :: b5 :: b6 :: b7 :: rest := by
  match v, h with
  | b0 :: b1 :: b2 :: b3 :: b4 :: b5 :: b6 :: b7 :: rest, _ => exact ⟨b0, b1, b2, b3, b4, b5, b6, b7, rest, rfl⟩

theorem packBytes_short (v : Bits) (h : v.length < 8) : packBytes v = [] := by
  match v, h with
  | [], _ => rfl
  | [_], _ => rfl
  | [_, _], _ => rfl
  | [_, _, _], _ => rfl
  | [_, _, _, _], _ => rfl
  | [_, _, _, _, _], _ => rfl
  | [_, _, _, _, _, _], _ => rfl
  | [_, _, _, _, _, _, _], _ => rfl
  | _ :: _ :: _ :: _ :: _ :: _ :: _ :: _ :: _, h => simp at h; omega

@[simp] theorem packBytes_length (v : Bits) : (packBytes v).length = v.length / 8 := by
  induction hn : v.length using Nat.strong_induction_on generalizing v with
  | _ n ih =>
    by_cases h : n < 8
    · rw [packBytes_short v (by omega)]; simp; omega
    · obtain ⟨b0, b1, b2, b3, b4, b5, b6, b7, rest, rfl⟩ := eight_bits v (by omega)
      simp only [List.length_cons] at hn
      rw [packBytes_cons8, List.length_cons, ih rest.length (by omega) rest rfl]
      omega

/-- The bits of one packed byte. -/
theorem packed_byte_bits : ∀ b0 b1 b2 b3 b4 b5 b6 b7 : Bool, ∀ k : Fin 8,
    (BitVec.ofNat 8 (bitsVal [b0, b1, b2, b3, b4, b5, b6, b7])).getMsbD k =
      [b0, b1, b2, b3, b4, b5, b6, b7].getD k false := by decide

/-- Bit `k` of packed byte `j` is bit `8j + k` of the sequence (R51). -/
theorem packBytes_getMsbD (v : Bits) (j k : Nat) (hj : j < v.length / 8) (hk : k < 8) :
    ((packBytes v)[j]?.getD 0).getMsbD k = v.getD (8 * j + k) false := by
  induction j generalizing v with
  | zero =>
    obtain ⟨b0, b1, b2, b3, b4, b5, b6, b7, rest, rfl⟩ := eight_bits v (by omega)
    rw [packBytes_cons8]
    have := packed_byte_bits b0 b1 b2 b3 b4 b5 b6 b7 ⟨k, hk⟩
    simp only [List.getElem?_cons_zero, Option.getD_some]
    rw [this]
    have hk' : k = 0 ∨ k = 1 ∨ k = 2 ∨ k = 3 ∨ k = 4 ∨ k = 5 ∨ k = 6 ∨ k = 7 := by omega
    rcases hk' with rfl | rfl | rfl | rfl | rfl | rfl | rfl | rfl <;> rfl
  | succ j ih =>
    obtain ⟨b0, b1, b2, b3, b4, b5, b6, b7, rest, rfl⟩ := eight_bits v (by omega)
    rw [packBytes_cons8, List.getElem?_cons_succ, ih rest (by simp only [List.length_cons] at hj; omega)]
    have : 8 * (j + 1) + k = (8 * j + k) + 1 + 1 + 1 + 1 + 1 + 1 + 1 + 1 := by omega
    rw [this]
    simp only [List.getD_cons_succ]

@[simp] theorem xorBits_length (u v : Bits) : (xorBits u v).length = min u.length v.length := by
  simp [xorBits]

theorem xorBits_getD (u v : Bits) (k : Nat) (hu : k < u.length) (hv : k < v.length) :
    (xorBits u v).getD k false = xor (u.getD k false) (v.getD k false) := by
  simp [xorBits, List.getD_eq_getElem?_getD, List.getElem?_zipWith, List.getElem?_eq_getElem hu,
    List.getElem?_eq_getElem hv]

/-! ### Numbers and their bits (R9) -/

@[simp] theorem bitsVal_nil : bitsVal [] = 0 := rfl

theorem bitsVal_foldl (v : Bits) (n : Nat) :
    v.foldl (fun n b => 2 * n + b.toNat) n = n * 2 ^ v.length + bitsVal v := by
  induction v generalizing n with
  | nil => simp [bitsVal]
  | cons b v ih =>
    have hc : bitsVal (b :: v) = v.foldl (fun n b => 2 * n + b.toNat) (2 * 0 + b.toNat) := rfl
    rw [List.foldl_cons, ih, hc, ih, List.length_cons, pow_succ]
    ring

theorem bitsVal_cons (b : Bool) (v : Bits) : bitsVal (b :: v) = b.toNat * 2 ^ v.length + bitsVal v := by
  rw [bitsVal, List.foldl_cons, bitsVal_foldl]
  simp

theorem bitsVal_append (u v : Bits) : bitsVal (u ++ v) = bitsVal u * 2 ^ v.length + bitsVal v := by
  rw [bitsVal, List.foldl_append, bitsVal_foldl]
  rfl

theorem bitsVal_lt (v : Bits) : bitsVal v < 2 ^ v.length := by
  induction v with
  | nil => simp
  | cons b v ih =>
    rw [bitsVal_cons, List.length_cons, pow_succ]
    cases b <;> simp <;> omega

/-- `val(v)` has `v` as its bits: `bits_w(val(v)) = v` (R9). -/
theorem bitsVal_testBit (v : Bits) (k : Nat) (h : k < v.length) :
    (bitsVal v).testBit (v.length - 1 - k) = v.getD k false := by
  induction v generalizing k with
  | nil => simp at h
  | cons b v ih =>
    rw [bitsVal_cons, List.length_cons]
    cases k with
    | zero =>
      have hlt := bitsVal_lt v
      have : v.length + 1 - 1 - 0 = v.length := by omega
      rw [this, mul_comm, Nat.testBit_two_pow_mul_add _ hlt]
      cases b <;> simp
    | succ k =>
      have hlt := bitsVal_lt v
      have hk : k < v.length := by simpa using h
      have : v.length + 1 - 1 - (k + 1) = v.length - 1 - k := by omega
      rw [this, mul_comm, Nat.testBit_two_pow_mul_add _ hlt, if_pos (by omega), ih k hk]
      simp

theorem natBits_bitsVal (v : Bits) : natBits v.length (bitsVal v) = v := by
  apply List.ext_getElem?
  intro k
  by_cases h : k < v.length
  · rw [natBits_getElem? _ _ _ h, bitsVal_testBit v k h]
    simp [List.getD_eq_getElem?_getD, h]
  · rw [List.getElem?_eq_none (by simp; omega), List.getElem?_eq_none (by omega)]

theorem bitsVal_natBits (w x : Nat) : bitsVal (natBits w x) = x % 2 ^ w := by
  apply Nat.eq_of_testBit_eq
  intro i
  rw [Nat.testBit_mod_two_pow]
  by_cases h : i < w
  · have := bitsVal_testBit (natBits w x) (w - 1 - i) (by simp; omega)
    rw [natBits_length, natBits_getD w x _ (by omega)] at this
    have e : w - 1 - (w - 1 - i) = i := by omega
    rw [e] at this
    simp [this, h]
  · have hlt := bitsVal_lt (natBits w x)
    rw [natBits_length] at hlt
    have : bitsVal (natBits w x) < 2 ^ i := lt_of_lt_of_le hlt (Nat.pow_le_pow_right (by omega) (by omega))
    simp [Nat.testBit_lt_two_pow this, h]

end Sys2Proof.Machine
end

