-- ==== Sys2Proof/Laws/Memory.lean ====
section
/-! SUPPORT. The laws of the buffers: read after write, the canonical form, and FRAMEBUF as bits (20_memory.md R51). -/

namespace Sys2Proof.Machine

/-! ### Reading -/

@[simp] theorem Memory.read_nil (x : Nat) : Memory.read [] x = Memory.unlisted := rfl

theorem Memory.read_cons (c : Host.Cell) (m : Memory) (x : Nat) :
    Memory.read (c :: m) x = if c.1 = x then c.2 else Memory.read m x := rfl

/-- An address that no pair holds reads as unlisted. -/
theorem Memory.read_of_not_listed (m : Memory) (x : Nat) (h : ∀ c ∈ m, c.1 ≠ x) : m.read x = Memory.unlisted := by
  induction m with
  | nil => rfl
  | cons c m ih =>
    rw [Memory.read_cons, if_neg (h c (by simp))]
    exact ih fun d hd => h d (by simp [hd])

theorem Memory.read_append (m n : Memory) (x : Nat) :
    Memory.read (m ++ n) x = if ∃ c ∈ m, c.1 = x then Memory.read m x else Memory.read n x := by
  induction m with
  | nil => simp
  | cons c m ih =>
    rw [List.cons_append, Memory.read_cons, Memory.read_cons, ih]
    by_cases h : c.1 = x
    · simp [h]
    · simp [h]

/-- Keeping only the pairs of some addresses keeps what those addresses read as. -/
theorem Memory.read_filter (m : Memory) (p : Nat → Bool) (x : Nat) :
    Memory.read (m.filter fun c => p c.1) x = if p x then m.read x else Memory.unlisted := by
  induction m with
  | nil => simp
  | cons c m ih =>
    by_cases hc : p c.1
    · rw [List.filter_cons_of_pos (by simpa using hc), Memory.read_cons, Memory.read_cons, ih]
      by_cases h : c.1 = x
      · subst h; simp [hc]
      · simp [h]
    · rw [List.filter_cons_of_neg (by simpa using hc), ih, Memory.read_cons]
      by_cases h : c.1 = x
      · subst h; simp [hc]
      · simp [h]

/-! ### Writing -/

theorem Memory.entries_addr (a : Nat) (bs : List Byte) (c : Host.Cell) (h : c ∈ Memory.entries a bs) :
    a ≤ c.1 ∧ c.1 < a + bs.length ∧ c.2 ≠ Memory.unlisted := by
  induction bs generalizing a with
  | nil => simp [Memory.entries] at h
  | cons b bs ih =>
    rw [Memory.entries] at h
    simp only [List.length_cons]
    split at h
    · obtain ⟨h1, h2, h3⟩ := ih (a + 1) h
      exact ⟨by omega, by omega, h3⟩
    · rename_i hb
      rcases List.mem_cons.1 h with rfl | h
      · exact ⟨le_refl _, by simp, hb⟩
      · obtain ⟨h1, h2, h3⟩ := ih (a + 1) h
        exact ⟨by omega, by omega, h3⟩

theorem Memory.read_entries (a : Nat) (bs : List Byte) (k : Nat) :
    (Memory.entries a bs).read (a + k) = bs.getD k Memory.unlisted := by
  induction bs generalizing a k with
  | nil => simp [Memory.entries]
  | cons b bs ih =>
    have hnone : Memory.read (Memory.entries (a + 1) bs) a = Memory.unlisted :=
      Memory.read_of_not_listed _ _ fun c hc => by
        have := Memory.entries_addr _ _ c hc
        omega
    rw [Memory.entries]
    cases k with
    | zero =>
      split
      · rename_i hb
        simp [hnone, hb]
      · simp [Memory.read_cons]
    | succ k =>
      have e : a + (k + 1) = (a + 1) + k := by omega
      split
      · rw [e, ih]; simp
      · rw [Memory.read_cons, if_neg (by simp), e, ih]; simp

/-- READ AFTER WRITE: inside the range the bytes written, outside it what was there. -/
theorem Memory.read_writeRange (m : Memory) (a : Nat) (bs : List Byte) (x : Nat) :
    (m.writeRange a bs).read x = if a ≤ x ∧ x < a + bs.length then bs.getD (x - a) Memory.unlisted else m.read x := by
  have hent : ∀ y, (∃ c ∈ Memory.entries a bs, c.1 = y) → a ≤ y ∧ y < a + bs.length := by
    rintro y ⟨c, hc, rfl⟩
    have := Memory.entries_addr _ _ c hc
    exact ⟨this.1, this.2.1⟩
  have hlow := Memory.read_filter m (fun y => decide (y < a)) x
  have hhigh := Memory.read_filter m (fun y => decide (a + bs.length ≤ y)) x
  rw [Memory.writeRange, Memory.read_append, Memory.read_append]
  by_cases h1 : x < a
  · have hno : ¬ ∃ c ∈ Memory.entries a bs, c.1 = x := fun h => by have := hent x h; omega
    have hr : ¬ (a ≤ x ∧ x < a + bs.length) := by omega
    rw [if_neg hr]
    simp only [decide_eq_true_eq] at hlow hhigh
    rw [if_pos h1] at hlow
    rw [if_neg (by omega)] at hhigh
    by_cases hx : ∃ c ∈ m.filter (fun c => decide (c.1 < a)), c.1 = x
    · have : ∃ c ∈ m.filter (fun c => decide (c.1 < a)) ++ Memory.entries a bs, c.1 = x := by
        obtain ⟨c, hc, e⟩ := hx
        exact ⟨c, by simp only [List.mem_append]; exact Or.inl hc, e⟩
      rw [if_pos this, if_pos hx, hlow]
    · have hnot : ¬ ∃ c ∈ m.filter (fun c => decide (c.1 < a)) ++ Memory.entries a bs, c.1 = x := by
        rintro ⟨c, hc, e⟩
        rcases List.mem_append.1 hc with hc | hc
        · exact hx ⟨c, hc, e⟩
        · exact hno ⟨c, hc, e⟩
      rw [if_neg hnot, hhigh, ← hlow]
      exact (Memory.read_of_not_listed _ _ fun c hc e => hx ⟨c, hc, e⟩).symm
  · have hnolow : ¬ ∃ c ∈ m.filter (fun c => decide (c.1 < a)), c.1 = x := by
      rintro ⟨c, hc, e⟩
      have := List.mem_filter.1 hc
      simp only [decide_eq_true_eq] at this
      omega
    by_cases h2 : x < a + bs.length
    · rw [if_pos (show a ≤ x ∧ x < a + bs.length by omega)]
      have hre := Memory.read_entries a bs (x - a)
      rw [Nat.add_sub_cancel' (by omega)] at hre
      by_cases hx : ∃ c ∈ Memory.entries a bs, c.1 = x
      · have : ∃ c ∈ m.filter (fun c => decide (c.1 < a)) ++ Memory.entries a bs, c.1 = x := by
          obtain ⟨c, hc, e⟩ := hx
          exact ⟨c, by simp only [List.mem_append]; exact Or.inr hc, e⟩
        rw [if_pos this, if_neg hnolow, hre]
      · have hnot : ¬ ∃ c ∈ m.filter (fun c => decide (c.1 < a)) ++ Memory.entries a bs, c.1 = x := by
          rintro ⟨c, hc, e⟩
          rcases List.mem_append.1 hc with hc | hc
          · exact hnolow ⟨c, hc, e⟩
          · exact hx ⟨c, hc, e⟩
        rw [if_neg hnot, ← hre, Memory.read_of_not_listed _ _ fun c hc e => hx ⟨c, hc, e⟩]
        simp only [decide_eq_true_eq] at hhigh
        rw [hhigh, if_neg (by omega)]
    · rw [if_neg (show ¬ (a ≤ x ∧ x < a + bs.length) by omega)]
      have hnot : ¬ ∃ c ∈ m.filter (fun c => decide (c.1 < a)) ++ Memory.entries a bs, c.1 = x := by
        rintro ⟨c, hc, e⟩
        rcases List.mem_append.1 hc with hc | hc
        · exact hnolow ⟨c, hc, e⟩
        · have := hent x ⟨c, hc, e⟩; omega
      rw [if_neg hnot]
      simp only [decide_eq_true_eq] at hhigh
      rw [hhigh, if_pos (by omega)]

/-! ### The canonical form -/

theorem Memory.wf_iff (m : Memory) :
    m.wf = true ↔ m.Pairwise (fun a b => a.1 < b.1) ∧ ∀ c ∈ m, c.2 ≠ Memory.unlisted := by
  simp [Memory.wf]

@[simp] theorem Memory.wf_nil : Memory.wf [] = true := rfl

theorem Memory.entries_pairwise (a : Nat) (bs : List Byte) :
    (Memory.entries a bs).Pairwise fun c d => c.1 < d.1 := by
  induction bs generalizing a with
  | nil => exact List.Pairwise.nil
  | cons b bs ih =>
    rw [Memory.entries]
    split
    · exact ih (a + 1)
    · refine List.pairwise_cons.2 ⟨fun c hc => ?_, ih (a + 1)⟩
      have := Memory.entries_addr _ _ c hc
      omega

/-- Every write keeps the canonical form. -/
theorem Memory.wf_writeRange (m : Memory) (a : Nat) (bs : List Byte) (h : m.wf = true) :
    (m.writeRange a bs).wf = true := by
  rw [Memory.wf_iff] at h ⊢
  obtain ⟨hp, hv⟩ := h
  constructor
  · rw [Memory.writeRange, List.append_assoc]
    refine List.pairwise_append.2 ⟨hp.filter _, List.pairwise_append.2
      ⟨Memory.entries_pairwise a bs, hp.filter _, ?_⟩, ?_⟩
    · intro c hc d hd
      have h1 := Memory.entries_addr _ _ c hc
      have h2 := (List.mem_filter.1 hd).2
      simp only [decide_eq_true_eq] at h2
      omega
    · intro c hc d hd
      have h1 := (List.mem_filter.1 hc).2
      simp only [decide_eq_true_eq] at h1
      rcases List.mem_append.1 hd with hd | hd
      · have h2 := Memory.entries_addr _ _ d hd
        omega
      · have h2 := (List.mem_filter.1 hd).2
        simp only [decide_eq_true_eq] at h2
        omega
  · intro c hc
    rw [Memory.writeRange] at hc
    rcases List.mem_append.1 hc with hc | hc
    · rcases List.mem_append.1 hc with hc | hc
      · exact hv c (List.mem_of_mem_filter hc)
      · exact (Memory.entries_addr _ _ c hc).2.2
    · exact hv c (List.mem_of_mem_filter hc)

theorem Memory.within_iff (m : Memory) (size : Nat) : m.within size = true ↔ ∀ c ∈ m, c.1 < size := by
  simp [Memory.within]

@[simp] theorem Memory.within_nil (size : Nat) : Memory.within [] size = true := rfl

/-- A write below `size` keeps every listed address below `size`. -/
theorem Memory.within_writeRange (m : Memory) (a : Nat) (bs : List Byte) (size : Nat) (h : m.within size = true)
    (hb : a + bs.length ≤ size) : (m.writeRange a bs).within size = true := by
  rw [Memory.within_iff] at h ⊢
  intro c hc
  rw [Memory.writeRange] at hc
  rcases List.mem_append.1 hc with hc | hc
  · rcases List.mem_append.1 hc with hc | hc
    · exact h c (List.mem_of_mem_filter hc)
    · have := Memory.entries_addr _ _ c hc; omega
  · exact h c (List.mem_of_mem_filter hc)

/-- The least listed address of a canonical memory whose first pair is `c`. -/
theorem Memory.read_head_lt (c : Host.Cell) (m : Memory) (h : (c :: m).Pairwise fun a b => a.1 < b.1) (x : Nat)
    (hx : x < c.1) : Memory.read (c :: m) x = Memory.unlisted :=
  Memory.read_of_not_listed _ _ fun d hd => by
    rcases List.mem_cons.1 hd with rfl | hd
    · omega
    · have := (List.pairwise_cons.1 h).1 d hd; omega

/-- Equal memories are equal data: two canonical memories that read the same everywhere are the same list. -/
theorem Memory.ext (m n : Memory) (hm : m.wf = true) (hn : n.wf = true) (h : ∀ x, m.read x = n.read x) : m = n := by
  induction m generalizing n with
  | nil =>
    cases n with
    | nil => rfl
    | cons d n =>
      have := h d.1
      rw [Memory.wf_iff] at hn
      rw [Memory.read_cons, if_pos rfl, Memory.read_nil] at this
      exact absurd this.symm (hn.2 d (by simp))
  | cons c m ih =>
    have hmi := (Memory.wf_iff _).1 hm
    have hni := (Memory.wf_iff _).1 hn
    cases n with
    | nil =>
      have := h c.1
      rw [Memory.read_cons, if_pos rfl, Memory.read_nil] at this
      exact absurd this (hmi.2 c (by simp))
    | cons d n =>
      have hcd : c.1 = d.1 := by
        rcases Nat.lt_trichotomy c.1 d.1 with hlt | heq | hgt
        · have h1 := h c.1
          rw [Memory.read_cons, if_pos rfl, Memory.read_head_lt d n hni.1 _ hlt] at h1
          exact absurd h1 (hmi.2 c (by simp))
        · exact heq
        · have h1 := h d.1
          rw [Memory.read_head_lt c m hmi.1 _ hgt, Memory.read_cons, if_pos rfl] at h1
          exact absurd h1.symm (hni.2 d (by simp))
      have hval : c.2 = d.2 := by
        have h1 := h c.1
        rwa [Memory.read_cons, if_pos rfl, Memory.read_cons, if_pos hcd.symm] at h1
      have hpm := List.pairwise_cons.1 hmi.1
      have hpn := List.pairwise_cons.1 hni.1
      have htail : m = n := by
        apply ih n
        · exact (Memory.wf_iff _).2 ⟨hpm.2, fun e he => hmi.2 e (by simp [he])⟩
        · exact (Memory.wf_iff _).2 ⟨hpn.2, fun e he => hni.2 e (by simp [he])⟩
        · intro x
          have h1 := h x
          rw [Memory.read_cons, Memory.read_cons] at h1
          by_cases hx : c.1 = x
          · subst hx
            rw [Memory.read_of_not_listed m _ fun e he => by have := hpm.1 e he; omega,
              Memory.read_of_not_listed n _ fun e he => by have := hpn.1 e he; omega]
          · rwa [if_neg hx, if_neg (by omega)] at h1
      rw [htail, Prod.ext hcd hval]

/-! ### Reading a range -/

theorem Memory.image_size (m : Memory) (a n : Nat) :
    (m.foldr (fun c img => if a ≤ c.1 then Array.setIfInBounds img (c.1 - a) c.2 else img)
      (Array.replicate n Memory.unlisted)).size = n := by
  induction m with
  | nil => simp
  | cons c m ih =>
    rw [List.foldr_cons]
    split
    · simp [ih]
    · exact ih

theorem Memory.image_getElem? (m : Memory) (a n k : Nat) (hk : k < n) :
    (m.foldr (fun c img => if a ≤ c.1 then Array.setIfInBounds img (c.1 - a) c.2 else img)
      (Array.replicate n Memory.unlisted))[k]? = some (m.read (a + k)) := by
  induction m with
  | nil => simp [hk]
  | cons c m ih =>
    have hsz := Memory.image_size m a n
    rw [List.foldr_cons, Memory.read_cons]
    split
    · rw [Array.getElem?_setIfInBounds]
      by_cases h : c.1 - a = k
      · rw [if_pos h, if_pos (by omega), if_pos (by omega)]
      · rw [if_neg h, ih, if_neg (by omega)]
    · rw [ih, if_neg (by omega)]

/-- A range read is one read for each address. -/
theorem Memory.readRange_eq_map (m : Memory) (a n : Nat) :
    m.readRange a n = (List.range n).map fun k => m.read (a + k) := by
  apply List.ext_getElem?
  intro k
  rw [Memory.readRange, Array.getElem?_toList]
  by_cases hk : k < n
  · rw [Memory.image_getElem? m a n k hk]
    simp [hk]
  · rw [Array.getElem?_eq_none (by rw [Memory.image_size]; omega), List.getElem?_eq_none (by simp; omega)]

@[simp] theorem Memory.readRange_length (m : Memory) (a n : Nat) : (m.readRange a n).length = n := by
  simp [Memory.readRange_eq_map]

theorem Memory.readRange_getElem? (m : Memory) (a n k : Nat) (hk : k < n) :
    (m.readRange a n)[k]? = some (m.read (a + k)) := by
  simp [Memory.readRange_eq_map, hk]

theorem Memory.readRange_getD (m : Memory) (a n k : Nat) (hk : k < n) :
    (m.readRange a n).getD k 0 = m.read (a + k) := by
  simp [List.getD_eq_getElem?_getD, Memory.readRange_getElem? m a n k hk]

/-! ### FRAMEBUF as bits -/

/-- `FB[a .. a+n)` is `FB[a]`, `FB[a+1]`, … (R8, R51). -/
theorem fbBits_eq_map (m : Memory) (a n : Nat) : fbBits m a n = (List.range n).map fun k => fbBit m (a + k) := by
  apply List.ext_getElem?
  intro k
  rw [fbBits, List.getElem?_take]
  split
  · rename_i hk
    rw [List.getElem?_drop]
    have hj : (a % 8 + k) / 8 < (a % 8 + n + 7) / 8 := by omega
    have hb := bytesBits_getElem? (m.readRange (a / 8) ((a % 8 + n + 7) / 8)) ((a % 8 + k) / 8) ((a % 8 + k) % 8)
      (by rw [Memory.readRange_length]; exact hj) (Nat.mod_lt _ (by omega))
    rw [Nat.div_add_mod] at hb
    rw [hb]
    have hr := Memory.readRange_getElem? m (a / 8) _ _ hj
    rw [List.getElem?_eq_getElem (by rw [Memory.readRange_length]; exact hj)] at hr
    rw [Option.some.inj hr]
    have e1 : a / 8 + (a % 8 + k) / 8 = (a + k) / 8 := by omega
    have e2 : (a % 8 + k) % 8 = (a + k) % 8 := by omega
    simp [hk, fbBit, e1, e2]
  · rename_i hk
    rw [List.getElem?_eq_none (by simp; omega)]

@[simp] theorem fbBits_length (m : Memory) (a n : Nat) : (fbBits m a n).length = n := by simp [fbBits_eq_map]

theorem fbBits_getElem? (m : Memory) (a n k : Nat) (hk : k < n) : (fbBits m a n)[k]? = some (fbBit m (a + k)) := by
  simp [fbBits_eq_map, hk]

theorem fbBits_getD (m : Memory) (a n k : Nat) (hk : k < n) : (fbBits m a n).getD k false = fbBit m (a + k) := by
  simp [List.getD_eq_getElem?_getD, fbBits_getElem? m a n k hk]

/-- READ AFTER WRITE for bits: inside the range the bits written, every other bit as before (R51, R54). -/
theorem fbBit_fbWrite (m : Memory) (a : Nat) (v : Bits) (i : Nat) :
    fbBit (fbWrite m a v) i = if a ≤ i ∧ i < a + v.length then v.getD (i - a) false else fbBit m i := by
  simp only [fbWrite, fbBit]
  rw [Memory.read_writeRange]
  simp only [packBytes_length, List.length_append, fbBits_length]
  by_cases hr : a / 8 ≤ i / 8 ∧ i / 8 < a / 8 + (a % 8 + v.length + (8 - (a + v.length) % 8) % 8) / 8
  · rw [if_pos hr]
    have hg := packBytes_getMsbD
      (fbBits m (8 * (a / 8)) (a % 8) ++ v ++ fbBits m (a + v.length) ((8 - (a + v.length) % 8) % 8))
      (i / 8 - a / 8) (i % 8) (by simp only [List.length_append, fbBits_length]; omega) (Nat.mod_lt _ (by omega))
    have hu : Memory.unlisted = 0 := rfl
    rw [List.getD_eq_getElem?_getD, hu, hg, List.getD_eq_getElem?_getD]
    by_cases h1 : i < a
    · rw [if_neg (by omega), List.append_assoc, List.getElem?_append_left (by rw [fbBits_length]; omega),
        fbBits_getElem? _ _ _ _ (by omega)]
      have e : 8 * (a / 8) + (8 * (i / 8 - a / 8) + i % 8) = i := by omega
      rw [e]; rfl
    · by_cases h2 : i < a + v.length
      · rw [if_pos ⟨by omega, h2⟩, List.append_assoc, List.getElem?_append_right (by rw [fbBits_length]; omega),
          fbBits_length, List.getElem?_append_left (by omega), List.getD_eq_getElem?_getD]
        have e : 8 * (i / 8 - a / 8) + i % 8 - a % 8 = i - a := by omega
        rw [e]
      · rw [if_neg (by omega), List.getElem?_append_right (by rw [List.length_append, fbBits_length]; omega),
          List.length_append, fbBits_length, fbBits_getElem? _ _ _ _ (by omega)]
        have e : a + v.length + (8 * (i / 8 - a / 8) + i % 8 - (a % 8 + v.length)) = i := by omega
        rw [e]; rfl
  · rw [if_neg hr, if_neg (by omega)]

theorem wf_fbWrite (m : Memory) (a : Nat) (v : Bits) (h : m.wf = true) : (fbWrite m a v).wf = true :=
  Memory.wf_writeRange _ _ _ h

theorem wf_fbWriteWord (m : Memory) (w : Nat) (v : Word) (h : m.wf = true) : (fbWriteWord m w v).wf = true :=
  wf_fbWrite _ _ _ h

/-- Both buffers are canonical after power-on reset. -/
theorem reset_buffers_wf : State.reset.frameBuf.wf = true ∧ State.reset.cellBuf.wf = true := ⟨rfl, rfl⟩

/-- A write of bits below `8 · size` keeps every listed address below `size`. -/
theorem within_fbWrite (m : Memory) (a : Nat) (v : Bits) (size : Nat) (h : m.within size = true)
    (hb : a + v.length ≤ 8 * size) : (fbWrite m a v).within size = true := by
  apply Memory.within_writeRange _ _ _ _ h
  simp only [packBytes_length, List.length_append, fbBits_length]
  omega

/-- Bits outside the written range are unchanged. -/
theorem fbBit_fbWrite_outside (m : Memory) (a : Nat) (v : Bits) (i : Nat) (h : i < a ∨ a + v.length ≤ i) :
    fbBit (fbWrite m a v) i = fbBit m i := by
  rw [fbBit_fbWrite, if_neg (by omega)]

/-- Bits inside the written range are the bits written. -/
theorem fbBit_fbWrite_inside (m : Memory) (a : Nat) (v : Bits) (k : Nat) (h : k < v.length) :
    fbBit (fbWrite m a v) (a + k) = v.getD k false := by
  rw [fbBit_fbWrite, if_pos (by omega), Nat.add_sub_cancel_left]

/-- Reading back the range just written gives the bits written. -/
theorem fbBits_fbWrite_same (m : Memory) (a : Nat) (v : Bits) : fbBits (fbWrite m a v) a v.length = v := by
  apply List.ext_getElem?
  intro k
  by_cases h : k < v.length
  · rw [fbBits_getElem? _ _ _ _ h, fbBit_fbWrite_inside m a v k h]
    simp [List.getD_eq_getElem?_getD, h]
  · rw [List.getElem?_eq_none (by simp; omega), List.getElem?_eq_none (by omega)]

/-- A range read that the write does not touch is unchanged. -/
theorem fbBits_fbWrite_outside (m : Memory) (a : Nat) (v : Bits) (b n : Nat) (h : b + n ≤ a ∨ a + v.length ≤ b) :
    fbBits (fbWrite m a v) b n = fbBits m b n := by
  simp only [fbBits_eq_map]
  apply List.map_congr_left
  intro k hk
  exact fbBit_fbWrite_outside m a v (b + k) (by have := List.mem_range.1 hk; omega)

/-! ### FRAMEBUF words (R51) -/

/-- Bit `31 − k` of a word read is `FB[32w + k]`. -/
theorem fbReadWord_getMsbD (m : Memory) (w k : Nat) (hk : k < 32) :
    (fbReadWord m w).getMsbD k = fbBit m (32 * w + k) := by
  have hb := bitsVal_testBit (fbBits m (32 * w) 32) k (by simpa using hk)
  rw [fbBits_length, fbBits_getD m _ _ _ hk] at hb
  rw [← hb, fbReadWord, BitVec.getMsbD, BitVec.getLsbD_ofNat]
  have : 32 - 1 - k < 32 := by omega
  simp [hk, this]

/-- Bit `FB[32w + k]` after a word write is bit `31 − k` of the word. -/
theorem fbBit_fbWriteWord (m : Memory) (w : Nat) (d : Word) (i : Nat) :
    fbBit (fbWriteWord m w d) i =
      if 32 * w ≤ i ∧ i < 32 * w + 32 then d.getMsbD (i - 32 * w) else fbBit m i := by
  rw [fbWriteWord, fbBit_fbWrite]
  simp only [natBits_length]
  split
  · rename_i h
    have hk : i - 32 * w < 32 := by omega
    rw [natBits_getD _ _ _ hk]
    simp [BitVec.getMsbD, hk, BitVec.getLsbD]
  · rfl

end Sys2Proof.Machine
end

