-- ==== Sys2Proof/Laws/Decode.lean ====
section
/-! SUPPORT. The fields of a packed command word, and the packed word of a word's fields (30_encoding.md R65). -/

namespace Sys2Proof

theorem packWord_toNat (opc a b : Nat) (ho : opc < 256) (ha : a < 256) (hb : b < 65536) :
    (packWord opc a b).toNat = opc * 16777216 + a * 65536 + b := by
  rw [packWord, BitVec.toNat_ofNat]
  exact Nat.mod_eq_of_lt (by omega)

theorem fieldOpc_packWord (opc a b : Nat) (ho : opc < 256) (ha : a < 256) (hb : b < 65536) :
    fieldOpc (packWord opc a b) = opc := by
  rw [fieldOpc, packWord_toNat opc a b ho ha hb]; omega

theorem fieldA_packWord (opc a b : Nat) (ho : opc < 256) (ha : a < 256) (hb : b < 65536) :
    fieldA (packWord opc a b) = a := by
  rw [fieldA, packWord_toNat opc a b ho ha hb]; omega

theorem fieldB_packWord (opc a b : Nat) (ho : opc < 256) (ha : a < 256) (hb : b < 65536) :
    fieldB (packWord opc a b) = b := by
  rw [fieldB, packWord_toNat opc a b ho ha hb]; omega

theorem fieldOpc_lt (w : Word) : fieldOpc w < 256 := by
  have := w.isLt
  unfold fieldOpc
  omega

theorem fieldA_lt (w : Word) : fieldA w < 256 := Nat.mod_lt _ (by omega)

theorem fieldB_lt (w : Word) : fieldB w < 65536 := Nat.mod_lt _ (by omega)

/-- A word is the packed word of its fields: no bit of it is dropped. -/
theorem packWord_fields (w : Word) : packWord (fieldOpc w) (fieldA w) (fieldB w) = w := by
  apply BitVec.eq_of_toNat_eq
  rw [packWord_toNat _ _ _ (fieldOpc_lt w) (fieldA_lt w) (fieldB_lt w)]
  unfold fieldOpc fieldA fieldB
  omega

/-! ### The words of a command (R66) -/

@[simp] theorem Instr.words_wrcfg (a : Nat) (d : Word) : (Instr.wrcfg a d).words = 2 := rfl
@[simp] theorem Instr.words_wrfb (w : Nat) (d : Word) : (Instr.wrfb w d).words = 2 := rfl

theorem Instr.words_eq_one (i : Instr) (h1 : ∀ a d, i ≠ .wrcfg a d) (h2 : ∀ w d, i ≠ .wrfb w d) : i.words = 1 := by
  cases i <;> first | rfl | exact absurd rfl (h1 _ _) | exact absurd rfl (h2 _ _)

theorem Instr.words_pos (i : Instr) : 0 < i.words := by cases i <;> simp [Instr.words, encode]

end Sys2Proof
end

