-- ==== Sys2Proof/Laws/State.lean ====
section
/-! SUPPORT. What each named update of State leaves in each field: one lemma per field per update, true by rfl. -/

namespace Sys2Proof.Machine

variable (s : State)

/-! ### State.retire -/

@[simp] theorem State.retire_phase (n : Nat) : (s.retire n).phase = s.phase := rfl
@[simp] theorem State.retire_cfg0 (n : Nat) : (s.retire n).cfg0 = s.cfg0 := rfl
@[simp] theorem State.retire_cfg1 (n : Nat) : (s.retire n).cfg1 = s.cfg1 := rfl
@[simp] theorem State.retire_cfg2 (n : Nat) : (s.retire n).cfg2 = s.cfg2 := rfl
@[simp] theorem State.retire_cfg3 (n : Nat) : (s.retire n).cfg3 = s.cfg3 := rfl
@[simp] theorem State.retire_cmdErr (n : Nat) : (s.retire n).cmdErr = s.cmdErr := rfl
@[simp] theorem State.retire_syncWarn (n : Nat) : (s.retire n).syncWarn = s.syncWarn := rfl
@[simp] theorem State.retire_errCode (n : Nat) : (s.retire n).errCode = s.errCode := rfl
@[simp] theorem State.retire_swcnt (n : Nat) : (s.retire n).swcnt = s.swcnt := rfl
@[simp] theorem State.retire_pbc (n : Nat) : (s.retire n).pbc = s.pbc := rfl
@[simp] theorem State.retire_pcrc (n : Nat) : (s.retire n).pcrc = s.pcrc := rfl
@[simp] theorem State.retire_ibc (n : Nat) : (s.retire n).ibc = s.ibc := rfl
@[simp] theorem State.retire_crct (n : Nat) : (s.retire n).crct = s.crct := rfl
@[simp] theorem State.retire_lastio (n : Nat) : (s.retire n).lastio = s.lastio := rfl
@[simp] theorem State.retire_frameBuf (n : Nat) : (s.retire n).frameBuf = s.frameBuf := rfl
@[simp] theorem State.retire_cellBuf (n : Nat) : (s.retire n).cellBuf = s.cellBuf := rfl
@[simp] theorem State.retire_cmd (n : Nat) : (s.retire n).cmd = s.cmd.drop n := rfl
@[simp] theorem State.retire_input (n : Nat) : (s.retire n).input = s.input := rfl
@[simp] theorem State.retire_bbOut (n : Nat) : (s.retire n).bbOut = s.bbOut := rfl
@[simp] theorem State.retire_symOut (n : Nat) : (s.retire n).symOut = s.symOut := rfl
@[simp] theorem State.retire_resp (n : Nat) : (s.retire n).resp = s.resp := rfl

/-! ### State.pushResp -/

@[simp] theorem State.pushResp_phase (v : Word) : (s.pushResp v).phase = s.phase := rfl
@[simp] theorem State.pushResp_cfg0 (v : Word) : (s.pushResp v).cfg0 = s.cfg0 := rfl
@[simp] theorem State.pushResp_cfg1 (v : Word) : (s.pushResp v).cfg1 = s.cfg1 := rfl
@[simp] theorem State.pushResp_cfg2 (v : Word) : (s.pushResp v).cfg2 = s.cfg2 := rfl
@[simp] theorem State.pushResp_cfg3 (v : Word) : (s.pushResp v).cfg3 = s.cfg3 := rfl
@[simp] theorem State.pushResp_cmdErr (v : Word) : (s.pushResp v).cmdErr = s.cmdErr := rfl
@[simp] theorem State.pushResp_syncWarn (v : Word) : (s.pushResp v).syncWarn = s.syncWarn := rfl
@[simp] theorem State.pushResp_errCode (v : Word) : (s.pushResp v).errCode = s.errCode := rfl
@[simp] theorem State.pushResp_swcnt (v : Word) : (s.pushResp v).swcnt = s.swcnt := rfl
@[simp] theorem State.pushResp_pbc (v : Word) : (s.pushResp v).pbc = s.pbc := rfl
@[simp] theorem State.pushResp_pcrc (v : Word) : (s.pushResp v).pcrc = s.pcrc := rfl
@[simp] theorem State.pushResp_ibc (v : Word) : (s.pushResp v).ibc = s.ibc := rfl
@[simp] theorem State.pushResp_crct (v : Word) : (s.pushResp v).crct = s.crct := rfl
@[simp] theorem State.pushResp_lastio (v : Word) : (s.pushResp v).lastio = s.lastio := rfl
@[simp] theorem State.pushResp_frameBuf (v : Word) : (s.pushResp v).frameBuf = s.frameBuf := rfl
@[simp] theorem State.pushResp_cellBuf (v : Word) : (s.pushResp v).cellBuf = s.cellBuf := rfl
@[simp] theorem State.pushResp_cmd (v : Word) : (s.pushResp v).cmd = s.cmd := rfl
@[simp] theorem State.pushResp_input (v : Word) : (s.pushResp v).input = s.input := rfl
@[simp] theorem State.pushResp_bbOut (v : Word) : (s.pushResp v).bbOut = s.bbOut := rfl
@[simp] theorem State.pushResp_symOut (v : Word) : (s.pushResp v).symOut = s.symOut := rfl
@[simp] theorem State.pushResp_resp (v : Word) : (s.pushResp v).resp = s.resp ++ [v] := rfl

/-! ### State.setFrameBuf -/

@[simp] theorem State.setFrameBuf_phase (m : Memory) : (s.setFrameBuf m).phase = s.phase := rfl
@[simp] theorem State.setFrameBuf_cfg0 (m : Memory) : (s.setFrameBuf m).cfg0 = s.cfg0 := rfl
@[simp] theorem State.setFrameBuf_cfg1 (m : Memory) : (s.setFrameBuf m).cfg1 = s.cfg1 := rfl
@[simp] theorem State.setFrameBuf_cfg2 (m : Memory) : (s.setFrameBuf m).cfg2 = s.cfg2 := rfl
@[simp] theorem State.setFrameBuf_cfg3 (m : Memory) : (s.setFrameBuf m).cfg3 = s.cfg3 := rfl
@[simp] theorem State.setFrameBuf_cmdErr (m : Memory) : (s.setFrameBuf m).cmdErr = s.cmdErr := rfl
@[simp] theorem State.setFrameBuf_syncWarn (m : Memory) : (s.setFrameBuf m).syncWarn = s.syncWarn := rfl
@[simp] theorem State.setFrameBuf_errCode (m : Memory) : (s.setFrameBuf m).errCode = s.errCode := rfl
@[simp] theorem State.setFrameBuf_swcnt (m : Memory) : (s.setFrameBuf m).swcnt = s.swcnt := rfl
@[simp] theorem State.setFrameBuf_pbc (m : Memory) : (s.setFrameBuf m).pbc = s.pbc := rfl
@[simp] theorem State.setFrameBuf_pcrc (m : Memory) : (s.setFrameBuf m).pcrc = s.pcrc := rfl
@[simp] theorem State.setFrameBuf_ibc (m : Memory) : (s.setFrameBuf m).ibc = s.ibc := rfl
@[simp] theorem State.setFrameBuf_crct (m : Memory) : (s.setFrameBuf m).crct = s.crct := rfl
@[simp] theorem State.setFrameBuf_lastio (m : Memory) : (s.setFrameBuf m).lastio = s.lastio := rfl
@[simp] theorem State.setFrameBuf_frameBuf (m : Memory) : (s.setFrameBuf m).frameBuf = m := rfl
@[simp] theorem State.setFrameBuf_cellBuf (m : Memory) : (s.setFrameBuf m).cellBuf = s.cellBuf := rfl
@[simp] theorem State.setFrameBuf_cmd (m : Memory) : (s.setFrameBuf m).cmd = s.cmd := rfl
@[simp] theorem State.setFrameBuf_input (m : Memory) : (s.setFrameBuf m).input = s.input := rfl
@[simp] theorem State.setFrameBuf_bbOut (m : Memory) : (s.setFrameBuf m).bbOut = s.bbOut := rfl
@[simp] theorem State.setFrameBuf_symOut (m : Memory) : (s.setFrameBuf m).symOut = s.symOut := rfl
@[simp] theorem State.setFrameBuf_resp (m : Memory) : (s.setFrameBuf m).resp = s.resp := rfl

/-! ### State.setCellBuf -/

@[simp] theorem State.setCellBuf_phase (m : Memory) : (s.setCellBuf m).phase = s.phase := rfl
@[simp] theorem State.setCellBuf_cfg0 (m : Memory) : (s.setCellBuf m).cfg0 = s.cfg0 := rfl
@[simp] theorem State.setCellBuf_cfg1 (m : Memory) : (s.setCellBuf m).cfg1 = s.cfg1 := rfl
@[simp] theorem State.setCellBuf_cfg2 (m : Memory) : (s.setCellBuf m).cfg2 = s.cfg2 := rfl
@[simp] theorem State.setCellBuf_cfg3 (m : Memory) : (s.setCellBuf m).cfg3 = s.cfg3 := rfl
@[simp] theorem State.setCellBuf_cmdErr (m : Memory) : (s.setCellBuf m).cmdErr = s.cmdErr := rfl
@[simp] theorem State.setCellBuf_syncWarn (m : Memory) : (s.setCellBuf m).syncWarn = s.syncWarn := rfl
@[simp] theorem State.setCellBuf_errCode (m : Memory) : (s.setCellBuf m).errCode = s.errCode := rfl
@[simp] theorem State.setCellBuf_swcnt (m : Memory) : (s.setCellBuf m).swcnt = s.swcnt := rfl
@[simp] theorem State.setCellBuf_pbc (m : Memory) : (s.setCellBuf m).pbc = s.pbc := rfl
@[simp] theorem State.setCellBuf_pcrc (m : Memory) : (s.setCellBuf m).pcrc = s.pcrc := rfl
@[simp] theorem State.setCellBuf_ibc (m : Memory) : (s.setCellBuf m).ibc = s.ibc := rfl
@[simp] theorem State.setCellBuf_crct (m : Memory) : (s.setCellBuf m).crct = s.crct := rfl
@[simp] theorem State.setCellBuf_lastio (m : Memory) : (s.setCellBuf m).lastio = s.lastio := rfl
@[simp] theorem State.setCellBuf_frameBuf (m : Memory) : (s.setCellBuf m).frameBuf = s.frameBuf := rfl
@[simp] theorem State.setCellBuf_cellBuf (m : Memory) : (s.setCellBuf m).cellBuf = m := rfl
@[simp] theorem State.setCellBuf_cmd (m : Memory) : (s.setCellBuf m).cmd = s.cmd := rfl
@[simp] theorem State.setCellBuf_input (m : Memory) : (s.setCellBuf m).input = s.input := rfl
@[simp] theorem State.setCellBuf_bbOut (m : Memory) : (s.setCellBuf m).bbOut = s.bbOut := rfl
@[simp] theorem State.setCellBuf_symOut (m : Memory) : (s.setCellBuf m).symOut = s.symOut := rfl
@[simp] theorem State.setCellBuf_resp (m : Memory) : (s.setCellBuf m).resp = s.resp := rfl

/-! ### State.raiseCmd -/

@[simp] theorem State.raiseCmd_phase (e : ErrCode) : (s.raiseCmd e).phase = s.phase := rfl
@[simp] theorem State.raiseCmd_cfg0 (e : ErrCode) : (s.raiseCmd e).cfg0 = s.cfg0 := rfl
@[simp] theorem State.raiseCmd_cfg1 (e : ErrCode) : (s.raiseCmd e).cfg1 = s.cfg1 := rfl
@[simp] theorem State.raiseCmd_cfg2 (e : ErrCode) : (s.raiseCmd e).cfg2 = s.cfg2 := rfl
@[simp] theorem State.raiseCmd_cfg3 (e : ErrCode) : (s.raiseCmd e).cfg3 = s.cfg3 := rfl
@[simp] theorem State.raiseCmd_cmdErr (e : ErrCode) : (s.raiseCmd e).cmdErr = true := rfl
@[simp] theorem State.raiseCmd_syncWarn (e : ErrCode) : (s.raiseCmd e).syncWarn = s.syncWarn := rfl
@[simp] theorem State.raiseCmd_errCode (e : ErrCode) : (s.raiseCmd e).errCode = if s.phase.isFatal then s.errCode else e := rfl
@[simp] theorem State.raiseCmd_swcnt (e : ErrCode) : (s.raiseCmd e).swcnt = s.swcnt := rfl
@[simp] theorem State.raiseCmd_pbc (e : ErrCode) : (s.raiseCmd e).pbc = s.pbc := rfl
@[simp] theorem State.raiseCmd_pcrc (e : ErrCode) : (s.raiseCmd e).pcrc = s.pcrc := rfl
@[simp] theorem State.raiseCmd_ibc (e : ErrCode) : (s.raiseCmd e).ibc = s.ibc := rfl
@[simp] theorem State.raiseCmd_crct (e : ErrCode) : (s.raiseCmd e).crct = s.crct := rfl
@[simp] theorem State.raiseCmd_lastio (e : ErrCode) : (s.raiseCmd e).lastio = s.lastio := rfl
@[simp] theorem State.raiseCmd_frameBuf (e : ErrCode) : (s.raiseCmd e).frameBuf = s.frameBuf := rfl
@[simp] theorem State.raiseCmd_cellBuf (e : ErrCode) : (s.raiseCmd e).cellBuf = s.cellBuf := rfl
@[simp] theorem State.raiseCmd_cmd (e : ErrCode) : (s.raiseCmd e).cmd = s.cmd := rfl
@[simp] theorem State.raiseCmd_input (e : ErrCode) : (s.raiseCmd e).input = s.input := rfl
@[simp] theorem State.raiseCmd_bbOut (e : ErrCode) : (s.raiseCmd e).bbOut = s.bbOut := rfl
@[simp] theorem State.raiseCmd_symOut (e : ErrCode) : (s.raiseCmd e).symOut = s.symOut := rfl
@[simp] theorem State.raiseCmd_resp (e : ErrCode) : (s.raiseCmd e).resp = s.resp := rfl

/-! ### State.raiseCfg -/

@[simp] theorem State.raiseCfg_phase (e : ErrCode) : (s.raiseCfg e).phase = .cfgError := rfl
@[simp] theorem State.raiseCfg_cfg0 (e : ErrCode) : (s.raiseCfg e).cfg0 = s.cfg0 := rfl
@[simp] theorem State.raiseCfg_cfg1 (e : ErrCode) : (s.raiseCfg e).cfg1 = s.cfg1 := rfl
@[simp] theorem State.raiseCfg_cfg2 (e : ErrCode) : (s.raiseCfg e).cfg2 = s.cfg2 := rfl
@[simp] theorem State.raiseCfg_cfg3 (e : ErrCode) : (s.raiseCfg e).cfg3 = s.cfg3 := rfl
@[simp] theorem State.raiseCfg_cmdErr (e : ErrCode) : (s.raiseCfg e).cmdErr = s.cmdErr := rfl
@[simp] theorem State.raiseCfg_syncWarn (e : ErrCode) : (s.raiseCfg e).syncWarn = s.syncWarn := rfl
@[simp] theorem State.raiseCfg_errCode (e : ErrCode) : (s.raiseCfg e).errCode = e := rfl
@[simp] theorem State.raiseCfg_swcnt (e : ErrCode) : (s.raiseCfg e).swcnt = s.swcnt := rfl
@[simp] theorem State.raiseCfg_pbc (e : ErrCode) : (s.raiseCfg e).pbc = s.pbc := rfl
@[simp] theorem State.raiseCfg_pcrc (e : ErrCode) : (s.raiseCfg e).pcrc = s.pcrc := rfl
@[simp] theorem State.raiseCfg_ibc (e : ErrCode) : (s.raiseCfg e).ibc = s.ibc := rfl
@[simp] theorem State.raiseCfg_crct (e : ErrCode) : (s.raiseCfg e).crct = s.crct := rfl
@[simp] theorem State.raiseCfg_lastio (e : ErrCode) : (s.raiseCfg e).lastio = s.lastio := rfl
@[simp] theorem State.raiseCfg_frameBuf (e : ErrCode) : (s.raiseCfg e).frameBuf = s.frameBuf := rfl
@[simp] theorem State.raiseCfg_cellBuf (e : ErrCode) : (s.raiseCfg e).cellBuf = s.cellBuf := rfl
@[simp] theorem State.raiseCfg_cmd (e : ErrCode) : (s.raiseCfg e).cmd = s.cmd := rfl
@[simp] theorem State.raiseCfg_input (e : ErrCode) : (s.raiseCfg e).input = s.input := rfl
@[simp] theorem State.raiseCfg_bbOut (e : ErrCode) : (s.raiseCfg e).bbOut = s.bbOut := rfl
@[simp] theorem State.raiseCfg_symOut (e : ErrCode) : (s.raiseCfg e).symOut = s.symOut := rfl
@[simp] theorem State.raiseCfg_resp (e : ErrCode) : (s.raiseCfg e).resp = s.resp := rfl

/-! ### State.raiseFatal -/

@[simp] theorem State.raiseFatal_phase (e : ErrCode) : (s.raiseFatal e).phase = .fatal := rfl
@[simp] theorem State.raiseFatal_cfg0 (e : ErrCode) : (s.raiseFatal e).cfg0 = s.cfg0 := rfl
@[simp] theorem State.raiseFatal_cfg1 (e : ErrCode) : (s.raiseFatal e).cfg1 = s.cfg1 := rfl
@[simp] theorem State.raiseFatal_cfg2 (e : ErrCode) : (s.raiseFatal e).cfg2 = s.cfg2 := rfl
@[simp] theorem State.raiseFatal_cfg3 (e : ErrCode) : (s.raiseFatal e).cfg3 = s.cfg3 := rfl
@[simp] theorem State.raiseFatal_cmdErr (e : ErrCode) : (s.raiseFatal e).cmdErr = s.cmdErr := rfl
@[simp] theorem State.raiseFatal_syncWarn (e : ErrCode) : (s.raiseFatal e).syncWarn = s.syncWarn := rfl
@[simp] theorem State.raiseFatal_errCode (e : ErrCode) : (s.raiseFatal e).errCode = e := rfl
@[simp] theorem State.raiseFatal_swcnt (e : ErrCode) : (s.raiseFatal e).swcnt = s.swcnt := rfl
@[simp] theorem State.raiseFatal_pbc (e : ErrCode) : (s.raiseFatal e).pbc = s.pbc := rfl
@[simp] theorem State.raiseFatal_pcrc (e : ErrCode) : (s.raiseFatal e).pcrc = s.pcrc := rfl
@[simp] theorem State.raiseFatal_ibc (e : ErrCode) : (s.raiseFatal e).ibc = s.ibc := rfl
@[simp] theorem State.raiseFatal_crct (e : ErrCode) : (s.raiseFatal e).crct = s.crct := rfl
@[simp] theorem State.raiseFatal_lastio (e : ErrCode) : (s.raiseFatal e).lastio = s.lastio := rfl
@[simp] theorem State.raiseFatal_frameBuf (e : ErrCode) : (s.raiseFatal e).frameBuf = s.frameBuf := rfl
@[simp] theorem State.raiseFatal_cellBuf (e : ErrCode) : (s.raiseFatal e).cellBuf = s.cellBuf := rfl
@[simp] theorem State.raiseFatal_cmd (e : ErrCode) : (s.raiseFatal e).cmd = s.cmd := rfl
@[simp] theorem State.raiseFatal_input (e : ErrCode) : (s.raiseFatal e).input = s.input := rfl
@[simp] theorem State.raiseFatal_bbOut (e : ErrCode) : (s.raiseFatal e).bbOut = s.bbOut := rfl
@[simp] theorem State.raiseFatal_symOut (e : ErrCode) : (s.raiseFatal e).symOut = s.symOut := rfl
@[simp] theorem State.raiseFatal_resp (e : ErrCode) : (s.raiseFatal e).resp = s.resp := rfl

/-! ### State.rejected -/

@[simp] theorem State.rejected_phase (n : Nat) (e : ErrCode) : (s.rejected n e).phase = s.phase := rfl
@[simp] theorem State.rejected_cfg0 (n : Nat) (e : ErrCode) : (s.rejected n e).cfg0 = s.cfg0 := rfl
@[simp] theorem State.rejected_cfg1 (n : Nat) (e : ErrCode) : (s.rejected n e).cfg1 = s.cfg1 := rfl
@[simp] theorem State.rejected_cfg2 (n : Nat) (e : ErrCode) : (s.rejected n e).cfg2 = s.cfg2 := rfl
@[simp] theorem State.rejected_cfg3 (n : Nat) (e : ErrCode) : (s.rejected n e).cfg3 = s.cfg3 := rfl
@[simp] theorem State.rejected_cmdErr (n : Nat) (e : ErrCode) : (s.rejected n e).cmdErr = true := rfl
@[simp] theorem State.rejected_syncWarn (n : Nat) (e : ErrCode) : (s.rejected n e).syncWarn = s.syncWarn := rfl
@[simp] theorem State.rejected_errCode (n : Nat) (e : ErrCode) : (s.rejected n e).errCode = if s.phase.isFatal then s.errCode else e := rfl
@[simp] theorem State.rejected_swcnt (n : Nat) (e : ErrCode) : (s.rejected n e).swcnt = s.swcnt := rfl
@[simp] theorem State.rejected_pbc (n : Nat) (e : ErrCode) : (s.rejected n e).pbc = s.pbc := rfl
@[simp] theorem State.rejected_pcrc (n : Nat) (e : ErrCode) : (s.rejected n e).pcrc = s.pcrc := rfl
@[simp] theorem State.rejected_ibc (n : Nat) (e : ErrCode) : (s.rejected n e).ibc = s.ibc := rfl
@[simp] theorem State.rejected_crct (n : Nat) (e : ErrCode) : (s.rejected n e).crct = s.crct := rfl
@[simp] theorem State.rejected_lastio (n : Nat) (e : ErrCode) : (s.rejected n e).lastio = s.lastio := rfl
@[simp] theorem State.rejected_frameBuf (n : Nat) (e : ErrCode) : (s.rejected n e).frameBuf = s.frameBuf := rfl
@[simp] theorem State.rejected_cellBuf (n : Nat) (e : ErrCode) : (s.rejected n e).cellBuf = s.cellBuf := rfl
@[simp] theorem State.rejected_cmd (n : Nat) (e : ErrCode) : (s.rejected n e).cmd = s.cmd.drop n := rfl
@[simp] theorem State.rejected_input (n : Nat) (e : ErrCode) : (s.rejected n e).input = s.input := rfl
@[simp] theorem State.rejected_bbOut (n : Nat) (e : ErrCode) : (s.rejected n e).bbOut = s.bbOut := rfl
@[simp] theorem State.rejected_symOut (n : Nat) (e : ErrCode) : (s.rejected n e).symOut = s.symOut := rfl
@[simp] theorem State.rejected_resp (n : Nat) (e : ErrCode) : (s.rejected n e).resp = s.resp := rfl

/-! ### State.streamReset -/

@[simp] theorem State.streamReset_phase : (s.streamReset).phase = .unconfigured := rfl
@[simp] theorem State.streamReset_cfg0 : (s.streamReset).cfg0 = s.cfg0 := rfl
@[simp] theorem State.streamReset_cfg1 : (s.streamReset).cfg1 = s.cfg1 := rfl
@[simp] theorem State.streamReset_cfg2 : (s.streamReset).cfg2 = s.cfg2 := rfl
@[simp] theorem State.streamReset_cfg3 : (s.streamReset).cfg3 = s.cfg3 := rfl
@[simp] theorem State.streamReset_cmdErr : (s.streamReset).cmdErr = false := rfl
@[simp] theorem State.streamReset_syncWarn : (s.streamReset).syncWarn = false := rfl
@[simp] theorem State.streamReset_errCode : (s.streamReset).errCode = .none := rfl
@[simp] theorem State.streamReset_swcnt : (s.streamReset).swcnt = 0 := rfl
@[simp] theorem State.streamReset_pbc : (s.streamReset).pbc = 0 := rfl
@[simp] theorem State.streamReset_pcrc : (s.streamReset).pcrc = 0 := rfl
@[simp] theorem State.streamReset_ibc : (s.streamReset).ibc = 0 := rfl
@[simp] theorem State.streamReset_crct : (s.streamReset).crct = 0 := rfl
@[simp] theorem State.streamReset_lastio : (s.streamReset).lastio = 0 := rfl
@[simp] theorem State.streamReset_frameBuf : (s.streamReset).frameBuf = s.frameBuf := rfl
@[simp] theorem State.streamReset_cellBuf : (s.streamReset).cellBuf = s.cellBuf := rfl
@[simp] theorem State.streamReset_cmd : (s.streamReset).cmd = s.cmd := rfl
@[simp] theorem State.streamReset_input : (s.streamReset).input = s.input := rfl
@[simp] theorem State.streamReset_bbOut : (s.streamReset).bbOut = s.bbOut := rfl
@[simp] theorem State.streamReset_symOut : (s.streamReset).symOut = s.symOut := rfl
@[simp] theorem State.streamReset_resp : (s.streamReset).resp = s.resp := rfl

/-! ### State.powerOn -/

@[simp] theorem State.powerOn_phase : (s.powerOn).phase = .unconfigured := rfl
@[simp] theorem State.powerOn_cfg0 : (s.powerOn).cfg0 = 0x00000004 := rfl
@[simp] theorem State.powerOn_cfg1 : (s.powerOn).cfg1 = 0 := rfl
@[simp] theorem State.powerOn_cfg2 : (s.powerOn).cfg2 = 0x00000001 := rfl
@[simp] theorem State.powerOn_cfg3 : (s.powerOn).cfg3 = 0 := rfl
@[simp] theorem State.powerOn_cmdErr : (s.powerOn).cmdErr = false := rfl
@[simp] theorem State.powerOn_syncWarn : (s.powerOn).syncWarn = false := rfl
@[simp] theorem State.powerOn_errCode : (s.powerOn).errCode = .none := rfl
@[simp] theorem State.powerOn_swcnt : (s.powerOn).swcnt = 0 := rfl
@[simp] theorem State.powerOn_pbc : (s.powerOn).pbc = 0 := rfl
@[simp] theorem State.powerOn_pcrc : (s.powerOn).pcrc = 0 := rfl
@[simp] theorem State.powerOn_ibc : (s.powerOn).ibc = 0 := rfl
@[simp] theorem State.powerOn_crct : (s.powerOn).crct = 0 := rfl
@[simp] theorem State.powerOn_lastio : (s.powerOn).lastio = 0 := rfl
@[simp] theorem State.powerOn_frameBuf : (s.powerOn).frameBuf = [] := rfl
@[simp] theorem State.powerOn_cellBuf : (s.powerOn).cellBuf = [] := rfl
@[simp] theorem State.powerOn_cmd : (s.powerOn).cmd = s.cmd := rfl
@[simp] theorem State.powerOn_input : (s.powerOn).input = s.input := rfl
@[simp] theorem State.powerOn_bbOut : (s.powerOn).bbOut = [] := rfl
@[simp] theorem State.powerOn_symOut : (s.powerOn).symOut = [] := rfl
@[simp] theorem State.powerOn_resp : (s.powerOn).resp = [] := rfl

end Sys2Proof.Machine
end

