-- ==== Sys2Proof/Laws/Ops.lean ====
section
/-! SUPPORT. What the shared operations and each command's guard do: the three guards on STATE, the events, and one lemma
for each way a command that READY allows can go. -/

namespace Sys2Proof.Machine

/-! ### Guards on STATE (R79) -/

theorem Phase.isFatal_iff (p : Phase) : p.isFatal = true ↔ p = .fatal := by cases p <;> simp [Phase.isFatal]

theorem Phase.isFatal_of_ne {p : Phase} (h : p ≠ .fatal) : p.isFatal = false := by
  cases p <;> simp_all [Phase.isFatal]

theorem Phase.isConfiguring_iff (p : Phase) : p.isConfiguring = true ↔ p = .unconfigured ∨ p = .cfgError := by
  cases p <;> simp [Phase.isConfiguring]

theorem Phase.tables_eq_some_iff (p : Phase) (t : Tables) : p.tables = some t ↔ p = .ready t := by
  cases p <;> simp [Phase.tables]

theorem Phase.tables_eq_none_iff (p : Phase) : p.tables = none ↔ ∀ t, p ≠ .ready t := by
  cases p <;> simp [Phase.tables]

@[simp] theorem Phase.tables_ready (t : Tables) : (Phase.ready t).tables = some t := rfl
@[simp] theorem Phase.tables_unconfigured : Phase.unconfigured.tables = none := rfl
@[simp] theorem Phase.tables_cfgError : Phase.cfgError.tables = none := rfl
@[simp] theorem Phase.tables_fatal : Phase.fatal.tables = none := rfl
@[simp] theorem Phase.isFatal_ready (t : Tables) : (Phase.ready t).isFatal = false := rfl
@[simp] theorem Phase.isFatal_unconfigured : Phase.unconfigured.isFatal = false := rfl
@[simp] theorem Phase.isFatal_cfgError : Phase.cfgError.isFatal = false := rfl
@[simp] theorem Phase.isFatal_fatal : Phase.fatal.isFatal = true := rfl
@[simp] theorem Phase.isConfiguring_ready (t : Tables) : (Phase.ready t).isConfiguring = false := rfl
@[simp] theorem Phase.isConfiguring_unconfigured : Phase.unconfigured.isConfiguring = true := rfl
@[simp] theorem Phase.isConfiguring_cfgError : Phase.cfgError.isConfiguring = true := rfl
@[simp] theorem Phase.isConfiguring_fatal : Phase.fatal.isConfiguring = false := rfl

/-- CMD_STATE outside FATAL and inside it (R266), for a rejected command of any length. -/
theorem State.rejected_eq (s : State) (n : Nat) (e : ErrCode) :
    s.rejected n e = { s with
      cmdErr := true, errCode := if s.phase = .fatal then s.errCode else e, cmd := s.cmd.drop n } := by
  simp only [State.rejected, State.raiseCmd, State.retire]
  cases hp : s.phase <;> simp

/-! ### Every command answers a next state -/

/-- No command faults and none is refused: every command has its effect, its event or its hold in every state. -/
theorem exec_answers (i : Instr) (s : State) : ∃ t, exec i s = .next t := by
  cases i <;> simp only [exec, execNop, execReset, execWrcfg, execRdreg, execCommit, execQneed, execWrfb, execRdfb,
    execRdcb, execFrame, execLdpc, execInterleave, execMap, execCrc8, execCrc8clr, execBchenc, execRand, execBbhdr,
    execRdadj, execRdadjn] <;> (repeat' split) <;> exact ⟨_, rfl⟩

/-- Neither does a step. -/
theorem step_answers (s : State) : ∃ t, step s = .next t := by
  unfold step
  split
  · exact exec_answers _ s
  all_goals exact ⟨_, rfl⟩

/-! ### The words of a command (R66) -/

/-- What a command may leave of CMD: all of it, where FRAME holds, else all but its own words. -/
theorem exec_cmd (i : Instr) (s t : State) (h : exec i s = .next t) :
    (i = .frame ∧ t = s) ∨ t.cmd = s.cmd.drop i.words := by
  cases i <;> simp only [exec, execNop, execReset, execWrcfg, execRdreg, execCommit, execQneed, execWrfb, execRdfb,
    execRdcb, execFrame, execLdpc, execInterleave, execMap, execCrc8, execCrc8clr, execBchenc, execRand, execBbhdr,
    execRdadj, execRdadjn] at h <;> (repeat' split at h) <;> cases h <;>
    first
    | exact .inl ⟨rfl, rfl⟩
    | exact .inr rfl
    | (right; simp only [State.committed]; (repeat' split) <;> rfl)
    | (rename_i hw; simp only [State.writeReg] at hw; split at hw <;> cases hw <;> exact .inr rfl)

/-! ### READY commands whose one effect is a buffer (R79) -/

theorem execBchenc_ready (s : State) (t : Tables) (h : s.phase = .ready t) :
    execBchenc s = .next ((s.setFrameBuf (bchEncode t s.frameBuf)).retire 1) := by simp [execBchenc, h]

theorem execRand_ready (s : State) (t : Tables) (h : s.phase = .ready t) :
    execRand s = .next ((s.setFrameBuf (randomize t s.frameBuf)).retire 1) := by simp [execRand, h]

theorem execBbhdr_ready (s : State) (t : Tables) (h : s.phase = .ready t) :
    execBbhdr s = .next ((s.setFrameBuf (s.writeHeader t)).retire 1) := by simp [execBbhdr, h]

theorem execLdpc_ready (s : State) (t : Tables) (h : s.phase = .ready t) :
    execLdpc s = .next ((s.setFrameBuf (ldpcWrite Config.params.ldpcMode t s.frameBuf)).retire 1) := by
  simp [execLdpc, h]

theorem execInterleave_ready (s : State) (t : Tables) (h : s.phase = .ready t) :
    execInterleave s = .next ((s.setCellBuf (s.interleaved Config.params.regroupNonQpsk t)).retire 1) := by
  simp [execInterleave, h]

theorem execMap_ready (s : State) (t : Tables) (h : s.phase = .ready t) :
    execMap s = .next ((s.mapped Config.params.symFmt t).retire 1) := by simp [execMap, h]

theorem execQneed_ready (s : State) (t : Tables) (h : s.phase = .ready t) :
    execQneed s = .next ((s.pushResp (BitVec.ofNat 32 (s.need t))).retire 1) := by simp [execQneed, h]

/-- FRAME in READY holds while IN is short, and else is done in one step (R204). -/
theorem execFrame_ready (s : State) (t : Tables) (h : s.phase = .ready t) :
    execFrame s = .next (if s.input.length < s.need t then s else (s.frameDone t).retire 1) := by
  simp only [execFrame, h, Phase.tables_ready]
  split <;> rfl

end Sys2Proof.Machine
end

