-- ==== Sys2Proof/Laws/Commit.lean ====
section
/-! SUPPORT. What COMMIT answers (40_control.md R84, R85), and the shapes of the tables it builds. -/

namespace Sys2Proof.Machine

/-- The sizes a row of the Parameter Table fixes, as far as the buffer writes need them (R93). -/
theorem codeParams_sizes {fs : FrameSize} {rate : CodeRate} {c : CodeParams} (h : codeParams fs rate = some c) :
    184 ≤ c.kbch ∧ c.kbch + c.pbch = c.nbch ∧ c.nbch ≤ c.n ∧ c.n ≤ 64800 ∧ 8 ≤ c.pbch ∧ c.pbch < 256 ∧ c.q < 256 := by
  cases fs <;> cases rate <;> simp only [codeParams, ptRow, Option.some.injEq, reduceCtorEq] at h <;> subst h <;>
    decide

/-- The generator of a row has the degree pbch of the row, as R94 assigns the variants. -/
theorem codeParams_variant {fs : FrameSize} {rate : CodeRate} {c : CodeParams} (h : codeParams fs rate = some c) :
    c.pbch = match c.variant with | .n12 => 192 | .n10 => 160 | .s12 => 168 := by
  cases fs <;> cases rate <;> simp only [codeParams, ptRow, Option.some.injEq, reduceCtorEq] at h <;> subst h <;> rfl

theorem selectParams_eq_some (c0 : Word) (rate : CodeRate) (c : CodeParams) :
    selectParams c0 = some (rate, c) ↔ cfgRate c0 = some rate ∧ codeParams (cfgFs c0) rate = some c := by
  unfold selectParams
  constructor
  · intro h
    split at h
    · cases h
    · rename_i r hr
      split at h
      · cases h
      · rename_i d hd
        cases h
        exact ⟨hr, hd⟩
  · rintro ⟨hr, hc⟩
    simp [hr, hc]

/-- A COMMIT that builds tables has passed every check, and the tables are those of `buildTables` (R84). -/
theorem commitTables_ok {p : Params} {c0 c2 : Word} {t : Tables} (h : commitTables p c0 c2 = .ok t) :
    ∃ rate c adj, cfgRate c0 = some rate ∧ codeParams (cfgFs c0) rate = some c ∧
      (cfgInband c0 = true → cfgInbandN c2 ≠ 0) ∧ ilvTableError p c0 rate c = false ∧
      expandLdpc p.ldpcMode p.ldpcCap (p.ldpcBase (cfgFs c0) rate) c = .ok adj ∧
      t = buildTables c (cfgMod c0) (cfgRot c0) adj (p.twist (cfgFs c0) (cfgMod c0) rate)
        (p.mux (cfgFs c0) (cfgMod c0) rate) := by
  unfold commitTables at h
  cases hs : selectParams c0 with
  | none => simp [hs] at h
  | some rc =>
    obtain ⟨rate, c⟩ := rc
    obtain ⟨hr, hc⟩ := (selectParams_eq_some c0 rate c).1 hs
    simp only [hs] at h
    split at h
    · cases h
    · rename_i hin
      split at h
      · cases h
      · rename_i hilv
        split at h
        · cases h
        · rename_i adj hadj
          refine ⟨rate, c, adj, hr, hc, ?_, by simpa using hilv, hadj, (Except.ok.inj h).symm⟩
          intro hb hn
          simp [hb, hn] at hin

/-! ### The checks of the OPEN tables (R146, R221) -/

theorem twistValid_iff (nc nr : Nat) (tw : List Nat) :
    twistValid nc nr tw = true ↔ tw.length = nc ∧ ∀ x ∈ tw, x < nr := by simp [twistValid]

/-- A list of `nc` distinct numbers below `nc` is a permutation of [0, nc). -/
theorem muxValid_iff (nc : Nat) (mx : List Nat) : muxValid nc mx = true ↔ mx.Perm (List.range nc) := by
  simp only [muxValid, Bool.and_eq_true, beq_iff_eq, List.all_eq_true, decide_eq_true_eq]
  constructor
  · rintro ⟨⟨hl, hx⟩, hd⟩
    have hs : mx.Subperm (List.range nc) := List.subperm_of_subset hd fun x h => List.mem_range.2 (hx x h)
    exact hs.perm_of_length_le (by simp [hl])
  · intro h
    exact ⟨⟨by simpa using h.length_eq, fun x hx => List.mem_range.1 (h.mem_iff.1 hx)⟩,
      h.nodup_iff.2 List.nodup_range⟩

theorem ilvTablesValid_iff (nc nr : Nat) (tw mx : Option (List Nat)) :
    ilvTablesValid nc nr tw mx = true ↔
      ∃ t x, tw = some t ∧ mx = some x ∧ twistValid nc nr t = true ∧ muxValid nc x = true := by
  cases tw <;> cases mx <;> simp [ilvTablesValid]

theorem baseWellFormed_eq_false_iff (base : List (List Nat)) (c : CodeParams) :
    baseWellFormed base c = false ↔ base.length ≠ c.nbch / 360 ∨ ∃ row ∈ base, ∃ x ∈ row, c.nldpcp ≤ x := by
  rw [← Bool.not_eq_true]
  simp only [baseWellFormed, Bool.and_eq_true, beq_iff_eq, List.all_eq_true, decide_eq_true_eq, not_and_or, not_forall,
    exists_prop, not_lt, ne_eq]

/-- The two Fatals of the LDPC build, and no other event (R146, R149). -/
theorem expandLdpc_error {mode : LdpcMode} {cap : Nat} {base : Option (List (List Nat))} {c : CodeParams} {e : ErrCode}
    (h : expandLdpc mode cap base c = .error e) : e = .fatalLdpcTable ∨ e = .fatalLdpcCap := by
  unfold expandLdpc at h
  (repeat' split at h) <;> cases h <;> simp

/-- A COMMIT that raises a configuration error raises one of the three of R84; a Fatal is one of the two of R148. -/
theorem commitTables_error {p : Params} {c0 c2 : Word} {e : CommitError} (h : commitTables p c0 c2 = .error e) :
    e = .cfg .cfgRate ∨ e = .cfg .cfgInbandN ∨ e = .cfg .cfgIlvTable ∨ e = .fatal .fatalLdpcTable ∨
      e = .fatal .fatalLdpcCap := by
  unfold commitTables at h
  split at h
  · cases h; simp
  · split at h
    · cases h; simp
    · split at h
      · cases h; simp
      · split at h
        · rename_i e' he
          cases h
          rcases expandLdpc_error he with rfl | rfl <;> simp
        · cases h

@[simp] theorem adjLists_length (c : CodeParams) (base : List (List Nat)) : (adjLists c base).length = c.nldpcp := by
  simp [adjLists]

/-- The adjacency, where it stands, has one list for each parity bit (R148). -/
theorem expandLdpc_ok {mode : LdpcMode} {cap : Nat} {base : Option (List (List Nat))} {c : CodeParams}
    {adj : Option (List (List Nat))} (h : expandLdpc mode cap base c = .ok adj) :
    (adj = none ∧ mode = .zero ∧ base = none) ∨
      ∃ b, base = some b ∧ baseWellFormed b c = true ∧ adjTotal b ≤ cap ∧ adj = some (adjLists c b) := by
  unfold expandLdpc at h
  split at h
  · split at h <;> cases h
    exact .inl ⟨rfl, rfl, rfl⟩
  · rename_i b
    split at h
    · cases h
    · rename_i hw
      split at h <;> cases h
      rename_i hcap
      exact .inr ⟨b, rfl, by simpa using hw, by omega, rfl⟩

@[simp] theorem prefixXor_length (acc : Bool) (v : Bits) : (prefixXor acc v).length = v.length := by
  induction v generalizing acc with
  | nil => rfl
  | cons b v ih => simp [prefixXor, ih]

@[simp] theorem ilvCells_length (nonQpsk : Bool) (c0 : Word) (t : Tables) (fb : Memory) :
    (ilvCells nonQpsk c0 t fb).length = cellCount t.par.n (cfgMod c0) := by simp [ilvCells]

@[simp] theorem mapExact_length (s : State) (t : Tables) :
    (s.mapExact t).length = cellCount t.par.n (cfgMod s.cfg0) := by simp [State.mapExact]

@[simp] theorem buildConst_length (m : Modulation) (rot : Bool) : (buildConst m rot).length = 2 ^ modBits m := by
  simp [buildConst]

/-- No frame has more cells than CELLBUF (R50). -/
theorem cellCount_le (n : Nat) (m : Modulation) (h : n ≤ 64800) : cellCount n m ≤ cbCells := by
  unfold cellCount cbCells
  cases m <;> simp only [modBits] <;> omega

/-! ### The parity bits (R150, R151) -/

/-- An XOR over a list is the parity of the number of its set bits. -/
theorem adjXor_eq (m : Memory) (l : List Nat) :
    adjXor m l = decide ((l.filter fun i => fbBit m i).length % 2 = 1) := by
  have gen : ∀ acc : Bool, l.foldl (fun acc i => xor acc (fbBit m i)) acc =
      xor acc (decide ((l.filter fun i => fbBit m i).length % 2 = 1)) := by
    induction l with
    | nil => simp
    | cons i l ih =>
      intro acc
      rw [List.foldl_cons, ih, List.filter_cons]
      cases fbBit m i
      · simp
      · simp only [if_true, List.length_cons]
        rcases Nat.mod_two_eq_zero_or_one (l.filter fun i => fbBit m i).length with h | h
        · have : ((l.filter fun i => fbBit m i).length + 1) % 2 = 1 := by omega
          simp [h, this]
        · have : ((l.filter fun i => fbBit m i).length + 1) % 2 = 0 := by omega
          simp [h, this]
  rw [adjXor, gen]
  simp

/-- The running XOR at place `k` is the XOR of the first `k + 1` bits. -/
theorem prefixXor_getD (acc : Bool) (v : Bits) (k : Nat) (hk : k < v.length) :
    (prefixXor acc v).getD k false = (v.take (k + 1)).foldl xor acc := by
  induction v generalizing acc k with
  | nil => simp at hk
  | cons b v ih =>
    cases k with
    | zero => simp [prefixXor]
    | succ k =>
      have := ih (xor acc b) k (by simpa using hk)
      simpa [prefixXor] using this

end Sys2Proof.Machine
end

