-- ==== Sys2Proof/Laws/Frame.lean ====
section
/-! SUPPORT. The lengths of what the header, the randomizer, the BCH encoder and the packet loop produce, and what the loop
of FRAME consumes (46_pipeline.md R197 to R206). -/

namespace Sys2Proof.Machine

/-! ### Lengths -/

@[simp] theorem headerFields_length (s : State) (kbch : Nat) : (s.headerFields kbch).length = 72 := by
  simp [State.headerFields]

@[simp] theorem bbHeader_length (s : State) (kbch : Nat) : (s.bbHeader kbch).length = 80 := by
  simp [State.bbHeader]

@[simp] theorem inbandB_length (s : State) : s.inbandB.length = 104 := by simp [State.inbandB]

theorem State.pad_eq (s : State) : s.pad = 104 ∨ s.pad = 0 := by
  unfold State.pad
  split <;> simp

@[simp] theorem lfsrBits_length (n : Nat) (sr : BitVec 15) : (lfsrBits n sr).length = n := by
  induction n generalizing sr with
  | zero => rfl
  | succ n ih => simp [lfsrBits, ih]

@[simp] theorem buildRandSeq_length : buildRandSeq.length = 64800 := by simp [buildRandSeq, randLen]

@[simp] theorem bchParity_length (bcht : List Nat) (p : Nat) (u : Bits) : (bchParity bcht p u).length = p := by
  simp [bchParity]

@[simp] theorem bchSerial_length (glow p : Nat) (u : Bits) : (bchSerial glow p u).length = p := by
  simp [bchSerial]

/-! ### One packet step (R198, R199) -/

theorem nextPbc_toNat (b : Byte) : (nextPbc b).toNat = (b.toNat + 1) % 188 := by
  simp only [nextPbc, BitVec.toNat_ofNat]
  exact Nat.mod_eq_of_lt (lt_trans (Nat.mod_lt _ (by omega)) (by omega))

theorem byte_eq_zero_iff (b : Byte) : b = 0 ↔ b.toNat = 0 := by
  constructor
  · rintro rfl; rfl
  · intro h; exact BitVec.eq_of_toNat_eq (by simpa using h)

/-- Every packet step advances PBC by one, modulo 188. -/
theorem packetStep_pbc (mode : InputMode) (f : PacketState) (b : Byte) :
    (packetStep mode f b).1.pbc.toNat = (f.pbc.toNat + 1) % 188 := by
  cases mode <;> simp only [packetStep, packetStepNm, packetStepHem] <;> split <;> rename_i h
  all_goals first
    | (rw [byte_eq_zero_iff] at h; simp only [h]; rfl)
    | exact nextPbc_toNat _

theorem packetStepNm_out (f : PacketState) (b : Byte) :
    (packetStepNm f b).2 = some (if f.pbc = 0 then f.pcrc else b) := by
  unfold packetStepNm
  split <;> rfl

theorem packetStepNm_pcrc (f : PacketState) (b : Byte) :
    (packetStepNm f b).1.pcrc = if f.pbc = 0 then 0 else crc8Byte f.pcrc b := by
  unfold packetStepNm
  split <;> rfl

theorem packetStepHem_out (f : PacketState) (b : Byte) :
    (packetStepHem f b).2 = if f.pbc = 0 then none else some b := by
  unfold packetStepHem
  split <;> rfl

/-- In HEM a packet step touches PBC alone (R199). -/
theorem packetStepHem_fst (f : PacketState) (b : Byte) :
    (packetStepHem f b).1 = { f with pbc := (packetStepHem f b).1.pbc } := by
  unfold packetStepHem
  split <;> rfl

/-! ### The loop (R197, R202, R203) -/

/-- In NM the loop runs one byte for each data byte. -/
theorem fillData_nm_succ (f : PacketState) (d : Nat) (b : Byte) (bs : List Byte) :
    fillData .nm f (d + 1) (b :: bs) =
      { fillData .nm (packetStepNm f b).1 d bs with
        out := (if f.pbc = 0 then f.pcrc else b) :: (fillData .nm (packetStepNm f b).1 d bs).out
        used := (fillData .nm (packetStepNm f b).1 d bs).used + 1 } := by
  have h := packetStepNm_out f b
  rw [fillData]
  simp only [packetStep]
  split
  · rename_i hs; rw [hs] at h; exact absurd h (by simp)
  · rename_i f' o hs
    rw [hs] at h
    simp only [Option.some.injEq] at h
    simp [hs, h]

/-- In HEM a sync byte is consumed and emits nothing; every other byte emits itself. -/
theorem fillData_hem_succ (f : PacketState) (d : Nat) (b : Byte) (bs : List Byte) :
    fillData .hem f (d + 1) (b :: bs) =
      if f.pbc = 0 then
        { fillData .hem { f with pbc := 1 } (d + 1) bs with
          used := (fillData .hem { f with pbc := 1 } (d + 1) bs).used + 1 }
      else
        { fillData .hem { f with pbc := nextPbc f.pbc } d bs with
          out := b :: (fillData .hem { f with pbc := nextPbc f.pbc } d bs).out
          used := (fillData .hem { f with pbc := nextPbc f.pbc } d bs).used + 1 } := by
  rw [fillData]
  simp only [packetStep, packetStepHem]
  by_cases h : f.pbc = 0
  · rw [if_pos h, if_pos h]
  · rw [if_neg h, if_neg h]

theorem fillData_zero (mode : InputMode) (f : PacketState) (bs : List Byte) :
    fillData mode f 0 bs = { packet := f, out := [], used := 0, rest := bs } := by
  cases bs <;> rfl

/-- NM: with `d` bytes at hand the loop consumes `d`, emits `d` and leaves the rest. -/
theorem fillData_nm (f : PacketState) (d : Nat) (bs : List Byte) (h : d ≤ bs.length) :
    (fillData .nm f d bs).used = d ∧ (fillData .nm f d bs).rest = bs.drop d ∧ (fillData .nm f d bs).out.length = d := by
  induction d generalizing f bs with
  | zero => simp [fillData_zero]
  | succ d ih =>
    cases bs with
    | nil => simp at h
    | cons b bs =>
      have := ih (packetStepNm f b).1 bs (by simpa using h)
      rw [fillData_nm_succ]
      simp [this]

theorem needHem_pos (d c : Nat) : 0 < needHem (d + 1) c := by rw [needHem]; split <;> omega

/-- At a sync byte HEM needs that byte, and then what it needs from the byte after it. -/
theorem needHem_sync (d : Nat) : needHem (d + 1) 0 = 1 + needHem (d + 1) 1 := by
  rw [needHem, needHem]
  simp
  omega

/-- HEM: with NEED bytes at hand the loop consumes NEED, emits `d` and leaves the rest. -/
theorem fillData_hem (f : PacketState) (d : Nat) (bs : List Byte) (h : needHem d f.pbc.toNat ≤ bs.length) :
    (fillData .hem f d bs).used = needHem d f.pbc.toNat ∧
      (fillData .hem f d bs).rest = bs.drop (needHem d f.pbc.toNat) ∧ (fillData .hem f d bs).out.length = d := by
  induction bs generalizing f d with
  | nil =>
    cases d with
    | zero => simp [fillData_zero, needHem]
    | succ d => have := needHem_pos d f.pbc.toNat; simp at h; omega
  | cons b bs ih =>
    cases d with
    | zero => simp [fillData_zero, needHem]
    | succ d =>
      rw [fillData_hem_succ]
      by_cases hz : f.pbc = 0
      · have hc : f.pbc.toNat = 0 := (byte_eq_zero_iff _).1 hz
        rw [hc, needHem_sync] at h ⊢
        have := ih { f with pbc := 1 } (d + 1) (by simp at h ⊢; omega)
        simp only [hz, if_true] at this ⊢
        have e : (BitVec.toNat (1 : Byte)) = 1 := rfl
        rw [e] at this
        refine ⟨by rw [this.1, Nat.add_comm], ?_, this.2.2⟩
        rw [this.2.1, Nat.add_comm 1, List.drop_succ_cons]
      · have hc : f.pbc.toNat ≠ 0 := fun e => hz ((byte_eq_zero_iff _).2 e)
        rw [needHem, if_neg hc] at h ⊢
        have := ih { f with pbc := nextPbc f.pbc } d (by
          simp only [nextPbc_toNat, List.length_cons] at h ⊢; omega)
        simp only [nextPbc_toNat] at this
        rw [if_neg hz]
        refine ⟨by simp [this]; omega, ?_, by simp [this]⟩
        simp only [this]
        rw [Nat.add_comm 1, List.drop_succ_cons]

/-- With NEED() bytes in IN, the loop of FRAME consumes exactly NEED() of them and emits every data byte (R202 to R204). -/
theorem State.filled_spec (s : State) (t : Tables) (h : s.need t ≤ s.input.length) :
    (s.filled t).used = s.need t ∧ (s.filled t).rest = s.input.drop (s.need t) ∧
      (s.filled t).out.length = s.dataBytes t := by
  unfold State.need at h ⊢
  unfold State.filled
  cases hm : cfgInMode s.cfg0 <;> simp only [hm] at h ⊢
  · exact fillData_nm _ _ _ h
  · exact fillData_hem s.packet _ _ h

/-- However many bytes there are, the loop emits at most one byte for each data byte asked for. -/
theorem fillData_out_le (mode : InputMode) (f : PacketState) (d : Nat) (bs : List Byte) :
    (fillData mode f d bs).out.length ≤ d := by
  induction bs generalizing f d with
  | nil => cases d <;> simp [fillData]
  | cons b bs ih =>
    cases d with
    | zero => simp [fillData]
    | succ d =>
      rw [fillData]
      split
      · exact ih _ _
      · simp only [List.length_cons]
        have := ih ‹_› d
        omega

/-- The packet state after the loop: PBC has advanced by the bytes consumed, modulo 188 (R198, R199). -/
theorem fillData_pbc (mode : InputMode) (f : PacketState) (d : Nat) (bs : List Byte) (h : f.pbc.toNat < 188) :
    (fillData mode f d bs).packet.pbc.toNat = (f.pbc.toNat + (fillData mode f d bs).used) % 188 := by
  induction bs generalizing f d with
  | nil => cases d <;> simp [fillData, Nat.mod_eq_of_lt h]
  | cons b bs ih =>
    cases d with
    | zero => simp [fillData, Nat.mod_eq_of_lt h]
    | succ d =>
      have hp := packetStep_pbc mode f b
      have hlt : (packetStep mode f b).1.pbc.toNat < 188 := by rw [hp]; exact Nat.mod_lt _ (by omega)
      rw [fillData]
      split
      · rename_i f' hs
        rw [hs] at hp hlt
        simp only [ih f' _ hlt, hp]
        omega
      · rename_i f' o hs
        rw [hs] at hp hlt
        simp only [ih f' _ hlt, hp]
        omega

/-- In HEM the loop touches PBC alone (R199). -/
theorem fillData_hem_packet (f : PacketState) (d : Nat) (bs : List Byte) :
    (fillData .hem f d bs).packet = { f with pbc := (fillData .hem f d bs).packet.pbc } := by
  induction bs generalizing f d with
  | nil => cases d <;> simp [fillData]
  | cons b bs ih =>
    cases d with
    | zero => simp [fillData]
    | succ d =>
      rw [fillData_hem_succ]
      split
      · exact ih _ _
      · exact ih _ _

/-- The sync warning is raised by a byte at PBC = 0 in NM that is not 0x47, and by nothing else (R198, R269). -/
theorem packetStepNm_warn (f : PacketState) (b : Byte) :
    (packetStepNm f b).1.syncWarn = (f.syncWarn || (decide (f.pbc = 0) && decide (b ≠ syncByte))) ∧
      (packetStepNm f b).1.swcnt = if f.pbc = 0 ∧ b ≠ syncByte then bumpSwcnt f.swcnt else f.swcnt := by
  unfold packetStepNm
  by_cases h : f.pbc = 0
  · by_cases hb : b = syncByte <;> simp [h, hb, PacketState.warn]
  · rw [if_neg h, if_neg fun h' => h h'.1]
    simp only [h, decide_false, Bool.false_and, Bool.or_false, and_self]

theorem bumpSwcnt_toNat (c : BitVec 16) : (bumpSwcnt c).toNat = min (c.toNat + 1) 0xFFFF := by
  simp only [bumpSwcnt, BitVec.toNat_ofNat]
  exact Nat.mod_eq_of_lt (by omega)

/-! ### The CRC of the payload since the last sync byte (R198, R201) -/

theorem slotCrc_zero (pcrc : Byte) (pbc : Nat) (input : List Byte) : slotCrc pcrc pbc input 0 = pcrc := by
  simp [slotCrc]

/-- One byte more: a sync byte starts afresh, and every other byte goes into the CRC. -/
theorem slotCrc_succ (pcrc : Byte) (pbc : Nat) (input : List Byte) (k : Nat) (hk : k < input.length) :
    slotCrc pcrc pbc input (k + 1) =
      if (pbc + k) % 188 = 0 then 0 else crc8Byte (slotCrc pcrc pbc input k) (input.getD k 0) := by
  have hg : input.getD k 0 = input[k] := by simp [hk]
  unfold slotCrc
  dsimp only
  by_cases h : (pbc + k) % 188 = 0
  · rw [if_pos h, show (pbc + (k + 1) + 187) % 188 = 0 by omega]
    simp [crc8]
  · rw [if_neg h, show (pbc + (k + 1) + 187) % 188 = (pbc + k + 187) % 188 + 1 by omega, hg]
    generalize (pbc + k + 187) % 188 = n
    by_cases hl : n < k
    · rw [if_pos hl, if_pos (by omega), show k + 1 - (n + 1) = k - n by omega, crc8, crc8,
        ← List.foldl_concat crc8Byte, List.take_add_one]
      simp [show k - n + n = k by omega, hk]
    · rw [if_neg hl, if_neg (by omega), ← List.foldl_concat crc8Byte, List.take_add_one]
      simp [hk]

end Sys2Proof.Machine
end

