-- ==== Sys2Proof/Laws/PerInstr.lean ====
section
/-! SUPPORT. One lemma per command: its encoding starts with a word of its row's opcode and has its row's length
(30_encoding.md R65, R66, R68). -/

namespace Sys2Proof.Laws.EncodedRow

/-- The encoding of a well-formed command starts with a word whose OPC is that of the opcode-table row of its mnemonic, and
has that row's length, which OPC alone decides. -/
def Statement (i : Instr) : Prop :=
  i.wellFormed = true → ∃ r ∈ opcodeTable, ∃ w rest, r.mnemonic = i.mnemonic ∧ encode i = w :: rest ∧
    fieldOpc w = fieldOpc r.value ∧ r.words = i.words ∧ r.words = commandWords (fieldOpc w)

/-- The opcode table's row `n` for a command that packs `opc`, `a` and `b`. -/
theorem of_row {i : Instr} {opc a b : Nat} {rest : List Word} (n : Nat) (r : OpcodeRow)
    (hr : opcodeTable[n]? = some r) (hm : r.mnemonic = i.mnemonic) (he : encode i = packWord opc a b :: rest)
    (ho : fieldOpc r.value = opc) (hw : r.words = rest.length + 1) (hc : commandWords opc = rest.length + 1)
    (hlo : opc < 256) (hla : a < 256) (hlb : b < 65536) :
    ∃ r ∈ opcodeTable, ∃ w rest, r.mnemonic = i.mnemonic ∧ encode i = w :: rest ∧
      fieldOpc w = fieldOpc r.value ∧ r.words = i.words ∧ r.words = commandWords (fieldOpc w) := by
  refine ⟨r, List.mem_of_getElem? hr, _, _, hm, he, ?_, ?_, ?_⟩
  · rw [fieldOpc_packWord opc a b hlo hla hlb, ho]
  · rw [Instr.words, he, hw, List.length_cons]
  · rw [fieldOpc_packWord opc a b hlo hla hlb, hw, hc]

theorem nop : Statement (.nop) := fun _h =>
  of_row 0 ⟨"NOP", 0xFFFFFFFF, 0x00000000, 1⟩ rfl rfl rfl rfl rfl rfl (by decide)
    (by decide) (by decide)

theorem reset : Statement (.reset) := fun _h =>
  of_row 1 ⟨"RESET", 0xFFFFFFFF, 0x01000000, 1⟩ rfl rfl rfl rfl rfl rfl (by decide)
    (by decide) (by decide)

theorem wrcfg (a : Nat) (d : Word) : Statement (.wrcfg a d) := fun h =>
  of_row 2 ⟨"WRCFG", 0xFF00FFFF, 0x02000000, 2⟩ rfl rfl rfl rfl rfl rfl (by decide)
    (by simpa [Instr.wellFormed, fitsA] using h) (by decide)

theorem rdreg (a : Nat) : Statement (.rdreg a) := fun h =>
  of_row 3 ⟨"RDREG", 0xFF00FFFF, 0x03000000, 1⟩ rfl rfl rfl rfl rfl rfl (by decide)
    (by simpa [Instr.wellFormed, fitsA] using h) (by decide)

theorem commit : Statement (.commit) := fun _h =>
  of_row 4 ⟨"COMMIT", 0xFFFFFFFF, 0x04000000, 1⟩ rfl rfl rfl rfl rfl rfl (by decide)
    (by decide) (by decide)

theorem qneed : Statement (.qneed) := fun _h =>
  of_row 5 ⟨"QNEED", 0xFFFFFFFF, 0x05000000, 1⟩ rfl rfl rfl rfl rfl rfl (by decide)
    (by decide) (by decide)

theorem wrfb (w : Nat) (d : Word) : Statement (.wrfb w d) := fun h =>
  of_row 6 ⟨"WRFB", 0xFFFF0000, 0x06000000, 2⟩ rfl rfl rfl rfl rfl rfl (by decide)
    (by decide) (by simpa [Instr.wellFormed, fitsB] using h)

theorem rdfb (w : Nat) : Statement (.rdfb w) := fun h =>
  of_row 7 ⟨"RDFB", 0xFFFF0000, 0x07000000, 1⟩ rfl rfl rfl rfl rfl rfl (by decide)
    (by decide) (by simpa [Instr.wellFormed, fitsB] using h)

theorem rdcb (j : Nat) : Statement (.rdcb j) := fun h =>
  of_row 8 ⟨"RDCB", 0xFFFF0000, 0x08000000, 1⟩ rfl rfl rfl rfl rfl rfl (by decide)
    (by decide) (by simpa [Instr.wellFormed, fitsB] using h)

theorem frame : Statement (.frame) := fun _h =>
  of_row 9 ⟨"FRAME", 0xFFFFFFFF, 0x10000000, 1⟩ rfl rfl rfl rfl rfl rfl (by decide)
    (by decide) (by decide)

theorem ldpc : Statement (.ldpc) := fun _h =>
  of_row 10 ⟨"LDPC", 0xFFFFFFFF, 0x11000000, 1⟩ rfl rfl rfl rfl rfl rfl (by decide)
    (by decide) (by decide)

theorem interleave : Statement (.interleave) := fun _h =>
  of_row 11 ⟨"INTERLEAVE", 0xFFFFFFFF, 0x12000000, 1⟩ rfl rfl rfl rfl rfl rfl (by decide)
    (by decide) (by decide)

theorem map : Statement (.map) := fun _h =>
  of_row 12 ⟨"MAP", 0xFFFFFFFF, 0x13000000, 1⟩ rfl rfl rfl rfl rfl rfl (by decide)
    (by decide) (by decide)

theorem crc8 (b : Byte) : Statement (.crc8 b) := fun _h =>
  of_row 13 ⟨"CRC8", 0xFFFFFF00, 0x20000000, 1⟩ rfl rfl rfl rfl rfl rfl (by decide)
    (by decide) (lt_trans b.isLt (by decide))

theorem crc8clr : Statement (.crc8clr) := fun _h =>
  of_row 14 ⟨"CRC8CLR", 0xFFFFFFFF, 0x21000000, 1⟩ rfl rfl rfl rfl rfl rfl (by decide)
    (by decide) (by decide)

theorem bchenc : Statement (.bchenc) := fun _h =>
  of_row 15 ⟨"BCHENC", 0xFFFFFFFF, 0x22000000, 1⟩ rfl rfl rfl rfl rfl rfl (by decide)
    (by decide) (by decide)

theorem rand : Statement (.rand) := fun _h =>
  of_row 16 ⟨"RAND", 0xFFFFFFFF, 0x23000000, 1⟩ rfl rfl rfl rfl rfl rfl (by decide)
    (by decide) (by decide)

theorem bbhdr : Statement (.bbhdr) := fun _h =>
  of_row 17 ⟨"BBHDR", 0xFFFFFFFF, 0x24000000, 1⟩ rfl rfl rfl rfl rfl rfl (by decide)
    (by decide) (by decide)

theorem rdadj (k : Nat) (p : Nat) : Statement (.rdadj k p) := fun h =>
  of_row 18 ⟨"RDADJ", 0xFF000000, 0x25000000, 1⟩ rfl rfl rfl rfl rfl rfl (by decide)
    (by simpa [fitsA] using (Bool.and_eq_true_iff.1 h).1) (by simpa [fitsB] using (Bool.and_eq_true_iff.1 h).2)

theorem rdadjn (p : Nat) : Statement (.rdadjn p) := fun h =>
  of_row 19 ⟨"RDADJN", 0xFFFF0000, 0x26000000, 1⟩ rfl rfl rfl rfl rfl rfl (by decide)
    (by decide) (by simpa [Instr.wellFormed, fitsB] using h)

end Sys2Proof.Laws.EncodedRow
end

