-- ==== Sys2Proof/Laws/Run.lean ====
section
/-! SUPPORT. What a step does to the output streams, whatever they hold, and the moves of a run (60_exceptions.md R277). -/

namespace Sys2Proof.Machine

/-! ### The output streams are pushed to and never read (10_state.md R40) -/

/-- The state with other contents in its three output streams. -/
def State.withOutputs (s : State) (o : Pushed) : State := { s with bbOut := o.bb, symOut := o.sym, resp := o.resp }

@[simp] theorem State.withOutputs_phase (s : State) (o : Pushed) : (s.withOutputs o).phase = s.phase := rfl
@[simp] theorem State.withOutputs_cmd (s : State) (o : Pushed) : (s.withOutputs o).cmd = s.cmd := rfl
@[simp] theorem State.withOutputs_input (s : State) (o : Pushed) : (s.withOutputs o).input = s.input := rfl
@[simp] theorem State.withOutputs_need (s : State) (o : Pushed) (t : Tables) :
    (s.withOutputs o).need t = s.need t := rfl

/-- A state that holds the same output items has pushed nothing. -/
theorem State.withOutputs_append_step {s t : State} (o : Pushed) (hb : t.bbOut = s.bbOut) (hy : t.symOut = s.symOut)
    (hr : t.resp = s.resp) : t.withOutputs (o.append (Pushed.step s t)) = t.withOutputs o := by
  simp [State.withOutputs, Pushed.append, Pushed.step, hb, hy, hr]

theorem State.rejected_withOutputs (s : State) (n : Nat) (e : ErrCode) (o : Pushed) :
    (s.withOutputs o).rejected n e = (s.rejected n e).withOutputs (o.append (Pushed.step s (s.rejected n e))) := by
  rw [State.withOutputs_append_step (t := s.rejected n e) (s := s) o rfl rfl rfl]
  rfl

theorem State.committed_withOutputs (s : State) (p : Params) (o : Pushed) :
    (s.withOutputs o).committed p = (s.committed p).withOutputs o ∧
      (s.committed p).bbOut = s.bbOut ∧ (s.committed p).symOut = s.symOut ∧ (s.committed p).resp = s.resp := by
  simp only [State.committed, State.withOutputs, State.raiseCfg, State.raiseFatal]
  repeat' split
  all_goals exact ⟨rfl, rfl, rfl, rfl⟩

theorem State.writeReg_withOutputs (s : State) (a : Nat) (d : Word) (o : Pushed) :
    (s.withOutputs o).writeReg a d = (s.writeReg a d).map (State.withOutputs · o) ∧
      ∀ t, s.writeReg a d = some t → t.bbOut = s.bbOut ∧ t.symOut = s.symOut ∧ t.resp = s.resp := by
  unfold State.writeReg
  split <;> refine ⟨rfl, ?_⟩ <;> rintro t ⟨⟩ <;> exact ⟨rfl, rfl, rfl⟩

/-- A command does the same whatever the output streams hold, and pushes the same items behind what they hold. -/
theorem exec_withOutputs (i : Instr) (s t : State) (o : Pushed) (h : exec i s = .next t) :
    exec i (s.withOutputs o) = .next (t.withOutputs (o.append (Pushed.step s t))) := by
  cases i
  case wrcfg a d =>
    have hw := s.writeReg_withOutputs a d o
    simp only [exec, execWrcfg, State.withOutputs_phase, hw.1] at h ⊢
    split at h <;> rename_i hp
    · rw [if_pos hp]
      split at h <;> cases h <;> rename_i hr <;> simp only [hr, Option.map, State.rejected_withOutputs]
      rename_i u
      rw [State.withOutputs_append_step (t := u.retire 2) (s := s) o (hw.2 u hr).1 (hw.2 u hr).2.1 (hw.2 u hr).2.2]
      rfl
    · cases h
      rw [if_neg hp, State.rejected_withOutputs]
  case commit =>
    have hc := s.committed_withOutputs Config.params o
    simp only [exec, execCommit, State.withOutputs_phase, hc.1] at h ⊢
    split at h <;> cases h <;> rename_i hp
    · rw [if_pos hp, State.withOutputs_append_step (t := (s.committed Config.params).retire 1) (s := s) o hc.2.1
        hc.2.2.1 hc.2.2.2]
      rfl
    · rw [if_neg hp, State.rejected_withOutputs]
  case frame =>
    simp only [exec, execFrame, State.withOutputs_phase, State.withOutputs_need, State.withOutputs_input] at h ⊢
    split at h
    · cases h
      rw [State.rejected_withOutputs]
    · split at h <;> cases h <;> rename_i hl
      · rw [State.withOutputs_append_step (t := s) (s := s) o rfl rfl rfl]
        exact if_pos hl
      · refine (if_neg hl).trans ?_
        simp only [State.withOutputs, Pushed.step, Pushed.append, State.retire, State.frameDone, List.drop_length,
          List.append_nil, List.drop_left]
        rfl
  case rdreg a =>
    simp only [exec, execRdreg] at h ⊢
    split at h <;> cases h
    · simp only [*, State.rejected_withOutputs]
    · rename_i r hr
      simp only [State.withOutputs, Pushed.step, Pushed.append, State.retire, State.pushResp, List.drop_length,
        List.append_nil, List.drop_left]
      cases r <;> rfl
  all_goals
    simp only [exec, execNop, execReset, execQneed, execWrfb, execRdfb, execRdcb, execLdpc, execInterleave, execMap,
      execCrc8, execCrc8clr, execBchenc, execRand, execBbhdr, execRdadj, execRdadjn,
      State.withOutputs_phase] at h ⊢
    (repeat' split at h) <;> cases h <;>
      (try simp only [*, Bool.false_eq_true, ↓reduceIte]) <;>
      first
      | rw [State.rejected_withOutputs]
      | simp [State.withOutputs, Pushed.step, Pushed.append, State.retire, State.pushResp]; done
      | simp [State.withOutputs, Pushed.step, Pushed.append, State.retire, State.mapped]; rfl

/-- So does a step. -/
theorem step_withOutputs (s t : State) (o : Pushed) (h : step s = .next t) :
    step (s.withOutputs o) = .next (t.withOutputs (o.append (Pushed.step s t))) := by
  simp only [step, State.withOutputs_cmd] at h ⊢
  split at h
  · exact exec_withOutputs _ s t o h
  · cases h
    rw [State.rejected_withOutputs]
  all_goals
    cases h
    simp only [State.withOutputs_append_step (t := s) (s := s) o rfl rfl rfl]

/-- What a step pushed stands behind what the streams held. -/
theorem step_outputs (s t : State) (h : step s = .next t) :
    t.bbOut = s.bbOut ++ (Pushed.step s t).bb ∧ t.symOut = s.symOut ++ (Pushed.step s t).sym ∧
      t.resp = s.resp ++ (Pushed.step s t).resp := by
  have hs := step_withOutputs s t { bb := s.bbOut, sym := s.symOut, resp := s.resp } h
  rw [show s.withOutputs { bb := s.bbOut, sym := s.symOut, resp := s.resp } = s from rfl, h] at hs
  simp only [Host.Outcome.next.injEq] at hs
  exact ⟨congrArg State.bbOut hs, congrArg State.symOut hs, congrArg State.resp hs⟩

/-! ### Holds -/

/-- Only an empty CMD has no next command: a first word, whatever it is, decodes, is rejected or waits for its data word. -/
theorem decode_eq_waitCommand_iff (ws : List Word) : decode ws = .waitCommand ↔ ws = [] := by
  constructor
  · intro h
    cases ws with
    | nil => rfl
    | cons w ws =>
      simp only [decode] at h
      split at h <;> (try unfold oneWord at h) <;> (try unfold twoWord at h) <;> (repeat' split at h) <;> cases h
  · rintro rfl
    rfl

/-- The idle hold (R262, case 1). -/
theorem State.hold_eq_idle_iff (s : State) : s.hold = some .idle ↔ s.cmd = [] := by
  rw [← decode_eq_waitCommand_iff]
  unfold State.hold
  split <;> rename_i hd
  · simp [hd]
  · simp [hd]
  · simp [hd]
  · split
    · split <;> simp [hd]
    · simp [hd]

/-! ### The moves of a run (R277) -/

@[simp] theorem Run.moves_nil (r : Run) : r.moves [] = r := rfl
@[simp] theorem Run.moves_cons (r : Run) (m : RunMove) (ms : List RunMove) : r.moves (m :: ms) = (r.move m).moves ms := rfl

theorem Run.moves_append (r : Run) (ms ns : List RunMove) : r.moves (ms ++ ns) = (r.moves ms).moves ns :=
  List.foldl_append

theorem Run.move_core {r : Run} {t : State} (h : step r.state = .next t) :
    r.move .core = { state := t, pushed := r.pushed.append (Pushed.step r.state t) } := by
  simp [Run.move, h]

@[simp] theorem Run.move_host (r : Run) (m : HostMove) : r.move (.host m) = { r with state := r.state.host m } := rfl

theorem Run.result_eq (r : Run) : r.result = if r.state.cmd = [] then some (r.state, r.pushed) else none := by
  simp only [Run.result, State.hold_eq_idle_iff]

/-- What holds at the start of every run, and is kept by every core step and every host move, holds in every state that a
run reaches. -/
theorem Reachable.induct {P : State → Prop} (start : ∀ s : State, P s.powerOn)
    (core : ∀ s t : State, P s → step s = .next t → P t) (host : ∀ (s : State) (m : HostMove), P s → P (s.host m))
    {t : State} (h : Reachable t) : P t := by
  obtain ⟨s, ms, rfl⟩ := h
  have along : ∀ (ms : List RunMove) (r : Run), P r.state → P (r.moves ms).state := by
    intro ms
    induction ms with
    | nil => exact fun r hr => hr
    | cons m ms ih =>
      intro r hr
      cases m with
      | core =>
        obtain ⟨t, ht⟩ := step_answers r.state
        rw [Run.moves_cons, Run.move_core ht]
        exact ih _ (core _ _ hr ht)
      | host m => exact ih _ (host _ m hr)
  exact along ms _ (start s)

end Sys2Proof.Machine
end

