-- ==== Sys2Proof/Tests/Slice0.lean ====
section
/-! SUPPORT. The model's own tests: ill-formed commands, words written out from spec/30_encoding.md, and single steps whose
expected results are those of spec/95_test_vectors.md and of the tables in the rules. -/

namespace Sys2Proof.Tests

open Sys2Proof.Machine

/-! ### Helpers -/

/-- A view of the state after a command, where it answers one. -/
def after {α : Type} (o : Host.Outcome State Fault Refusal) (view : State → α) : Option α :=
  match o with
  | .next s => some (view s)
  | .fault _ => none
  | .refused _ => none

/-- Code parameters, small enough to evaluate; no row of the Parameter Table. -/
def smallPar : CodeParams := { kbch := 200, nbch := 208, pbch := 8, variant := .s12, q := 1, n := 568 }

/-- Tables for those parameters: the degree-8 generator x^8 + x^2 + x + 1, the first 200 bits of RSEQ, four adjacency lists
and a QPSK constellation. -/
def smallTables : Tables where
  par := smallPar
  bchg := 0x107
  bcht := buildBchTable 0x107 8
  rseq := lfsrBits 200 randSeed
  adj := some [[0], [], [1, 1], [0, 1]]
  tw := []
  mx := []
  points := buildConst .qpsk false

/-- READY with the given tables and CFG0, everything else as after power-on. -/
def ready (t : Tables) (c0 : Word) : State := { State.reset with phase := .ready t, cfg0 := c0 }

/-- Tables that hold a row of the Parameter Table and nothing else. -/
def parTables (c : CodeParams) : Tables :=
  { par := c, bchg := 0, bcht := [], rseq := [], adj := none, tw := [], mx := [], points := [] }

/-- NORMAL 1/2 (R93). -/
def normalHalf : CodeParams := { kbch := 32208, nbch := 32400, pbch := 192, variant := .n12, q := 90, n := 64800 }

/-- SHORT 1/2 (R93). -/
def shortHalf : CodeParams := { kbch := 7032, nbch := 7200, pbch := 168, variant := .s12, q := 25, n := 16200 }

/-- The parameters of spec/95_test_vectors.md §0: ZERO mode, every table absent. -/
def vectorParams (mode : LdpcMode) (base : Option (List (List Nat))) (cap : Nat) : Params where
  ldpcMode := mode
  ldpcBase := fun _ _ => base
  ldpcCap := cap
  twist := fun _ _ _ => none
  mux := fun _ _ _ => none
  regroupNonQpsk := false
  symFmt := fun _ => ⟨0, 0⟩

/-- The toy table of V-LDPC: row 0 = [0, 5], rows 1 to 19 empty. -/
def toyBase : List (List Nat) := [0, 5] :: List.replicate 19 []

/-- The first `n` bytes of the packet stream PK(n, 0). -/
def pk (n : Nat) : List Byte := (List.range n).map fun i => if i % 188 = 0 then 0x47 else BitVec.ofNat 8 (i % 188)

/-! ### WellFormed refuses each ill-formed operand -/

theorem test_ill_formed_wrcfg_index : (Instr.wrcfg 256 0).wellFormed = false := by decide
theorem test_ill_formed_rdreg_index : (Instr.rdreg 256).wellFormed = false := by decide
theorem test_ill_formed_wrfb_index : (Instr.wrfb 65536 0).wellFormed = false := by decide
theorem test_ill_formed_rdfb_index : (Instr.rdfb 65536).wellFormed = false := by decide
theorem test_ill_formed_rdcb_index : (Instr.rdcb 65536).wellFormed = false := by decide
theorem test_ill_formed_rdadj_entry : (Instr.rdadj 256 0).wellFormed = false := by decide
theorem test_ill_formed_rdadj_parity : (Instr.rdadj 0 65536).wellFormed = false := by decide
theorem test_ill_formed_rdadjn_parity : (Instr.rdadjn 65536).wellFormed = false := by decide
theorem test_well_formed_at_the_bounds :
    (Instr.wrcfg 255 0xFFFFFFFF).wellFormed = true ∧ (Instr.rdadj 255 65535).wellFormed = true := by decide

/-! ### Decoding words written out from R65 and R68 -/

theorem test_decode_nop : decode [0x00000000] = .ok .nop := by decide
theorem test_decode_reset : decode [0x01000000] = .ok .reset := by decide
/-- R74. -/
theorem test_decode_wrcfg : decode [0x02000000, 0x00000004] = .ok (.wrcfg 0x00 0x4) := by decide
/-- R74: `RDREG STATUS`. -/
theorem test_decode_rdreg : decode [0x03100000] = .ok (.rdreg 0x10) := by decide
theorem test_decode_commit : decode [0x04000000] = .ok .commit := by decide
theorem test_decode_qneed : decode [0x05000000] = .ok .qneed := by decide
/-- P3: `WRFB 219, 0x100`. -/
theorem test_decode_wrfb : decode [0x060000DB, 0x00000100] = .ok (.wrfb 219 0x100) := by decide
/-- P6: `RDFB 2025`. -/
theorem test_decode_rdfb : decode [0x070007E9] = .ok (.rdfb 2025) := by decide
/-- P6: `RDCB 32400`. -/
theorem test_decode_rdcb : decode [0x08007E90] = .ok (.rdcb 32400) := by decide
/-- R76: `ENCODE`. -/
theorem test_decode_encode_words :
    [0x10000000, 0x11000000, 0x12000000, 0x13000000].map (fun w => decode [w]) =
      [.ok .frame, .ok .ldpc, .ok .interleave, .ok .map] := by decide
theorem test_decode_crc8 : decode [0x20000047] = .ok (.crc8 0x47) := by decide
theorem test_decode_crc8clr : decode [0x21000000] = .ok .crc8clr := by decide
theorem test_decode_buffer_stages :
    [0x22000000, 0x23000000, 0x24000000].map (fun w => decode [w]) = [.ok .bchenc, .ok .rand, .ok .bbhdr] := by decide
/-- R74: `RDADJ 0, 17`; A is used, so any A is legal. -/
theorem test_decode_rdadj : decode [0x25000011] = .ok (.rdadj 0 17) ∧ decode [0x25FF0000] = .ok (.rdadj 255 0) := by
  decide
theorem test_decode_rdadjn : decode [0x26002327] = .ok (.rdadjn 8999) := by decide
/-- L2.2: reserved opcodes. -/
theorem test_decode_reserved :
    [0x09000000, 0x0F123456, 0x14000000, 0x1F000000, 0x27000000, 0xFF000000].map (fun w => decode [w]) =
      List.replicate 6 (.reject .reservedOpcode 1) := by decide
/-- L2.2: non-zero unused fields, with the length of the command. -/
theorem test_decode_unused_fields :
    [0x00000001, 0x10000001, 0x03100001, 0x20000147, 0x07010000, 0x21000001].map (fun w => decode [w]) =
        List.replicate 6 (.reject .unusedField 1) ∧
      decode [0x06010000, 0x03000000] = .reject .unusedField 2 ∧
      decode [0x02000001, 0x00000000] = .reject .unusedField 2 := by decide
/-- R66: a missing data word is a hold, also before a rejection. -/
theorem test_decode_waits : decode [] = .waitCommand ∧ decode [0x02000000] = .waitData ∧
    decode [0x06010000] = .waitData := by decide
/-- R74's forms. -/
theorem test_asm_forms :
    [Instr.wrcfg 0 4, .rdreg 0x10, .wrfb 219 320, .crc8 71, .rdadj 0 17, .nop].map Instr.asm =
      ["WRCFG CFG0, 4", "RDREG STATUS", "WRFB 219, 320", "CRC8 71", "RDADJ 0, 17", "NOP"] := by decide +kernel
/-- The host's numbering: a 2-word row whose data word has no bits in the table reads as zero. -/
theorem test_decode_table_word :
    decodeTableWord 32 0x10000000 = some .frame ∧ decodeTableWord 32 0x020000 = none ∧
      decodeTableWord 64 0x0000000402000000 = some (.wrcfg 0 4) ∧
      decodeTableWord 32 0x06000003 = some (.wrfb 3 0) := by decide

/-! ### Single steps -/

theorem test_step_from_reset_runs_a_nop :
    step (State.reset.withFetchWord 32 0x00000000) = .next State.reset := rfl
theorem test_step_idle_holds : step State.reset = .next State.reset := rfl
/-- V-ENC-1: the rejected WRFB takes its data word, and the next command follows. -/
theorem test_step_rejected_two_word_command :
    after (step { State.reset with cmd := [0x06010000, 0x03000000, 0x03000000] }) (fun s => (s.status, s.cmd)) =
      some (0x74, [0x03000000]) := by decide

theorem test_nop : exec .nop State.reset = .next State.reset := rfl
/-- P6 step 25. -/
theorem test_reset_clears_status :
    after (exec .reset { ready smallTables 0x205 with cmdErr := true, errCode := .cmdIndex }) (fun s => (s.status, s.cfg0)) = some (0, 0x205) := by decide
/-- P7 step 2: refused in FATAL, ERRCODE kept. -/
theorem test_reset_refused_in_fatal :
    after (exec .reset { State.reset with phase := .fatal, errCode := .fatalLdpcTable }) State.status = some 0x47 := by
  decide
/-- V-CTL-4. -/
theorem test_wrcfg_masks :
    after (exec (.wrcfg 0x01 0xFFFFFFFF) State.reset) State.cfg1 = some 0x07FFFFFF ∧
      after (exec (.wrcfg 0x03 0x12345678) State.reset) State.cfg3 = some 0x00005678 := by decide
/-- P6 step 9: `WRCFG STATUS, 0`, with CMDERR clear before it and STATE unconfigured. -/
theorem test_wrcfg_status_is_cmd_reg :
    after (exec (.wrcfg 0x10 0) State.reset) State.status = some 0x84 := by decide
/-- V-CTL-5. -/
theorem test_rdreg_after_power_on :
    [0x00, 0x01, 0x02, 0x03, 0x10, 0x11, 0x12, 0x13, 0x14, 0x15].map
        (fun a => after (exec (.rdreg a) State.reset) State.resp) =
      [4, 0, 1, 0, 0, 0, 0, 0, 0, 0].map fun v => some [v] := by decide
/-- P6 step 8. -/
theorem test_rdreg_reserved_index :
    after (exec (.rdreg 0x04) State.reset) (fun s => (s.resp, s.status)) = some ([], 0x84) := by decide
/-- V-CTL-2: NORMAL 1/3, and RATE = 15. -/
theorem test_commit_rejects_rate :
    after (exec .commit { State.reset with cfg0 := 0 }) State.status = some 0x12 ∧
      after (exec .commit { State.reset with cfg0 := 0x3FF }) State.status = some 0x12 := by decide
/-- P1, V-CTL-1 (SHORT 1/2), V-ILV-10, V-LDPC-5. -/
theorem test_commit_with_the_vectors_parameters :
    (let s := State.reset.committed (vectorParams .zero none 0); (s.status, s.param0, s.param1)) =
        (1, 0x7E907DD0, 0xFD205AC0) ∧
      ({ State.reset with cfg0 := 0x24 }.committed (vectorParams .zero none 0)).status = 0x32 ∧
      ({ State.reset with cfg0 := 5 }.committed (vectorParams .computed none 0)).status = 0x43 ∧
      ({ State.reset with cfg0 := 5 }.committed (vectorParams .computed (some toyBase) 719)).status = 0x53 := by
  decide +kernel
/-- V-CTL-3 (SHORT 1/2 HEM, PBC 0 and 100), V-CTL-1 (NORMAL 1/2, in-band). -/
theorem test_qneed :
    after (exec .qneed (ready (parTables shortHalf) 0x105)) State.resp = some [874] ∧
      after (exec .qneed { ready (parTables shortHalf) 0x105 with pbc := 100 }) State.resp = some [874] ∧
      after (exec .qneed (ready (parTables normalHalf) 0x204)) State.resp = some [4003] := by decide +kernel
/-- P3: FB[7031] = 1. -/
theorem test_wrfb :
    after (exec (.wrfb 219 0x100) State.reset) (fun s => (fbBit s.frameBuf 7030, fbBit s.frameBuf 7031, s.frameBuf)) =
      some (false, true, [(878, 1)]) := by decide
theorem test_wrfb_index : after (exec (.wrfb 2025 1) State.reset) State.status = some 0x94 := by decide
/-- R51: FB[0] is the most significant bit of word 0. -/
theorem test_rdfb :
    after (exec (.rdfb 0) { State.reset with frameBuf := [(0, 0x80), (3, 0x01), (4, 0xFF)] }) State.resp =
      some [0x80000001] := by decide
theorem test_rdcb :
    after (exec (.rdcb 32399) { State.reset with cellBuf := [(32399, 0xA5)] }) State.resp = some [0xA5] ∧
      after (exec (.rdcb 32400) State.reset) State.status = some 0x94 := by decide
/-- L2.3. -/
theorem test_crc8 :
    after (exec (.crc8 0x47) State.reset) State.crct = some 0xC9 ∧
      after (exec (.crc8 0x00) { State.reset with crct := 0x5A }) State.crct = some 0x99 := by decide
/-- L2.3, P2. -/
theorem test_crc8_check_value :
    crc8 [0x31, 0x32, 0x33, 0x34, 0x35, 0x36, 0x37, 0x38, 0x39] = 0xBC := by decide +kernel
theorem test_crc8clr : after (exec .crc8clr { State.reset with crct := 0xC9 }) State.crct = some 0 := by decide

/-- R119, rows 0 to 3. -/
theorem test_crc_table_part0 : (crc8Table.drop 0).take 64 =
    [0x00, 0xD5, 0x7F, 0xAA, 0xFE, 0x2B, 0x81, 0x54, 0x29, 0xFC, 0x56, 0x83, 0xD7, 0x02, 0xA8, 0x7D,
      0x52, 0x87, 0x2D, 0xF8, 0xAC, 0x79, 0xD3, 0x06, 0x7B, 0xAE, 0x04, 0xD1, 0x85, 0x50, 0xFA, 0x2F,
      0xA4, 0x71, 0xDB, 0x0E, 0x5A, 0x8F, 0x25, 0xF0, 0x8D, 0x58, 0xF2, 0x27, 0x73, 0xA6, 0x0C, 0xD9,
      0xF6, 0x23, 0x89, 0x5C, 0x08, 0xDD, 0x77, 0xA2, 0xDF, 0x0A, 0xA0, 0x75, 0x21, 0xF4, 0x5E, 0x8B] := by decide +kernel

/-- R119, rows 4 to 7. -/
theorem test_crc_table_part1 : (crc8Table.drop 64).take 64 =
    [0x9D, 0x48, 0xE2, 0x37, 0x63, 0xB6, 0x1C, 0xC9, 0xB4, 0x61, 0xCB, 0x1E, 0x4A, 0x9F, 0x35, 0xE0,
      0xCF, 0x1A, 0xB0, 0x65, 0x31, 0xE4, 0x4E, 0x9B, 0xE6, 0x33, 0x99, 0x4C, 0x18, 0xCD, 0x67, 0xB2,
      0x39, 0xEC, 0x46, 0x93, 0xC7, 0x12, 0xB8, 0x6D, 0x10, 0xC5, 0x6F, 0xBA, 0xEE, 0x3B, 0x91, 0x44,
      0x6B, 0xBE, 0x14, 0xC1, 0x95, 0x40, 0xEA, 0x3F, 0x42, 0x97, 0x3D, 0xE8, 0xBC, 0x69, 0xC3, 0x16] := by decide +kernel

/-- R119, rows 8 to 11. -/
theorem test_crc_table_part2 : (crc8Table.drop 128).take 64 =
    [0xEF, 0x3A, 0x90, 0x45, 0x11, 0xC4, 0x6E, 0xBB, 0xC6, 0x13, 0xB9, 0x6C, 0x38, 0xED, 0x47, 0x92,
      0xBD, 0x68, 0xC2, 0x17, 0x43, 0x96, 0x3C, 0xE9, 0x94, 0x41, 0xEB, 0x3E, 0x6A, 0xBF, 0x15, 0xC0,
      0x4B, 0x9E, 0x34, 0xE1, 0xB5, 0x60, 0xCA, 0x1F, 0x62, 0xB7, 0x1D, 0xC8, 0x9C, 0x49, 0xE3, 0x36,
      0x19, 0xCC, 0x66, 0xB3, 0xE7, 0x32, 0x98, 0x4D, 0x30, 0xE5, 0x4F, 0x9A, 0xCE, 0x1B, 0xB1, 0x64] := by decide +kernel

/-- R119, rows 12 to 15. -/
theorem test_crc_table_part3 : (crc8Table.drop 192).take 64 =
    [0x72, 0xA7, 0x0D, 0xD8, 0x8C, 0x59, 0xF3, 0x26, 0x5B, 0x8E, 0x24, 0xF1, 0xA5, 0x70, 0xDA, 0x0F,
      0x20, 0xF5, 0x5F, 0x8A, 0xDE, 0x0B, 0xA1, 0x74, 0x09, 0xDC, 0x76, 0xA3, 0xF7, 0x22, 0x88, 0x5D,
      0xD6, 0x03, 0xA9, 0x7C, 0x28, 0xFD, 0x57, 0x82, 0xFF, 0x2A, 0x80, 0x55, 0x01, 0xD4, 0x7E, 0xAB,
      0x84, 0x51, 0xFB, 0x2E, 0x7A, 0xAF, 0x05, 0xD0, 0xAD, 0x78, 0xD2, 0x07, 0x53, 0x86, 0x2C, 0xF9] := by decide +kernel

/-- V-BBH-1: NORMAL 1/2 after power-on. -/
theorem test_bbhdr :
    after (exec .bbhdr (ready (parTables normalHalf) 0x4))
        (fun s => (fbReadWord s.frameBuf 0, fbReadWord s.frameBuf 1, fbReadWord s.frameBuf 2)) =
      some (0x000005E0, 0x7D804700, 0x006C0000) := by decide +kernel
/-- V-BBH-3: SHORT 1/2, HEM, in-band. -/
theorem test_bbhdr_inband :
    after (exec .bbhdr { ready (parTables shortHalf) 0x305 with cfg1 := 0x1234567, cfg2 := 2, cfg3 := 0xF000 })
        (fun s => [0, 1, 2, 3, 4, 5].map (fbReadWord s.frameBuf)) =
      some [0xF00005E0, 0x1AC04700, 0x001F4000, 0x00000000, 0x0000048D, 0x159C0000] := by decide +kernel
/-- V-RAND-1, over the first 200 bits. -/
theorem test_rand :
    after (exec .rand (ready smallTables 0x4)) (fun s => [0, 1, 2, 3].map (fbReadWord s.frameBuf)) =
      some [0x03F60834, 0x30B8A393, 0xC968B773, 0xB329AAF5] := by decide +kernel
/-- R130 by hand with g(x) = x^8 + x^2 + x + 1: the message x^0 has the remainder of x^8, 0x07, and FB[0, 200) is kept. -/
theorem test_bchenc :
    after (exec .bchenc { ready smallTables 0x4 with frameBuf := [(24, 0x01)] }) State.frameBuf =
      some [(24, 0x01), (25, 0x07)] := by decide +kernel
/-- R150, R151 by hand on the four lists of `smallTables` with FB[0] = 1: the XORs 1, 0, 0, 1, and their prefixes. -/
theorem test_ldpc_parity :
    ldpcParity .computed smallTables [(0, 0x80)] = [true, true, true, false] ∧
      ldpcParity .zero (parTables { smallPar with n := 210 }) [(0, 0x80)] = [false, false] := by decide +kernel
/-- V-LDPC (the toy table), its expansion near one seed. -/
theorem test_expand_rotates_each_seed :
    (groupEntries shortHalf 0 [0, 5]).take 4 = [(0, 0), (5, 0), (25, 1), (30, 1)] ∧
      (groupEntries shortHalf 0 [0, 5]).getLast? = some (8980, 359) := by decide +kernel
/-- R153: an entry, past the end, and beyond the parity bits. -/
theorem test_rdadj :
    after (exec (.rdadj 1 3) (ready smallTables 0x5)) State.resp = some [1] ∧
      after (exec (.rdadj 1 0) (ready smallTables 0x5)) State.resp = some [0xFFFFFFFF] ∧
      after (exec (.rdadj 0 360) (ready smallTables 0x5)) State.status = some 0x95 := by decide
/-- R154; V-LDPC-6: ABSENT. -/
theorem test_rdadjn :
    after (exec (.rdadjn 2) (ready smallTables 0x5)) State.resp = some [2] ∧
      after (exec (.rdadjn 0) (ready (parTables shortHalf) 0x5)) State.status = some 0xA5 := by decide
/-- R227: the pairs of bits 11 01 10 00. -/
theorem test_interleave_qpsk :
    after (exec .interleave { ready (parTables { smallPar with n := 8 }) 0x4 with frameBuf := [(0, 0xD8)] })
      State.cellBuf = some [(0, 3), (1, 1), (2, 2)] := by decide +kernel
/-- R230: NORMAL 16QAM with the candidate tables, by the closed form. -/
theorem test_interleave_places :
    [0, 8099, 8100, 16200, 24299].map (ilvPlace 4 8 8100 [0, 0, 2, 4, 4, 5, 7, 7] [7, 1, 4, 2, 5, 3, 6, 0]) =
      [(1, 3), (16199, 3), (0, 1), (5, 0), (3, 0)] := by decide +kernel
/-- R242, R248: (I, Q) before normalisation of the cells R248 lists. -/
theorem test_map_points :
    [0, 1, 2, 3].map (fun v => (pointI 2 v, pointQ 2 v)) = [(1, 1), (1, -1), (-1, 1), (-1, -1)] ∧
      [0, 1, 15].map (fun v => (pointI 4 v, pointQ 4 v)) = [(3, 3), (3, 1), (-1, -1)] ∧
      (pointI 6 0, pointQ 6 0) = (7, 7) ∧ (pointI 8 0, pointQ 8 0) = (15, 15) := by decide
/-- R245: symbol 0 takes the imaginary part of the frame's last cell. -/
theorem test_map_delays_q :
    let t : Tables := { parTables { smallPar with n := 4 } with points := buildConst .qpsk true }
    (State.mapExact { ready t 0x84 with cellBuf := [(1, 3)] } t).map (fun z => (z.re.cosCoef, z.im.cosCoef)) =
      [(1, -1), (-1, 1)] := by decide +kernel
/-- V-FRM-6 in small: 14 of the 15 bytes needed. -/
theorem test_frame_holds :
    exec .frame { ready smallTables 0x4 with input := pk 14 } = .next { ready smallTables 0x4 with input := pk 14 } :=
  rfl
/-- V-FRM-4 in small: 15 bytes, the first no sync byte; PBC, LASTIO and the warning. -/
theorem test_frame_counts_a_mismatch :
    after (exec .frame { ready smallTables 0x4 with input := 0x00 :: (pk 15).drop 1 })
      (fun s => (s.pbc, s.lastio, s.status, s.input, s.bbOut.length)) =
      some (15, 0x00D0000F, 0x00010009, [], 208) := by decide +kernel
/-- V-FRM-1 and V-FRM-2 in small: PCRC is 0xC0 after the 67 payload bytes 0x01 to 0x43 of a packet, and goes on from there to
0x55 after 0x87. -/
theorem test_frame_pcrc :
    slotCrc 0 0 (pk 256) 256 = 0xC0 ∧ slotCrc 0xC0 68 ((pk 136).drop 68) 68 = 0x55 ∧
      (fillData .nm State.reset.packet 256 (pk 256)).packet.pcrc = 0xC0 ∧
      (fillData .nm { pbc := 68, pcrc := 0xC0, syncWarn := false, swcnt := 0 } 68 ((pk 136).drop 68)).packet.pcrc = 0x55 := by decide +kernel

/-! ### Runs -/

/-- Power-on reset keeps what the host has queued, and a run starts with its output streams empty (R43, R280). -/
theorem test_power_on_keeps_queued_input :
    ({ State.reset with phase := .fatal, cmd := [0], input := [0x47], resp := [7] } : State).powerOn =
      { State.reset with cmd := [0], input := [0x47] } := rfl
/-- R277: the result holds both responses, though the host drained the first; a run that waits for a data word has none. -/
theorem test_run_result :
    (((Run.start State.reset).moves
        [.host (.command [0x03000000]), .core, .host (.drainResp 1), .host (.command [0x03020000]), .core]).result).map
        (fun r => (r.1.resp, r.2.resp)) = some ([1], [4, 1]) ∧
      ((Run.start State.reset).moves [.host (.command [0x02000000]), .core]).result = none := by decide

/-! ### Witnesses: the hypotheses of the statements can be met, at the bounds of their ranges -/

/-- READY with the tables of SHORT 1/2, QPSK, as COMMIT builds them. -/
def shortTables : Tables := buildTables shortHalf .qpsk false none none none

theorem short_rseq_length : shortTables.rseq.length = 64800 := buildRandSeq_length

/-- A state for statements about a FRAME that completes: enough input, in NM, one byte into a packet. -/
def frameState (t : Tables) (c0 : Word) : State :=
  { ready t c0 with pbc := 187, pcrc := 0x5A, input := List.replicate 900 0x12 }

theorem frame_state_need_nm : (frameState shortTables 0x5).need shortTables = 869 := by decide
theorem frame_state_input : (frameState shortTables 0x5).input.length = 900 := List.length_replicate

theorem witness_ResetCommandAppliesStreamReset :
    (ready smallTables 0x5).phase ≠ .fatal ∧ ({ State.reset with phase := .fatal } : State).phase = .fatal := ⟨nofun, rfl⟩

/-- In CFG_ERROR after a rejected COMMIT, with a NOP to run. -/
def cfgErrorState : State := { State.reset with phase := .cfgError, errCode := .cfgRate, cfg0 := 0x3FF, cmd := [0] }

/-- Also for HostMovesAndPowerOnKeepInv: a state that meets the invariant. -/
theorem witness_StepKeepsInv : ∃ s t : State, s.Inv ∧ step s = .next t ∧ t ≠ s :=
  ⟨cfgErrorState, { cfgErrorState with cmd := [] },
    { frameBuf_wf := by decide
      cellBuf_wf := by decide
      reserved_zero := by decide
      pbc_range := by decide
      fresh_outside_ready := by decide
      tables_committed := by intro t h; cases h
      ibc_range := by decide
      warn_counted := by decide
      hem_silent := by decide
      last_out := by intro t h; cases h
      fatal_code := by decide
      cmd_code := by decide }, rfl, by decide⟩

theorem witness_StepRunsTheDecodedCommand :
    decode ({ State.reset with cmd := [0x25FFFFFF] } : State).cmd = .ok (.rdadj 255 65535) := by decide

theorem witness_CommandLengthIsDecidedByOpcode :
    fieldOpc 0x02FFFFFF = 0x02 ∧ fieldOpc 0x06000000 = 0x06 ∧
      ({ State.reset with cmd := [0xFF000000] } : State).hold = none ∧
      ¬ (fieldOpc 0xFF000000 = 0x02 ∨ fieldOpc 0xFF000000 = 0x06) := by decide

theorem witness_ReservedOpcodeRaisesCmdReserved :
    ([0x09000000, 0x0FFFFFFF, 0x14000000, 0x1FFFFFFF, 0x27000000, 0xFFFFFFFF] : List Word).map fieldOpc =
      [0x09, 0x0F, 0x14, 0x1F, 0x27, 0xFF] := by decide

theorem witness_NonzeroUnusedFieldRaisesCmdReserved :
    (fieldOpc 0x24FF0000 = 0x24 ∧ fieldA 0x24FF0000 ≠ 0) ∧ (fieldOpc 0x0300FFFF = 0x03 ∧ fieldB 0x0300FFFF ≠ 0) ∧
      (fieldOpc 0x26010000 = 0x26 ∧ fieldA 0x26010000 ≠ 0) ∧ (fieldOpc 0x20000100 = 0x20 ∧ 256 ≤ fieldB 0x20000100) ∧
      (fieldOpc 0x02000001 = 0x02 ∧ fieldB 0x02000001 ≠ 0) ∧ (fieldOpc 0x06010000 = 0x06 ∧ fieldA 0x06010000 ≠ 0) := by
  decide

theorem witness_DecodeOfEncodeIsIdentity :
    (Instr.rdadj 255 65535).wellFormed = true ∧ (Instr.wrfb 65535 0).wellFormed = true := by decide

theorem witness_DecodedWordsAreTheEncoding : decode [0x0600FFFF, 7, 9] = .ok (.wrfb 65535 7) := by decide

theorem witness_CommandIllegalInStateRaisesCmdState :
    legalIn .reset .fatal = false ∧ legalIn .commit (.ready smallTables) = false ∧ legalIn .frame .cfgError = false ∧
      legalIn (.rdfb 0) .fatal = false := ⟨rfl, rfl, rfl, rfl⟩

theorem witness_NoStepLeavesFatal :
    step { State.reset with phase := .fatal, cmd := [0x01000000] } =
      .next { State.reset with phase := .fatal, cmdErr := true, cmd := [] } := rfl

theorem witness_ReadyKeepsConfigurationAndTables :
    exec .reset (ready smallTables 5) = .next { State.reset with cfg0 := 5 } ∧
      exec .nop (ready smallTables 5) = .next (ready smallTables 5) := ⟨rfl, rfl⟩

/-- The two cases of the clause on runs: a run whose CMD is empty, and one that a data word keeps waiting. -/
theorem witness_OutputStreamsOnlyGrow_runs :
    ((Run.start State.reset).moves [.host (.command [0x03000000]), .core, .host (.drainResp 1)]).state.cmd = [] ∧
      ((Run.start State.reset).moves [.host (.command [0x02000000]), .core]).state.cmd ≠ [] := by decide

/-- `exec i s = next t` with `i` outside every list of the writers' statements, and once for each writer of RESP. -/
theorem witness_EachPieceOfStateHasItsWriters_and_OutputStreamsOnlyGrow :
    exec .nop State.reset = .next State.reset ∧
      exec (.rdreg 0x10) State.reset = .next { State.reset with resp := [0] } := ⟨rfl, rfl⟩

theorem witness_ErrorFlagsAreSticky :
    exec .commit { ready smallTables 5 with cmdErr := true, syncWarn := true, swcnt := 0xFFFF } =
      .next { ready smallTables 5 with cmdErr := true, syncWarn := true, swcnt := 0xFFFF, errCode := .cmdState } := rfl

theorem witness_WrcfgStoresTheMaskedWord :
    State.reset.phase = .unconfigured ∧ cfgErrorState.phase = .cfgError ∧ 3 < 4 ∧ 3 < 255 ∧
      (ready smallTables 5).phase = .ready smallTables ∧ ({ State.reset with phase := .fatal } : State).phase = .fatal :=
  ⟨rfl, rfl, by decide, by decide, rfl, rfl⟩

theorem witness_RdregPushesTheRegister :
    (3 < 4 ∧ 4 < 0x10) ∧ (3 < 0x0F ∧ 0x0F < 0x10) ∧ 0x15 < 0x16 ∧ 0x15 < 0xFF := by decide

theorem witness_FstateAndParamShowTheirFields :
    (ready shortTables 5).phase = .ready shortTables ∧ codeParams .short .r1_2 = some shortTables.par ∧
      ∀ t, State.reset.phase ≠ .ready t := ⟨rfl, rfl, fun _ h => nomatch h⟩

theorem witness_CommitRejectsUndefinedConfigurations :
    cfgRate 0x10 = none ∧ (cfgRate 0x2 = some .r2_5 ∧ codeParams (cfgFs 0x2) .r2_5 = none) ∧
      (cfgRate 0x205 = some .r1_2 ∧ codeParams (cfgFs 0x205) .r1_2 = some shortHalf ∧ cfgInband 0x205 = true ∧
        cfgInbandN 0 = 0) := by decide

/-- The hypotheses, with in-band signalling on. -/
theorem witness_CommitBuildsTheTables :
    State.reset.phase = .unconfigured ∧ cfgRate 0x205 = some .r1_2 ∧
      codeParams (cfgFs 0x205) .r1_2 = some shortHalf ∧ cfgInband 0x205 = true ∧ cfgInbandN 1 ≠ 0 := by decide

/-- The checks of the interleaver tables: NORMAL 16QAM and SHORT 256QAM accept offsets up to Nr − 1 and a permutation; a
missing table, a short one, an offset at Nr and a repeated destination are each refused. -/
theorem witness_CommitBuildsTheTables_interleaver :
    ilvTablesValid (ilvColumns .normal .qam16) 8100 (some [0, 0, 2, 4, 4, 5, 7, 8099]) (some [7, 1, 4, 2, 5, 3, 6, 0]) = true ∧
      ilvTablesValid (ilvColumns .short .qam256) 2025 (some [0, 0, 0, 1, 7, 20, 20, 2024]) (some [7, 1, 4, 2, 5, 3, 6, 0]) =
        true ∧
      ([(none, some [0, 1]), (some [0, 0], none), (some [0], some [0, 1]), (some [0, 5], some [0, 1]),
          (some [0, 4], some [0, 0]), (some [0, 4], some [0, 2])] : List (Option (List Nat) × Option (List Nat))).map
        (fun t => ilvTablesValid 2 5 t.1 t.2) = List.replicate 6 false := by decide

/-- What the LDPC build answers, as a code: the Fatal's, or 0 for ABSENT and 1 for an adjacency. -/
def expandCode (o : Except ErrCode (Option (List (List Nat)))) : Nat :=
  match o with
  | .error e => e.code
  | .ok none => 0
  | .ok (some _) => 1

/-- R146, R148, R149, R263, for SHORT 1/2 (20 rows, nldpcp = 9000): ABSENT in both modes; a row short; a seed at nldpcp,
which comes before the capacity, and one below it; a total one above the capacity, and one equal to it. -/
theorem witness_CommitBuildsTheTables_ldpc :
    expandCode (expandLdpc .computed 9999 none shortHalf) = 4 ∧ expandCode (expandLdpc .zero 0 none shortHalf) = 0 ∧
      expandCode (expandLdpc .zero 9999 (some toyBase.tail) shortHalf) = 4 ∧
      expandCode (expandLdpc .zero 0 (some ([9000] :: toyBase.tail)) shortHalf) = 4 ∧
      expandCode (expandLdpc .zero 360 (some ([8999] :: toyBase.tail)) shortHalf) = 1 ∧
      expandCode (expandLdpc .computed 719 (some toyBase) shortHalf) = 5 ∧
      expandCode (expandLdpc .computed 720 (some toyBase) shortHalf) = 1 := by decide +kernel

theorem witness_ParameterTableInvariants :
    codeParams .short .r1_2 = some shortHalf ∧ codeParams .normal .r1_2 = some normalHalf := ⟨rfl, rfl⟩

/-- For WrfbWritesOneFramebufWord, RdfbPushesOneFramebufWord, RdcbPushesOneCell and CrcCommandsDriveCrct, whose FATAL
clauses the witness of ResetCommandAppliesStreamReset meets. -/
theorem witness_WrfbWritesOneFramebufWord_and_reads :
    State.reset.phase ≠ .fatal ∧ 2024 ≤ 2024 ∧ 2024 < 2025 ∧ 32399 ≤ 32399 ∧ 32399 < 32400 ∧
      (31 < 32 ∧ 32 * 2024 + 32 ≤ 64800) :=
  ⟨nofun, by decide⟩

theorem witness_QneedPushesNeed :
    cfgInMode 0x4 = .nm ∧ cfgInMode 0x104 = .hem ∧ (frameState smallTables 0x104).pbc.toNat < 188 ∧
      0 < (frameState smallTables 0x104).need smallTables := by decide

/-- For BchTableDrivenEqualsBitSerial, BchCodewordHasZeroSyndrome and BchParityIsLinear. -/
theorem witness_BchTable_and_linearity :
    8 ≤ 8 ∧ 2 ^ 8 ≤ 0x107 ∧ 0x107 < 2 ^ (8 + 1) ∧ (List.replicate 8 true).length % 8 = 0 ∧
      (List.replicate 8 true).length = (List.replicate 8 false).length ∧ ([] : Bits).length % 8 = 0 := by decide

/-- Both modes: an adjacency of the parity region's length serves either disjunct. -/
theorem witness_LdpcFillsTheParityRegion :
    let t := { smallTables with par := { smallPar with n := 212 } }
    (ready t 0x5).phase = .ready t ∧ t.par.nbch ≤ t.par.n ∧
      t.adj = some [[0], [], [1, 1], [0, 1]] ∧ [[0], [], [1, 1], [0, 1]].length = t.par.n - t.par.nbch := ⟨rfl, by decide, rfl, by decide⟩

/-- Also for LdpcAdjacencyEntryCount. -/
theorem witness_LdpcAdjacencyFollowsTheIndexGenerator :
    8980 < shortHalf.nldpcp ∧ 0 < shortHalf.nldpcp ∧ 0 < toyBase.length ∧ 359 < 360 ∧ 5 ∈ toyBase.getD 0 [] ∧
      (5 + 359 * shortHalf.q) % shortHalf.nldpcp = 8980 := by decide

theorem witness_AdjacencyReads :
    (parTables shortHalf).adj = none ∧ smallTables.adj = some [[0], [], [1, 1], [0, 1]] ∧
      smallTables.par.n - smallTables.par.nbch ≤ 360 ∧ 359 < smallTables.par.n - smallTables.par.nbch ∧
      ([[0], [], [1, 1], [0, 1]].getD 3 []).length ≤ 2 ∧ ¬ ([[0], [], [1, 1], [0, 1]].getD 3 []).length ≤ 1 := by decide

theorem witness_BbhdrWritesTheHeader :
    cfgInband 0x305 = true ∧ (ready smallTables 0x305).ibc = 0 ∧ cfgInMode 0x305 = .hem ∧ cfgInMode 0x5 = .nm := by decide

theorem witness_RandXorsTheSequence :
    (ready smallTables 5).phase = .ready smallTables ∧ smallTables.par.kbch ≤ smallTables.rseq.length :=
  ⟨rfl, by rw [show smallTables.rseq.length = 200 from lfsrBits_length _ _]; decide⟩

theorem witness_RandomizerSequenceIsPeriodic : 0 + 32767 < 64800 ∧ 32032 + 32767 < 64800 := by decide

theorem witness_FrameHoldsOnUnderSupply :
    ({ ready smallTables 0x4 with input := pk 14 } : State).input.length <
      ({ ready smallTables 0x4 with input := pk 14 } : State).need smallTables := by decide

theorem witness_FrameConsumesNeedAndPushesNbch_and_FrameLaysOutTheBbframe :
    (frameState shortTables 0x5).phase = .ready shortTables ∧ codeParams .short .r1_2 = some shortTables.par ∧
      shortTables.par.kbch ≤ shortTables.rseq.length ∧
      (frameState shortTables 0x5).need shortTables ≤ (frameState shortTables 0x5).input.length := by
  refine ⟨rfl, rfl, ?_, ?_⟩
  · rw [short_rseq_length]; decide
  · rw [frame_state_need_nm, frame_state_input]; decide

theorem witness_NmDataField_and_FrameCountsSyncMismatches :
    (frameState shortTables 0x5).phase = .ready shortTables ∧ cfgInMode (frameState shortTables 0x5).cfg0 = .nm ∧ (frameState shortTables 0x5).pbc.toNat < 188 ∧
      (frameState shortTables 0x5).need shortTables ≤ (frameState shortTables 0x5).input.length ∧
      1 < (frameState shortTables 0x5).need shortTables ∧ ((frameState shortTables 0x5).pbc.toNat + 1) % 188 = 0 := by
  rw [frame_state_need_nm, frame_state_input]
  exact ⟨rfl, by decide⟩

theorem witness_HemDataFieldDropsSyncBytes :
    (frameState smallTables 0x104).phase = .ready smallTables ∧ cfgInMode (frameState smallTables 0x104).cfg0 = .hem ∧ (frameState smallTables 0x104).pbc.toNat < 188 ∧
      (frameState smallTables 0x104).need smallTables ≤ 16 ∧ 16 ≤ (frameState smallTables 0x104).input.length :=
  ⟨rfl, by decide, by decide, by decide, by
    rw [show (frameState smallTables 0x104).input.length = 900 from List.length_replicate]; decide⟩

theorem witness_InterleaveQpskPairsBits :
    cfgMod 0x5 = .qpsk ∧ shortHalf.n % 2 = 0 ∧ cfgRate 0x1 = some .r1_3 ∧ cfgRate 0x3 = some .r2_5 ∧
      (codeParams .short .r1_3).map (fun c => c.n) = (codeParams .short .r1_3).map (fun c => c.nbch + 360 * c.q) := by
  decide

theorem witness_InterleaveQamTwistsAndMuxes :
    cfgMod 0x25 ≠ .qpsk ∧ shortHalf.n = frameBitsOf (cfgFs 0x25) ∧ shortHalf.n = shortHalf.nbch + 360 * shortHalf.q ∧
      ilvColumns (cfgFs 0x25) (cfgMod 0x25) = 8 ∧ shortHalf.n / 8 = 2025 ∧
      (∀ x ∈ [0, 0, 0, 1, 7, 20, 20, 2024], x < 2025) ∧ [7, 1, 4, 2, 5, 3, 6, 0].Perm (List.range 8) := by decide

theorem witness_InterleaverMapIsABijection :
    8 % 4 = 0 ∧ (∀ x ∈ [0, 0, 2, 4, 4, 5, 7, 8099], x < 8100) ∧ [7, 1, 4, 2, 5, 3, 6, 0].Perm (List.range 8) ∧
      16199 < 8100 * (8 / 4) ∧ normalHalf.n = normalHalf.nbch + 360 * normalHalf.q := by decide

theorem witness_ConstellationMeanEnergyIsOne :
    3 < 2 ^ modBits .qpsk ∧ 255 < 2 ^ modBits .qam256 ∧ cellLabel .qam256 255 0 = 15 ∧ cellLabel .qam16 1 1 = 1 := by decide

/-- For the statements whose one hypothesis is READY: BchencWritesTheParity, MapPushesOneSymbolPerCell (rotation on) and the
READY clauses of the others. -/
theorem witness_ready_commands :
    (ready smallTables 5).phase = .ready smallTables ∧ (ready shortTables 0x85).phase = .ready shortTables := ⟨rfl, rfl⟩

end Sys2Proof.Tests
end

section
/-! SUPPORT. What one command and one step can do: the one inversion lemma the whole-machine statements rest on. -/

namespace Sys2Proof

/-- The commands that push to RESP (R40). -/
def Instr.responds (i : Instr) : Bool :=
  match i with
  | .rdreg _ | .rdfb _ | .rdcb _ | .qneed | .rdadj _ _ | .rdadjn _ => true
  | _ => false

theorem Instr.responds_iff (i : Instr) :
    i.responds = true ↔ i.mnemonic ∈ ["RDREG", "RDFB", "RDCB", "QNEED", "RDADJ", "RDADJN"] := by
  cases i <;> simp [Instr.responds, Instr.mnemonic]

end Sys2Proof

namespace Sys2Proof.Machine

/-- FRAMEBUF after a command that READY allows and whose one effect is on FRAMEBUF; none for every other command. -/
def frameBufAfter (i : Instr) (s : State) (tb : Tables) : Option Memory :=
  match i with
  | .ldpc => some (ldpcWrite Config.params.ldpcMode tb s.frameBuf)
  | .bchenc => some (bchEncode tb s.frameBuf)
  | .rand => some (randomize tb s.frameBuf)
  | .bbhdr => some (s.writeHeader tb)
  | _ => none

/-- CRCT after a command whose one effect is on CRCT (R114, R115); none for every other command. -/
def crctAfter (i : Instr) (s : State) : Option Byte :=
  match i with
  | .crc8 b => some (crc8Byte s.crct b)
  | .crc8clr => some 0
  | _ => none

/-- What a command can do from `s`, each case with its guard: `Effect s i t` says that command `i` may leave `t`. -/
inductive Effect (s : State) : Instr → State → Prop
  | rejected (i : Instr) (e : ErrCode) (code : 6 ≤ e.code) : Effect s i (s.rejected i.words e)
  | waits (tb : Tables) (ready : s.phase = .ready tb) (short : s.input.length < s.need tb) : Effect s .frame s
  | nop : Effect s .nop (s.retire 1)
  | reset (alive : s.phase.isFatal = false) : Effect s .reset (s.streamReset.retire 1)
  | configured (a : Nat) (d c0 c1 c2 c3 : Word) (legal : s.phase.isConfiguring = true)
      (written : s.writeReg a d = some { s with cfg0 := c0, cfg1 := c1, cfg2 := c2, cfg3 := c3 }) :
      Effect s (.wrcfg a d) ({ s with cfg0 := c0, cfg1 := c1, cfg2 := c2, cfg3 := c3 }.retire 2)
  | committed (p : Phase) (e : ErrCode) (legal : s.phase.isConfiguring = true)
      (done : s.committed Config.params = { s with phase := p, errCode := e }) :
      Effect s .commit ({ s with phase := p, errCode := e }.retire 1)
  | responded (i : Instr) (v : Word) (responds : i.responds = true) : Effect s i ((s.pushResp v).retire 1)
  | crctSet (i : Instr) (c : Byte) (after : crctAfter i s = some c) : Effect s i ({ s with crct := c }.retire 1)
  | wordWritten (w : Nat) (d : Word) (inside : w < fbWords) :
      Effect s (.wrfb w d) ((s.setFrameBuf (fbWriteWord s.frameBuf w d)).retire 2)
  | frameBufSet (i : Instr) (tb : Tables) (m : Memory) (ready : s.phase = .ready tb)
      (after : frameBufAfter i s tb = some m) : Effect s i ((s.setFrameBuf m).retire 1)
  | interleaved (tb : Tables) (ready : s.phase = .ready tb) :
      Effect s .interleave ((s.setCellBuf (s.interleaved Config.params.regroupNonQpsk tb)).retire 1)
  | mapped (tb : Tables) (ready : s.phase = .ready tb) :
      Effect s .map ((s.mapped Config.params.symFmt tb).retire 1)
  | framed (tb : Tables) (ready : s.phase = .ready tb) (enough : s.need tb ≤ s.input.length) :
      Effect s .frame ((s.frameDone tb).retire 1)

/-- WRCFG writes configuration registers and nothing else (R80). -/
theorem State.writeReg_eq {s u : State} {a : Nat} {d : Word} (h : s.writeReg a d = some u) :
    ∃ c0 c1 c2 c3, u = { s with cfg0 := c0, cfg1 := c1, cfg2 := c2, cfg3 := c3 } := by
  unfold State.writeReg at h
  split at h <;> cases h <;> exact ⟨_, _, _, _, rfl⟩

/-- COMMIT writes STATE, with the derived tables, and ERRCODE, and nothing else (R84, R267, R268). -/
theorem State.committed_eq (s : State) (p : Params) :
    ∃ q e, s.committed p = { s with phase := q, errCode := e } := by
  unfold State.committed
  split <;> exact ⟨_, _, rfl⟩

theorem adjList_error {tb : Tables} {p : Nat} {e : ErrCode} (h : adjList tb p = .error e) : 6 ≤ e.code := by
  unfold adjList at h
  split at h
  · cases h; decide
  · split at h <;> cases h
    decide

/-- A command that only READY allows is rejected in every other state (R79); in READY it has its effect `f`. -/
theorem Effect.ofReady {i : Instr} {s t : State} {f : Tables → Host.Outcome State Fault Refusal} (hi : i.words = 1)
    (h : (match s.phase.tables with
      | none => .next (s.rejected 1 .cmdState)
      | some tb => f tb) = Host.Outcome.next t)
    (hf : ∀ tb, s.phase = .ready tb → f tb = .next t → Effect s i t) : Effect s i t := by
  split at h
  · cases h
    exact hi ▸ .rejected i .cmdState (by decide)
  · rename_i tb htb
    exact hf tb ((Phase.tables_eq_some_iff _ _).1 htb) h

/-- Whatever a command answers is one of its effects. -/
theorem exec_effect {i : Instr} {s t : State} (h : exec i s = .next t) : Effect s i t := by
  cases i with
  | nop => cases h; exact .nop
  | reset =>
    simp only [exec, execReset] at h
    split at h <;> cases h
    · exact .rejected .reset .cmdState (by decide)
    · exact .reset (Bool.eq_false_of_not_eq_true ‹_›)
  | wrcfg a d =>
    simp only [exec, execWrcfg] at h
    split at h
    · split at h <;> cases h
      · exact .rejected (.wrcfg a d) .cmdReg (by decide)
      · rename_i hw
        obtain ⟨c0, c1, c2, c3, rfl⟩ := State.writeReg_eq hw
        exact .configured a d c0 c1 c2 c3 ‹_› hw
    · cases h
      exact .rejected (.wrcfg a d) .cmdState (by decide)
  | rdreg a =>
    simp only [exec, execRdreg] at h
    split at h <;> cases h
    · exact .rejected (.rdreg a) .cmdReg (by decide)
    · exact .responded (.rdreg a) _ rfl
  | commit =>
    simp only [exec, execCommit] at h
    split at h <;> cases h
    · obtain ⟨p, e, hc⟩ := s.committed_eq Config.params
      exact hc ▸ .committed p e ‹_› hc
    · exact .rejected .commit .cmdState (by decide)
  | wrfb w d =>
    simp only [exec, execWrfb] at h
    (repeat' split at h) <;> cases h
    · exact .rejected (.wrfb w d) .cmdState (by decide)
    · exact .rejected (.wrfb w d) .cmdIndex (by decide)
    · exact .wordWritten w d (by omega)
  | rdfb w =>
    simp only [exec, execRdfb] at h
    (repeat' split at h) <;> cases h
    · exact .rejected (.rdfb w) .cmdState (by decide)
    · exact .rejected (.rdfb w) .cmdIndex (by decide)
    · exact .responded (.rdfb w) _ rfl
  | rdcb j =>
    simp only [exec, execRdcb] at h
    (repeat' split at h) <;> cases h
    · exact .rejected (.rdcb j) .cmdState (by decide)
    · exact .rejected (.rdcb j) .cmdIndex (by decide)
    · exact .responded (.rdcb j) _ rfl
  | crc8 b =>
    simp only [exec, execCrc8] at h
    split at h <;> cases h
    · exact .rejected (.crc8 b) .cmdState (by decide)
    · exact .crctSet (.crc8 b) _ rfl
  | crc8clr =>
    simp only [exec, execCrc8clr] at h
    split at h <;> cases h
    · exact .rejected .crc8clr .cmdState (by decide)
    · exact .crctSet .crc8clr _ rfl
  | qneed => exact .ofReady rfl h fun tb _ h => by cases h; exact .responded .qneed _ rfl
  | frame =>
    refine .ofReady rfl h fun tb htb h => ?_
    split at h <;> cases h
    · exact .waits tb htb ‹_›
    · exact .framed tb htb (by omega)
  | ldpc => exact .ofReady rfl h fun tb htb h => by cases h; exact .frameBufSet .ldpc tb _ htb rfl
  | interleave => exact .ofReady rfl h fun tb htb h => by cases h; exact .interleaved tb htb
  | map => exact .ofReady rfl h fun tb htb h => by cases h; exact .mapped tb htb
  | bchenc => exact .ofReady rfl h fun tb htb h => by cases h; exact .frameBufSet .bchenc tb _ htb rfl
  | rand => exact .ofReady rfl h fun tb htb h => by cases h; exact .frameBufSet .rand tb _ htb rfl
  | bbhdr => exact .ofReady rfl h fun tb htb h => by cases h; exact .frameBufSet .bbhdr tb _ htb rfl
  | rdadj k p =>
    refine .ofReady rfl h fun tb htb h => ?_
    split at h
    · cases h
      exact .rejected (.rdadj k p) _ (adjList_error ‹_›)
    · split at h <;> cases h
      · exact .responded (.rdadj k p) _ rfl
      · exact .responded (.rdadj k p) _ rfl
  | rdadjn p =>
    refine .ofReady rfl h fun tb htb h => ?_
    split at h <;> cases h
    · exact .rejected (.rdadjn p) _ (adjList_error ‹_›)
    · exact .responded (.rdadjn p) _ rfl

/-- What a step can do: a command's effect, a rejected encoding, or a hold. -/
theorem step_cases {s t : State} (h : step s = .next t) :
    (∃ i, Effect s i t) ∨ (∃ n, t = s.rejected n .cmdReserved) ∨ t = s := by
  unfold step at h
  split at h
  · exact .inl ⟨_, exec_effect h⟩
  all_goals cases h
  · exact .inr (.inl ⟨_, rfl⟩)
  · exact .inr (.inr rfl)
  · exact .inr (.inr rfl)

end Sys2Proof.Machine
end

section
/-! SUPPORT. The loop of FRAME and the packet state (46_pipeline.md R198, R199, R269). -/

namespace Sys2Proof.Machine

/-- What every packet step keeps, the whole loop of FRAME keeps. -/
theorem fillData_packet_induct {P : PacketState → Prop} {mode : InputMode}
    (step : ∀ f b, P f → P (packetStep mode f b).1) (f : PacketState) (d : Nat) (bs : List Byte) (hf : P f) :
    P (fillData mode f d bs).packet := by
  induction bs generalizing f d with
  | nil => cases d <;> exact hf
  | cons b bs ih =>
    cases d with
    | zero => exact hf
    | succ d =>
      have hs := step f b hf
      rw [fillData]
      split <;> rename_i hp <;> rw [hp] at hs
      · exact ih _ _ hs
      · exact ih _ _ hs

/-- A packet step leaves the warning state alone or raises one warning. -/
theorem packetStep_warn_cases (mode : InputMode) (f : PacketState) (b : Byte) :
    ((packetStep mode f b).1.syncWarn = f.syncWarn ∧ (packetStep mode f b).1.swcnt = f.swcnt) ∨
      ((packetStep mode f b).1.syncWarn = true ∧ (packetStep mode f b).1.swcnt = bumpSwcnt f.swcnt) := by
  cases mode with
  | hem =>
    left
    rw [packetStep, packetStepHem_fst]
    exact ⟨rfl, rfl⟩
  | nm =>
    obtain ⟨hw, hc⟩ := packetStepNm_warn f b
    rw [packetStep, hw, hc]
    by_cases hb : f.pbc = 0 ∧ b ≠ syncByte
    · exact .inr ⟨by simp [hb], if_pos hb⟩
    · exact .inl ⟨by simp only [← Bool.decide_and, decide_eq_false hb, Bool.or_false], if_neg hb⟩

/-- The count saturates, and a warning leaves it above 0 (R269). -/
theorem bumpSwcnt_ne_zero (c : BitVec 16) : bumpSwcnt c ≠ 0 := by
  intro h
  have hc := bumpSwcnt_toNat c
  rw [h, show BitVec.toNat (0 : BitVec 16) = 0 from rfl] at hc
  omega

theorem bumpSwcnt_ge (c : BitVec 16) : c.toNat ≤ (bumpSwcnt c).toNat := by
  rw [bumpSwcnt_toNat]
  omega

/-- SYNCWARN is set exactly when the count is not 0. -/
def PacketState.counted (f : PacketState) : Prop := f.syncWarn = true ↔ f.swcnt ≠ 0

theorem fillData_counted (mode : InputMode) (f : PacketState) (d : Nat) (bs : List Byte) (hf : f.counted) :
    (fillData mode f d bs).packet.counted := by
  refine fillData_packet_induct (fun f b hf => ?_) f d bs hf
  rw [PacketState.counted] at hf ⊢
  rcases packetStep_warn_cases mode f b with ⟨hw, hc⟩ | ⟨hw, hc⟩
  · rw [hw, hc]; exact hf
  · rw [hw, hc]; exact iff_of_true rfl (bumpSwcnt_ne_zero _)

/-- The warning state of `g` is at least that of `f`. -/
def PacketState.warnedSince (f g : PacketState) : Prop :=
  (f.syncWarn = true → g.syncWarn = true) ∧ f.swcnt.toNat ≤ g.swcnt.toNat

theorem fillData_warnedSince (mode : InputMode) (f : PacketState) (d : Nat) (bs : List Byte) :
    f.warnedSince (fillData mode f d bs).packet := by
  refine fillData_packet_induct (P := f.warnedSince) (fun g b hg => ?_) f d bs ⟨id, le_refl _⟩
  obtain ⟨hflag, hcount⟩ := hg
  rcases packetStep_warn_cases mode g b with ⟨hw, hc⟩ | ⟨hw, hc⟩
  · exact ⟨fun h => hw ▸ hflag h, hc ▸ hcount⟩
  · exact ⟨fun _ => hw, hc ▸ hcount.trans (bumpSwcnt_ge _)⟩

end Sys2Proof.Machine
end

section
/-! SUPPORT. The invariant of the core: what each named update of State keeps of it, and the sizes it gives in READY. -/

namespace Sys2Proof.Machine

theorem Phase.tables_of_isConfiguring {p : Phase} (h : p.isConfiguring = true) : p.tables = none := by
  rcases (Phase.isConfiguring_iff p).1 h with rfl | rfl <;> rfl

/-- LAST_OUT of LASTIO (R34). -/
theorem packLastio_div (used nbch : Nat) : (packLastio used nbch).toNat / 65536 = nbch % 65536 := by
  simp only [packLastio, BitVec.toNat_ofNat]
  omega

namespace State.Inv

variable {s : State} {tb : Tables}

/-! ### READY (R37, R93) -/

/-- In READY the tables are built on a row of the Parameter Table. -/
theorem par_row (h : s.Inv) (hp : s.phase = .ready tb) : ∃ fs rate, codeParams fs rate = some tb.par := by
  obtain ⟨rate, c, adj, -, hc, -, -, -, rfl⟩ := commitTables_ok (h.tables_committed tb (by simp [hp]))
  exact ⟨_, rate, hc⟩

/-- FRAMEBUF has room for the systematic bits, the BCH parity and the LDPC parity of a frame. -/
theorem par_sizes (h : s.Inv) (hp : s.phase = .ready tb) :
    184 ≤ tb.par.kbch ∧ tb.par.kbch + tb.par.pbch = tb.par.nbch ∧ tb.par.nbch ≤ tb.par.n ∧ tb.par.n ≤ 64800 := by
  obtain ⟨fs, rate, hrow⟩ := h.par_row hp
  obtain ⟨hk, hb, hn, hmax, -⟩ := codeParams_sizes hrow
  exact ⟨hk, hb, hn, hmax⟩

/-- In READY with in-band signalling on, INBAND_N is not 0 (R84). -/
theorem inbandN_pos (h : s.Inv) (hp : s.phase = .ready tb) (hb : cfgInband s.cfg0 = true) :
    0 < cfgInbandN s.cfg2 := by
  obtain ⟨_, _, _, -, -, hin, -⟩ := commitTables_ok (h.tables_committed tb (by simp [hp]))
  exact Nat.pos_of_ne_zero (hin hb)

/-- The parity LDPC writes fits its region FB[nbch, N), in both modes (R152). -/
theorem ldpcParity_length_le (h : s.Inv) (hp : s.phase = .ready tb) (mode : LdpcMode) (m : Memory) :
    (ldpcParity mode tb m).length ≤ tb.par.nldpcp := by
  obtain ⟨rate, c, adj, -, -, -, -, hadj, rfl⟩ := commitTables_ok (h.tables_committed tb (by simp [hp]))
  cases mode with
  | zero => simp [ldpcParity]
  | computed =>
    rcases expandLdpc_ok hadj with ⟨rfl, -, -⟩ | ⟨b, -, -, -, rfl⟩
    · simp [ldpcParity, buildTables]
    · simp [ldpcParity, buildTables]

end State.Inv

/-! ### FRAMEBUF stays canonical and within its 64800 bits -/

/-- Canonical, and nothing beyond the 8100 bytes of FRAMEBUF (R39, R50). -/
def fbSound (m : Memory) : Prop := m.wf = true ∧ m.within 8100 = true

theorem fbSound_fbWrite {m : Memory} {a : Nat} {v : Bits} (h : fbSound m) (hv : a + v.length ≤ 64800) :
    fbSound (fbWrite m a v) := by
  obtain ⟨hwf, hin⟩ := h
  exact ⟨wf_fbWrite m a v hwf, within_fbWrite m a v 8100 hin (by omega)⟩

theorem fbSound_fbWriteWord {m : Memory} {w : Nat} {d : Word} (h : fbSound m) (hw : w < fbWords) :
    fbSound (fbWriteWord m w d) :=
  fbSound_fbWrite h (by simp only [natBits_length, fbWords] at *; omega)

theorem fbSound_bchEncode {tb : Tables} {m : Memory} (h : fbSound m) (hp : tb.par.kbch + tb.par.pbch ≤ 64800) :
    fbSound (bchEncode tb m) :=
  fbSound_fbWrite h (by simpa using hp)

theorem fbSound_randomize {tb : Tables} {m : Memory} (h : fbSound m) (hp : tb.par.kbch ≤ 64800) :
    fbSound (randomize tb m) :=
  fbSound_fbWrite h (by simp only [xorBits_length, fbBits_length]; omega)

theorem fbSound_writeHeader {s : State} {tb : Tables} (h : fbSound s.frameBuf) : fbSound (s.writeHeader tb) := by
  have hm : fbSound (fbWrite s.frameBuf 0 (s.bbHeader tb.par.kbch)) := fbSound_fbWrite h (by simp)
  rw [State.writeHeader]
  split
  · exact fbSound_fbWrite hm (by simp)
  · exact hm

/-- The data field of R197 ends at kbch. -/
theorem fbSound_frameRaw {s : State} {tb : Tables} (h : fbSound s.frameBuf) (hlo : 184 ≤ tb.par.kbch)
    (hhi : tb.par.kbch ≤ 64800) : fbSound (s.frameRaw tb) := by
  refine fbSound_fbWrite (fbSound_writeHeader h) ?_
  have hout : (s.filled tb).out.length ≤ (tb.par.kbch - 80 - s.pad) / 8 := fillData_out_le _ _ _ _
  rw [bytesBits_length]
  rcases s.pad_eq with hpad | hpad <;> rw [hpad] at hout ⊢ <;> omega

namespace State.Inv

variable {s : State} {tb : Tables}

theorem frameBuf_sound (h : s.Inv) : fbSound s.frameBuf := h.frameBuf_wf

theorem frameBufAfter_sound {i : Instr} {m : Memory} (h : s.Inv) (hp : s.phase = .ready tb)
    (hm : frameBufAfter i s tb = some m) : fbSound m := by
  obtain ⟨hk, hb, hn, hmax⟩ := h.par_sizes hp
  unfold frameBufAfter at hm
  split at hm <;> cases hm
  · have hl := h.ldpcParity_length_le hp Config.params.ldpcMode s.frameBuf
    exact fbSound_fbWrite h.frameBuf_sound (by unfold CodeParams.nldpcp at hl; omega)
  · exact fbSound_bchEncode h.frameBuf_sound (by omega)
  · exact fbSound_randomize h.frameBuf_sound (by omega)
  · exact fbSound_writeHeader h.frameBuf_sound

theorem frameCoded_sound (h : s.Inv) (hp : s.phase = .ready tb) : fbSound (s.frameCoded tb) := by
  obtain ⟨hk, hb, hn, hmax⟩ := h.par_sizes hp
  have hraw : fbSound (s.frameRaw tb) := fbSound_frameRaw h.frameBuf_sound hk (by omega)
  exact fbSound_bchEncode (fbSound_randomize hraw (by omega)) (by omega)

/-! ### What each update keeps -/

theorem retire (h : s.Inv) (n : Nat) : (s.retire n).Inv := { h with }

theorem pushResp (h : s.Inv) (v : Word) : (s.pushResp v).Inv := { h with }

theorem mapped (h : s.Inv) (fmt : ExactComplex → SymItem) : (s.mapped fmt tb).Inv := { h with }

theorem setCrct (h : s.Inv) (c : Byte) : State.Inv { s with crct := c } := { h with }

theorem setFrameBuf {m : Memory} (h : s.Inv) (hm : fbSound m) : (s.setFrameBuf m).Inv :=
  { h with frameBuf_wf := hm }

theorem interleaved (h : s.Inv) (hp : s.phase = .ready tb) (nonQpsk : Bool) :
    (s.setCellBuf (s.interleaved nonQpsk tb)).Inv := by
  obtain ⟨hwf, hin⟩ := h.cellBuf_wf
  obtain ⟨-, -, -, hmax⟩ := h.par_sizes hp
  have hcells : cellCount tb.par.n (cfgMod s.cfg0) ≤ cbCells := cellCount_le _ _ hmax
  exact { h with
    cellBuf_wf := ⟨Memory.wf_writeRange _ _ _ hwf, Memory.within_writeRange _ _ _ _ hin
      (by rw [ilvCells_length]; unfold cbCells at hcells; omega)⟩ }

/-- A rejected command records a CmdError code, and in FATAL keeps the Fatal's (R264, R266). -/
theorem rejected {e : ErrCode} (h : s.Inv) (n : Nat) : (s.rejected n e).Inv :=
  { h with
    fatal_code := fun hf => by
      have hf' : s.phase = .fatal := hf
      simpa [hf'] using h.fatal_code hf'
    cmd_code := fun _ => rfl }

theorem streamReset (h : s.Inv) : s.streamReset.Inv :=
  { h with
    pbc_range := by simp
    fresh_outside_ready := by simp
    tables_committed := by simp
    ibc_range := by simp
    warn_counted := by simp
    hem_silent := by simp
    last_out := by simp
    fatal_code := by simp
    cmd_code := by simp [ErrCode.code] }

/-- WRCFG stores a masked word (R36), where no table is valid and no frame has run. -/
theorem writeReg {u : State} {a : Nat} {d : Word} (h : s.Inv) (hc : s.phase.isConfiguring = true)
    (hu : s.writeReg a d = some u) : u.Inv := by
  obtain ⟨h0, h1, h2, h3⟩ := h.reserved_zero
  have hnone : s.phase.tables = none := Phase.tables_of_isConfiguring hc
  obtain ⟨-, hpcrc, hibc, -, -, hcount⟩ := h.fresh_outside_ready hnone
  unfold State.writeReg at hu
  split at hu <;> cases hu
  · exact { h with
      reserved_zero := ⟨by simp [BitVec.and_assoc], h1, h2, h3⟩
      tables_committed := by simp [hnone]
      ibc_range := by simp [hnone, hibc]
      hem_silent := fun _ => ⟨hpcrc, hcount⟩ }
  · exact { h with reserved_zero := ⟨h0, by simp [BitVec.and_assoc], h2, h3⟩ }
  · exact { h with
      reserved_zero := ⟨h0, h1, by simp [BitVec.and_assoc], h3⟩
      tables_committed := by simp [hnone]
      ibc_range := by simp [hnone, hibc] }
  · exact { h with reserved_zero := ⟨h0, h1, h2, by simp [BitVec.and_assoc]⟩ }

/-- A failed COMMIT leaves no table valid and records no CmdError code, and in FATAL the Fatal's (R267, R268). -/
theorem commitFailed {p : Phase} {e : ErrCode} (h : s.Inv) (hc : s.phase.isConfiguring = true) (hp : p.tables = none)
    (he : e.code < 6) (hf : p = .fatal → e = .fatalLdpcTable ∨ e = .fatalLdpcCap) :
    State.Inv { s with phase := p, errCode := e } := by
  have hnone : s.phase.tables = none := Phase.tables_of_isConfiguring hc
  obtain ⟨-, -, hibc, -⟩ := h.fresh_outside_ready hnone
  exact { h with
    fresh_outside_ready := fun _ => h.fresh_outside_ready hnone
    tables_committed := by simp [hp]
    ibc_range := by simp [hp, hibc]
    last_out := by simp [hp]
    fatal_code := hf
    cmd_code := fun hcode => absurd hcode (Nat.not_le.2 he) }

/-- A COMMIT that succeeds makes READY the tables of the configuration as it stands, before any frame has run (R84). -/
theorem commitReady (h : s.Inv) (hc : s.phase.isConfiguring = true)
    (ht : commitTables Config.params s.cfg0 s.cfg2 = .ok tb) :
    State.Inv { s with phase := .ready tb, errCode := .none } := by
  have hnone : s.phase.tables = none := Phase.tables_of_isConfiguring hc
  obtain ⟨-, -, hibc, hlast, -, -⟩ := h.fresh_outside_ready hnone
  obtain ⟨_, _, _, -, -, hin, -⟩ := commitTables_ok ht
  exact { h with
    fresh_outside_ready := by simp
    tables_committed := by simpa using ht
    ibc_range := by
      by_cases hb : cfgInband s.cfg0 = true
      · simpa [hb, hibc] using Nat.pos_of_ne_zero (hin hb)
      · simp [hb, hibc]
    last_out := fun _ _ => .inl hlast
    fatal_code := by simp
    cmd_code := by simp [ErrCode.code] }

theorem committed (h : s.Inv) (hc : s.phase.isConfiguring = true) : (s.committed Config.params).Inv := by
  unfold State.committed
  split
  · exact h.commitReady hc ‹_›
  · have he := commitTables_error ‹_›
    simp only [CommitError.cfg.injEq, reduceCtorEq, or_false] at he
    exact h.commitFailed hc rfl (by rcases he with rfl | rfl | rfl <;> decide) nofun
  · have he := commitTables_error ‹_›
    simp only [CommitError.fatal.injEq, reduceCtorEq, false_or] at he
    exact h.commitFailed hc rfl (by rcases he with rfl | rfl <;> decide) fun _ => he

/-- IBC counts modulo INBAND_N when in-band signalling is on, and stays 0 when it is off (R205). -/
theorem nextIbc_range (h : s.Inv) (hp : s.phase = .ready tb) :
    if cfgInband s.cfg0 then s.nextIbc.toNat < cfgInbandN s.cfg2 else s.nextIbc = 0 := by
  have hibc := h.ibc_range
  by_cases hb : cfgInband s.cfg0 = true
  · rw [if_pos hb, State.nextIbc, if_pos hb, BitVec.toNat_ofNat]
    exact (Nat.mod_le _ _).trans_lt (Nat.mod_lt _ (h.inbandN_pos hp hb))
  · rw [if_neg (by simp [hb])] at hibc
    rw [if_neg hb, State.nextIbc, if_neg hb, hibc]

theorem frameDone (h : s.Inv) (hp : s.phase = .ready tb) : (s.frameDone tb).Inv := by
  obtain ⟨-, -, hn, hmax⟩ := h.par_sizes hp
  have hout := packLastio_div (s.filled tb).used tb.par.nbch
  exact { h with
    frameBuf_wf := h.frameCoded_sound hp
    pbc_range := by
      have hpbc := fillData_pbc (cfgInMode s.cfg0) s.packet (s.dataBytes tb) s.input h.pbc_range
      exact hpbc ▸ Nat.mod_lt _ (by omega)
    fresh_outside_ready := fun hnone => absurd hnone (by simp [State.frameDone, hp])
    ibc_range := by simpa [State.frameDone, hp] using h.nextIbc_range hp
    warn_counted := fillData_counted _ _ _ _ h.warn_counted
    hem_silent := fun hm => by
      have hf : (s.filled tb).packet = { s.packet with pbc := (s.filled tb).packet.pbc } := by
        unfold State.filled
        rw [show cfgInMode s.cfg0 = .hem from hm]
        exact fillData_hem_packet _ _ _
      have hpcrc : (s.filled tb).packet.pcrc = s.pcrc := by rw [hf]; rfl
      have hcount : (s.filled tb).packet.swcnt = s.swcnt := by rw [hf]; rfl
      obtain ⟨hpcrc0, hcount0⟩ := h.hem_silent hm
      exact ⟨hpcrc.trans hpcrc0, hcount.trans hcount0⟩
    last_out := fun t ht => by
      have : t = tb := by simpa [State.frameDone, hp] using ht.symm
      subst this
      exact .inr (hout.trans (Nat.mod_eq_of_lt (by omega))) }

end State.Inv

/-! ### The invariant along a step -/

/-- What a command can do keeps the invariant. -/
theorem Effect.keeps_inv {i : Instr} {s t : State} (h : Effect s i t) (hs : s.Inv) : t.Inv := by
  cases h with
  | rejected => exact hs.rejected _
  | waits => exact hs
  | nop => exact hs.retire 1
  | reset => exact hs.streamReset.retire 1
  | configured a d c0 c1 c2 c3 legal written => exact (hs.writeReg legal written).retire 2
  | committed p e legal done => exact (done ▸ hs.committed legal).retire 1
  | responded => exact (hs.pushResp _).retire 1
  | crctSet => exact (hs.setCrct _).retire 1
  | wordWritten w d inside => exact (hs.setFrameBuf (fbSound_fbWriteWord hs.frameBuf_sound inside)).retire 2
  | frameBufSet _ tb m ready after => exact (hs.setFrameBuf (hs.frameBufAfter_sound ready after)).retire 1
  | interleaved tb ready => exact (hs.interleaved ready _).retire 1
  | mapped => exact (hs.mapped _).retire 1
  | framed tb ready => exact (hs.frameDone ready).retire 1

/-- Settles O3: every clause is a fact about the power-on column of R43. -/
theorem invHoldsAtReset : Obligations.InvHoldsAtReset where
  frameBuf_wf := by decide
  cellBuf_wf := by decide
  reserved_zero := by decide
  pbc_range := by decide
  fresh_outside_ready := by decide
  tables_committed := by intro t h; cases h
  ibc_range := by decide
  warn_counted := by decide
  hem_silent := by decide
  last_out := by intro t h; cases h
  fatal_code := by decide
  cmd_code := by decide

/-- Settles O4: each effect of a command keeps the invariant, and so do a rejected encoding and a hold. -/
theorem stepKeepsInv : Obligations.StepKeepsInv := by
  intro s t hs h
  rcases step_cases h with ⟨i, he⟩ | ⟨n, rfl⟩ | rfl
  · exact he.keeps_inv hs
  · exact hs.rejected n
  · exact hs

end Sys2Proof.Machine
end

section
/-! SUPPORT. Who writes what: for each piece of state, the commands that may change it. -/

namespace Sys2Proof.Machine

namespace Effect

variable {s t : State} {i : Instr}

theorem frameState_eq (h : Effect s i t) (hframe : i ≠ .frame) (hreset : i ≠ .reset) :
    t.pbc = s.pbc ∧ t.pcrc = s.pcrc ∧ t.ibc = s.ibc ∧ t.lastio = s.lastio ∧ t.syncWarn = s.syncWarn ∧
      t.swcnt = s.swcnt := by
  cases h with
  | framed => exact absurd rfl hframe
  | reset => exact absurd rfl hreset
  | _ => exact ⟨rfl, rfl, rfl, rfl, rfl, rfl⟩

theorem input_eq (h : Effect s i t) (hframe : i ≠ .frame) : t.input = s.input := by
  cases h with
  | framed => exact absurd rfl hframe
  | _ => rfl

theorem crct_eq (h : Effect s i t) (hcrc : ∀ b, i ≠ .crc8 b) (hclr : i ≠ .crc8clr) (hreset : i ≠ .reset) :
    t.crct = s.crct := by
  cases h with
  | crctSet _ c after =>
    unfold crctAfter at after
    split at after
    · exact absurd rfl (hcrc _)
    · exact absurd rfl hclr
    · cases after
  | reset => exact absurd rfl hreset
  | _ => rfl

theorem frameBuf_eq (h : Effect s i t) (hwrfb : ∀ w d, i ≠ .wrfb w d) (hframe : i ≠ .frame) (hldpc : i ≠ .ldpc)
    (hbchenc : i ≠ .bchenc) (hrand : i ≠ .rand) (hbbhdr : i ≠ .bbhdr) : t.frameBuf = s.frameBuf := by
  cases h with
  | wordWritten => exact absurd rfl (hwrfb _ _)
  | framed => exact absurd rfl hframe
  | frameBufSet _ tb m ready after =>
    unfold frameBufAfter at after
    split at after
    · exact absurd rfl hldpc
    · exact absurd rfl hbchenc
    · exact absurd rfl hrand
    · exact absurd rfl hbbhdr
    · cases after
  | _ => rfl

theorem cellBuf_eq (h : Effect s i t) (hilv : i ≠ .interleave) : t.cellBuf = s.cellBuf := by
  cases h with
  | interleaved => exact absurd rfl hilv
  | _ => rfl

theorem phase_eq (h : Effect s i t) (hcommit : i ≠ .commit) (hreset : i ≠ .reset) : t.phase = s.phase := by
  cases h with
  | committed => exact absurd rfl hcommit
  | reset => exact absurd rfl hreset
  | _ => rfl

theorem cfg_eq (h : Effect s i t) (hwrcfg : ∀ a d, i ≠ .wrcfg a d) :
    t.cfg0 = s.cfg0 ∧ t.cfg1 = s.cfg1 ∧ t.cfg2 = s.cfg2 ∧ t.cfg3 = s.cfg3 := by
  cases h with
  | configured => exact absurd rfl (hwrcfg _ _)
  | _ => exact ⟨rfl, rfl, rfl, rfl⟩

/-! ### The output streams (R40) -/

theorem bbOut_eq (h : Effect s i t) (hframe : i ≠ .frame) : t.bbOut = s.bbOut := by
  cases h with
  | framed => exact absurd rfl hframe
  | _ => rfl

theorem bbOut_grows (h : Effect s i t) : ∃ b, t.bbOut = s.bbOut ++ b := by
  cases h with
  | framed => exact ⟨_, rfl⟩
  | _ => exact ⟨[], (List.append_nil _).symm⟩

theorem symOut_eq (h : Effect s i t) (hmap : i ≠ .map) : t.symOut = s.symOut := by
  cases h with
  | mapped => exact absurd rfl hmap
  | _ => rfl

theorem symOut_grows (h : Effect s i t) : ∃ y, t.symOut = s.symOut ++ y := by
  cases h with
  | mapped => exact ⟨_, rfl⟩
  | _ => exact ⟨[], (List.append_nil _).symm⟩

theorem resp_eq (h : Effect s i t) (hi : i.responds = false) : t.resp = s.resp := by
  cases h with
  | responded _ v responds => exact absurd responds (Bool.eq_false_iff.1 hi)
  | _ => rfl

theorem resp_grows (h : Effect s i t) : t.resp = s.resp ∨ ∃ v, t.resp = s.resp ++ [v] := by
  cases h with
  | responded _ v => exact .inr ⟨v, rfl⟩
  | _ => exact .inl rfl

/-! ### The error and warning flags (R29) -/

theorem cmdErr_sticky (h : Effect s i t) (hreset : i ≠ .reset) (hs : s.cmdErr = true) : t.cmdErr = true := by
  cases h with
  | rejected => rfl
  | reset => exact absurd rfl hreset
  | _ => exact hs

theorem warnedSince (h : Effect s i t) (hreset : i ≠ .reset) : s.packet.warnedSince t.packet := by
  cases h with
  | framed tb => exact fillData_warnedSince _ s.packet _ _
  | reset => exact absurd rfl hreset
  | _ => exact ⟨id, le_refl _⟩

end Effect

/-- Settles O19: each clause is the fact about one piece of state, for every effect a command can have. -/
theorem eachPieceOfStateHasItsWriters : Obligations.EachPieceOfStateHasItsWriters := by
  intro i s t h
  have he := exec_effect h
  exact ⟨he.frameState_eq, he.input_eq, he.crct_eq, he.frameBuf_eq, he.cellBuf_eq, he.phase_eq, he.cfg_eq⟩

/-- Settles O21: only FRAME touches the warning state, by its packet steps, and a rejection sets CMDERR. -/
theorem errorFlagsAreSticky : Obligations.ErrorFlagsAreSticky := by
  intro i s t h hreset
  have he := exec_effect h
  exact ⟨he.cmdErr_sticky hreset, he.warnedSince hreset⟩

end Sys2Proof.Machine
end

section
/-! SUPPORT. A run beside the same run without its drains (60_exceptions.md R262, R277). -/

namespace Sys2Proof.Machine

/-- The core of the run, had the host drained nothing: everything pushed still stands in the output streams. What is not
drained stands at the end of it. -/
structure Run.Undrained (r : Run) (w : State) : Prop where
  state_eq : w = r.state.withOutputs r.pushed
  bb : r.state.bbOut <:+ r.pushed.bb
  sym : r.state.symOut <:+ r.pushed.sym
  resp : r.state.resp <:+ r.pushed.resp

theorem Run.undrained_start (s : State) : (Run.start s).Undrained (Run.start s).state :=
  ⟨rfl, List.suffix_refl _, List.suffix_refl _, List.suffix_refl _⟩

/-- A core step pushes the same items in both runs. -/
theorem Run.Undrained.core {r u : Run} (h : r.Undrained u.state) : (r.move .core).Undrained (u.move .core).state := by
  obtain ⟨hstate, hbb, hsym, hresp⟩ := h
  obtain ⟨t, ht⟩ := step_answers r.state
  have hu := step_withOutputs _ _ r.pushed ht
  rw [← hstate] at hu
  obtain ⟨hb, hy, hr⟩ := step_outputs _ _ ht
  rw [Run.move_core ht, Run.move_core hu]
  refine ⟨rfl, ?_, ?_, ?_⟩
  · exact hb ▸ List.suffix_append_self_iff.2 hbb
  · exact hy ▸ List.suffix_append_self_iff.2 hsym
  · exact hr ▸ List.suffix_append_self_iff.2 hresp

/-- A host move that is no drain does the same to both runs. -/
theorem Run.Undrained.host {r u : Run} {m : HostMove} (h : r.Undrained u.state)
    (hm : (RunMove.host m).drains = false) : (r.move (.host m)).Undrained (u.move (.host m)).state := by
  obtain ⟨hstate, hbb, hsym, hresp⟩ := h
  rw [Run.move_host, Run.move_host, hstate]
  cases m with
  | command => exact ⟨rfl, hbb, hsym, hresp⟩
  | feed => exact ⟨rfl, hbb, hsym, hresp⟩
  | drainBb | drainSym | drainResp => cases hm

/-- A drain takes items from the front of one output stream, and nothing from the record. -/
theorem Run.Undrained.drain {r : Run} {w : State} {m : HostMove} (h : r.Undrained w)
    (hm : (RunMove.host m).drains = true) : (r.move (.host m)).Undrained w := by
  obtain ⟨hstate, hbb, hsym, hresp⟩ := h
  rw [Run.move_host]
  cases m with
  | command | feed => cases hm
  | drainBb n => exact ⟨hstate, (List.drop_suffix n _).trans hbb, hsym, hresp⟩
  | drainSym n => exact ⟨hstate, hbb, (List.drop_suffix n _).trans hsym, hresp⟩
  | drainResp n => exact ⟨hstate, hbb, hsym, (List.drop_suffix n _).trans hresp⟩

/-- Along any moves, a run stays beside the run that leaves the drains out. -/
theorem Run.Undrained.moves (ms : List RunMove) {r u : Run} (h : r.Undrained u.state) :
    (r.moves ms).Undrained (u.moves (ms.filter fun m => !m.drains)).state := by
  induction ms generalizing r u with
  | nil => exact h
  | cons m ms ih =>
    rw [Run.moves_cons]
    cases m with
    | core => exact ih h.core
    | host m =>
      cases hm : (RunMove.host m).drains with
      | true => rw [List.filter_cons_of_neg (by simp [hm])]; exact ih (h.drain hm)
      | false => rw [List.filter_cons_of_pos (by simp [hm]), Run.moves_cons]; exact ih (h.host hm)

/-- Settles O20: the clauses on one command from its effects, the clauses on runs from the run without its drains. -/
theorem outputStreamsOnlyGrow : Obligations.OutputStreamsOnlyGrow := by
  refine ⟨fun i s t h => ?_, fun s ms => ?_⟩
  · have he := exec_effect h
    refine ⟨he.bbOut_grows, he.bbOut_eq, he.symOut_grows, he.symOut_eq, he.resp_grows, fun hi => he.resp_eq ?_⟩
    rw [← Instr.responds_iff] at hi
    exact Bool.eq_false_of_not_eq_true hi
  · obtain ⟨hstate, hbb, hsym, hresp⟩ := (Run.undrained_start s).moves ms
    refine ⟨by rw [hstate]; rfl, by rw [hstate]; rfl, hbb, hsym, hresp, fun hc => ?_, fun hc => ?_⟩
    · rw [Run.result_eq, if_pos hc]
    · rw [Run.result_eq, if_neg hc]

end Sys2Proof.Machine
end

section
/-! SUPPORT. Registers as words of fields (10_state.md R25 to R32). -/

namespace Sys2Proof.Machine

/-! ### STATUS, FSTATE, PARAM0 and PARAM1 (R29 to R32) -/

theorem Phase.code_lt (p : Phase) : p.code < 4 := by cases p <;> simp [Phase.code]

theorem ErrCode.code_lt (e : ErrCode) : e.code < 11 := by cases e <;> decide

/-- No field of STATUS runs into the next one. -/
theorem State.status_toNat (s : State) :
    s.status.toNat =
      s.phase.code + 4 * s.cmdErr.toNat + 8 * s.syncWarn.toNat + 16 * s.errCode.code + 65536 * s.swcnt.toNat := by
  have hp := s.phase.code_lt
  have he := s.errCode.code_lt
  have hc := s.cmdErr.toNat_lt
  have hw := s.syncWarn.toNat_lt
  have hn := s.swcnt.isLt
  rw [State.status, BitVec.toNat_ofNat]
  exact Nat.mod_eq_of_lt (by omega)

theorem State.fstate_toNat (s : State) :
    s.fstate.toNat = s.pbc.toNat + 256 * s.pcrc.toNat + 65536 * s.ibc.toNat := by
  have hb := s.pbc.isLt
  have hc := s.pcrc.isLt
  have hi := s.ibc.isLt
  rw [State.fstate, BitVec.toNat_ofNat]
  exact Nat.mod_eq_of_lt (by omega)

theorem State.param0_toNat {s : State} {t : Tables} (hp : s.phase = .ready t) (hk : t.par.kbch < 65536)
    (hn : t.par.nbch < 65536) : s.param0.toNat = t.par.kbch + 65536 * t.par.nbch := by
  simp only [State.param0, hp, Phase.tables_ready, BitVec.toNat_ofNat]
  omega

theorem State.param1_toNat {s : State} {t : Tables} (hp : s.phase = .ready t) (hb : t.par.pbch < 256)
    (hq : t.par.q < 256) (hn : t.par.n < 65536) :
    s.param1.toNat = t.par.pbch + 256 * t.par.q + 65536 * t.par.n := by
  simp only [State.param1, hp, Phase.tables_ready, BitVec.toNat_ofNat]
  omega

/-- Outside READY no parameter is valid. -/
theorem State.param_of_not_ready {s : State} (hp : ∀ t, s.phase ≠ .ready t) : s.param0 = 0 ∧ s.param1 = 0 := by
  have hnone := (Phase.tables_eq_none_iff _).2 hp
  simp [State.param0, State.param1, hnone]

/-- A 1-bit field as the bit it is. -/
theorem getLsbD_eq_of_div (w : Word) (k : Nat) (b : Bool) (h : w.toNat / 2 ^ k % 2 = b.toNat) :
    w.getLsbD k = b := by
  rw [BitVec.getLsbD, Nat.testBit_eq_decide_div_mod_eq, h]
  cases b <;> rfl

/-- Settles O25: the fields of STATUS by its value as a number, which no field overflows. -/
theorem statusShowsItsFields : Obligations.StatusShowsItsFields := by
  refine ⟨⟨rfl, fun _ => rfl, rfl, rfl⟩, rfl, fun s => ?_⟩
  have hp := s.phase.code_lt
  have he := s.errCode.code_lt
  have hc := s.cmdErr.toNat_lt
  have hw := s.syncWarn.toNat_lt
  rw [s.status_toNat]
  refine ⟨by omega, getLsbD_eq_of_div _ _ _ ?_, getLsbD_eq_of_div _ _ _ ?_, by omega, by omega, by omega⟩
  · rw [s.status_toNat]; omega
  · rw [s.status_toNat]; omega

/-- Settles O26: each view by its value as a number; a row of the Parameter Table fits the fields. -/
theorem fstateAndParamShowTheirFields : Obligations.FstateAndParamShowTheirFields := by
  intro s
  refine ⟨?_, fun t fs rate hp hrow => ?_, State.param_of_not_ready⟩
  · have hb := s.pbc.isLt
    have hc := s.pcrc.isLt
    rw [s.fstate_toNat]
    omega
  · obtain ⟨hk, hsum, hn, hmax, hpmin, hpmax, hq⟩ := codeParams_sizes hrow
    rw [State.param0_toNat hp (by omega) (by omega), State.param1_toNat hp hpmax hq (by omega)]
    omega

/-! ### CFG0 to CFG3 (R25 to R28) -/

/-- The RATE codes of R25 as a list. -/
theorem rateOf_eq_getElem? (code : Nat) :
    rateOf code = [CodeRate.r1_3, .r2_5, .r1_2, .r3_5, .r2_3, .r3_4, .r4_5, .r5_6][code]? := by
  match code with
  | 0 | 1 | 2 | 3 | 4 | 5 | 6 | 7 | _ + 8 => rfl

/-- The MOD codes of R25 as a list. -/
theorem cfgMod_eq_getElem? (w : Word) :
    some (cfgMod w) = [Modulation.qpsk, .qam16, .qam64, .qam256][w.toNat / 32 % 4]? := by
  have h : w.toNat / 32 % 4 < 4 := Nat.mod_lt _ (by omega)
  have hf : regField w 5 2 = w.toNat / 32 % 4 := rfl
  rw [cfgMod, hf]
  generalize w.toNat / 32 % 4 = v at h
  interval_cases v <;> rfl

/-- A flag of CFG0. -/
theorem regField_flag (w : Word) (lo : Nat) : (regField w lo 1 == 1) = decide (w.toNat / 2 ^ lo % 2 = 1) := rfl

theorem regField_zero (w : Word) (width : Nat) : regField w 0 width = w.toNat % 2 ^ width := by
  rw [regField, pow_zero, Nat.div_one]

/-! ### The first two checks of COMMIT (R84) -/

theorem selectParams_eq_none {c0 : Word}
    (h : cfgRate c0 = none ∨ ∃ r, cfgRate c0 = some r ∧ codeParams (cfgFs c0) r = none) :
    selectParams c0 = none := by
  unfold selectParams
  rcases h with hr | ⟨r, hr, hc⟩
  · rw [hr]
  · rw [hr]; simp only [hc]

theorem execCommit_configuring {s : State} (h : s.phase = .unconfigured ∨ s.phase = .cfgError) :
    exec .commit s = .next ((s.committed Config.params).retire 1) :=
  if_pos ((Phase.isConfiguring_iff _).2 h)

/-- A COMMIT that raises `CfgError(e)` (R267). -/
theorem exec_commit_cfgError {s : State} {e : ErrCode} (hp : s.phase = .unconfigured ∨ s.phase = .cfgError)
    (he : commitTables Config.params s.cfg0 s.cfg2 = .error (.cfg e)) :
    exec .commit s = .next { s with phase := .cfgError, errCode := e, cmd := s.cmd.drop 1 } := by
  rw [execCommit_configuring hp, State.committed, he]
  rfl

theorem commitTables_cfgRate {p : Params} {c0 c2 : Word} (h : selectParams c0 = none) :
    commitTables p c0 c2 = .error (.cfg .cfgRate) := by
  rw [commitTables, h]

theorem commitTables_cfgInbandN {p : Params} {c0 c2 : Word} {rc : CodeRate × CodeParams}
    (h : selectParams c0 = some rc) (hb : cfgInband c0 = true) (hn : cfgInbandN c2 = 0) :
    commitTables p c0 c2 = .error (.cfg .cfgInbandN) := by
  simp [commitTables, h, hb, hn]

/-- Settles O27: the fields by their place, and the first two checks by what `commitTables` answers. -/
theorem commitRejectsUndefinedConfigurations : Obligations.CommitRejectsUndefinedConfigurations := by
  refine ⟨fun w => ?_, fun s hp => ⟨fun h => ?_, fun r c hr hc hb hn => ?_⟩⟩
  · refine ⟨?_, rateOf_eq_getElem? _, cfgMod_eq_getElem? w, regField_flag w 7, rfl, regField_flag w 9,
      regField_zero w 27, regField_zero w 16, regField_zero w 16⟩
    rw [cfgFs, regField_zero, pow_one]
  · exact exec_commit_cfgError hp (commitTables_cfgRate (selectParams_eq_none h))
  · have hs := (selectParams_eq_some s.cfg0 r c).2 ⟨hr, hc⟩
    exact exec_commit_cfgError hp (commitTables_cfgInbandN hs hb hn)

end Sys2Proof.Machine
end

section
/-! SUPPORT. The front of CMD by the opcode table: the fields a row's mask covers, and what `decode` answers for each first
word (30_encoding.md R65 to R70, R73). -/

namespace Sys2Proof

/-! ### Words and their fields (R65) -/

theorem packWord_of_fields {w : Word} {opc a b : Nat} (ho : fieldOpc w = opc) (ha : fieldA w = a) (hb : fieldB w = b) :
    packWord opc a b = w := by
  subst ho ha hb
  exact packWord_fields w

theorem word_eq_iff_fields (v w : Word) :
    v = w ↔ fieldOpc v = fieldOpc w ∧ fieldA v = fieldA w ∧ fieldB v = fieldB w := by
  refine ⟨by rintro rfl; exact ⟨rfl, rfl, rfl⟩, fun ⟨ho, ha, hb⟩ => ?_⟩
  rw [← packWord_of_fields ho ha hb, packWord_fields]

theorem fieldOpc_and (v w : Word) : fieldOpc (v &&& w) = fieldOpc v &&& fieldOpc w :=
  Nat.and_div_two_pow (n := 24)

theorem fieldA_and (v w : Word) : fieldA (v &&& w) = fieldA v &&& fieldA w := by
  rw [fieldA, BitVec.toNat_and]
  exact (congrArg (· % 2 ^ 8) (Nat.and_div_two_pow (n := 16))).trans Nat.and_mod_two_pow

theorem fieldB_and (v w : Word) : fieldB (v &&& w) = fieldB v &&& fieldB w :=
  Nat.and_mod_two_pow (n := 16)

@[simp] theorem fieldOpc_and_ones (w : Word) : fieldOpc w &&& 0xFF = fieldOpc w :=
  (Nat.and_two_pow_sub_one_eq_mod _ 8).trans (Nat.mod_eq_of_lt (fieldOpc_lt w))

@[simp] theorem fieldA_and_ones (w : Word) : fieldA w &&& 0xFF = fieldA w :=
  (Nat.and_two_pow_sub_one_eq_mod _ 8).trans (Nat.mod_eq_of_lt (fieldA_lt w))

@[simp] theorem fieldB_and_ones (w : Word) : fieldB w &&& 0xFFFF = fieldB w :=
  (Nat.and_two_pow_sub_one_eq_mod _ 16).trans (Nat.mod_eq_of_lt (fieldB_lt w))

/-- B[15:8], which format FB8 leaves unused (R65). -/
theorem fieldB_and_high (w : Word) : fieldB w &&& 0xFF00 = fieldB w / 256 * 256 := by
  have hdiv : (fieldB w &&& 0xFF00) / 256 = fieldB w / 256 &&& 0xFF := Nat.and_div_two_pow (n := 8)
  have hmod : (fieldB w &&& 0xFF00) % 256 = fieldB w % 256 &&& 0 := Nat.and_mod_two_pow (n := 8)
  have hb := fieldB_lt w
  rw [Nat.and_two_pow_sub_one_eq_mod _ 8] at hdiv
  rw [Nat.and_zero] at hmod
  omega

/-! ### The rows of the opcode table (R68, R70) -/

theorem OpcodeRow.accepts_iff_fields (r : OpcodeRow) (w : Word) :
    r.accepts w = true ↔ fieldOpc w &&& fieldOpc r.mask = fieldOpc r.value ∧
      fieldA w &&& fieldA r.mask = fieldA r.value ∧ fieldB w &&& fieldB r.mask = fieldB r.value := by
  rw [OpcodeRow.accepts, beq_iff_eq, word_eq_iff_fields, fieldOpc_and, fieldA_and, fieldB_and]

/-- A row of the table wants its OPC, and zeros where its mask covers A and B. -/
theorem opcodeTable_accepts_iff {r : OpcodeRow} (hr : r ∈ opcodeTable) (w : Word) :
    r.accepts w = true ↔
      fieldOpc w = fieldOpc r.value ∧ fieldA w &&& fieldA r.mask = 0 ∧ fieldB w &&& fieldB r.mask = 0 := by
  have hrow : ∀ r ∈ opcodeTable, fieldOpc r.mask = 0xFF ∧ fieldA r.value = 0 ∧ fieldB r.value = 0 := by decide
  obtain ⟨hm, ha, hb⟩ := hrow r hr
  rw [OpcodeRow.accepts_iff_fields, hm, ha, hb, fieldOpc_and_ones]

theorem opcodeTable_accepts_iff_masked {w : Word} {name : String} {ma mb n : Nat}
    (hr : ⟨name, packWord 0xFF ma mb, packWord (fieldOpc w) 0 0, n⟩ ∈ opcodeTable) (ha : ma < 256) (hb : mb < 65536) :
    OpcodeRow.accepts ⟨name, packWord 0xFF ma mb, packWord (fieldOpc w) 0 0, n⟩ w = true ↔
      fieldA w &&& ma = 0 ∧ fieldB w &&& mb = 0 := by
  have ho := fieldOpc_lt w
  simp (disch := omega) [opcodeTable_accepts_iff hr, fieldOpc_packWord, fieldA_packWord, fieldB_packWord]

/-- The opcodes that have a row; every other opcode is reserved (R68, R69). -/
theorem opcodeTable_opc {r : OpcodeRow} (hr : r ∈ opcodeTable) :
    fieldOpc r.value ≤ 0x08 ∨ 0x10 ≤ fieldOpc r.value ∧ fieldOpc r.value ≤ 0x13 ∨
      0x20 ≤ fieldOpc r.value ∧ fieldOpc r.value ≤ 0x26 := by
  revert r hr
  show ∀ r ∈ opcodeTable, _
  decide

/-- The table's `words` is the length that OPC decides (R66). -/
theorem opcodeTable_words {r : OpcodeRow} (hr : r ∈ opcodeTable) : r.words = commandWords (fieldOpc r.value) := by
  revert r hr
  show ∀ r ∈ opcodeTable, _
  decide

/-- No two rows have the same OPC (R68). -/
theorem opcodeTable_opc_inj {r q : OpcodeRow} (hr : r ∈ opcodeTable) (hq : q ∈ opcodeTable)
    (h : fieldOpc r.value = fieldOpc q.value) : r = q := by
  have hinj : ∀ r ∈ opcodeTable, ∀ q ∈ opcodeTable, fieldOpc r.value = fieldOpc q.value → r = q := by decide
  exact hinj r hr q hq h

/-! ### The fields that each format leaves unused (R65, R70) -/

theorem opcodeTable_formatF0 : ∀ opc ∈ [0x00, 0x01, 0x04, 0x05, 0x10, 0x11, 0x12, 0x13, 0x21, 0x22, 0x23, 0x24],
      ∃ r ∈ opcodeTable, fieldOpc r.value = opc ∧ r.words = 1 ∧ fieldA r.mask = 0xFF ∧ fieldB r.mask = 0xFFFF := by
  decide

theorem opcodeTable_formatFB : ∀ opc ∈ [0x07, 0x08, 0x26],
      ∃ r ∈ opcodeTable, fieldOpc r.value = opc ∧ r.words = 1 ∧ fieldA r.mask = 0xFF ∧ fieldB r.mask = 0 := by
  decide

theorem opcodeTable_rdreg :
    ∃ r ∈ opcodeTable, fieldOpc r.value = 0x03 ∧ r.words = 1 ∧ fieldA r.mask = 0 ∧ fieldB r.mask = 0xFFFF := by
  decide

theorem opcodeTable_crc8 :
    ∃ r ∈ opcodeTable, fieldOpc r.value = 0x20 ∧ r.words = 1 ∧ fieldA r.mask = 0xFF ∧ fieldB r.mask = 0xFF00 := by
  decide

theorem opcodeTable_wrcfg :
    ∃ r ∈ opcodeTable, fieldOpc r.value = 0x02 ∧ r.words = 2 ∧ fieldA r.mask = 0 ∧ fieldB r.mask = 0xFFFF := by
  decide

theorem opcodeTable_wrfb :
    ∃ r ∈ opcodeTable, fieldOpc r.value = 0x06 ∧ r.words = 2 ∧ fieldA r.mask = 0xFF ∧ fieldB r.mask = 0 := by
  decide

/-! ### What the decoder answers (R66, R69, R70, R73) -/

/-- What `decode` can answer when the first word of CMD is `w`, by the opcode table's row for the OPC of `w`. -/
inductive Reading (w : Word) (rest : List Word) : Decoded → Prop
  | reserved (noRow : ∀ r ∈ opcodeTable, fieldOpc r.value ≠ fieldOpc w) (one : commandWords (fieldOpc w) = 1) :
      Reading w rest (.reject .reservedOpcode 1)
  | waits (two : commandWords (fieldOpc w) = 2) (short : rest = []) : Reading w rest .waitData
  | unusedField (r : OpcodeRow) (row : r ∈ opcodeTable) (opc : fieldOpc r.value = fieldOpc w)
      (unused : r.accepts w = false) (arrived : commandWords (fieldOpc w) = 2 → rest ≠ []) :
      Reading w rest (.reject .unusedField (commandWords (fieldOpc w)))
  | command (r : OpcodeRow) (row : r ∈ opcodeTable) (opc : fieldOpc r.value = fieldOpc w)
      (accepted : r.accepts w = true) (i : Instr) (named : i.mnemonic = r.mnemonic) (fits : i.wellFormed = true)
      (len : i.words = commandWords (fieldOpc w)) (front : ∃ more, w :: rest = encode i ++ more) :
      Reading w rest (.ok i)

namespace Reading

variable {w : Word} {rest : List Word} {opc : Nat}

/-- A 1-word command whose row, row `n`, has the mask that its decoder arm checks. -/
theorem ofOneWord {unusedZero : Bool} {i : Instr} (n ma mb : Nat) (ho : fieldOpc w = opc) (ha : ma < 256)
    (hb : mb < 65536)
    (hrow : opcodeTable[n]? = some ⟨i.mnemonic, packWord 0xFF ma mb, packWord opc 0 0, 1⟩)
    (hone : commandWords opc = 1) (hu : unusedZero = true ↔ fieldA w &&& ma = 0 ∧ fieldB w &&& mb = 0)
    (hi : unusedZero = true → i.wellFormed = true ∧ encode i = [w]) :
    Reading w rest (oneWord unusedZero i) := by
  subst ho
  have hmem := List.mem_of_getElem? hrow
  have hopc := fieldOpc_packWord _ 0 0 (fieldOpc_lt w) (by decide) (by decide)
  have hacc := opcodeTable_accepts_iff_masked hmem ha hb
  rw [← hu] at hacc
  cases unusedZero with
  | false =>
    have h := unusedField (rest := rest) _ hmem hopc (by simpa using hacc) (by simp [hone])
    rwa [hone] at h
  | true =>
    obtain ⟨hwf, he⟩ := hi rfl
    exact command _ hmem hopc (hacc.2 rfl) i rfl hwf (by rw [Instr.words, he, hone]; rfl) ⟨rest, by rw [he]; rfl⟩

/-- A 2-word command whose row, row `n`, has the mask that its decoder arm checks. -/
theorem ofTwoWord {unusedZero : Bool} {i : Word → Instr} {name : String} (n ma mb : Nat) (ho : fieldOpc w = opc)
    (ha : ma < 256) (hb : mb < 65536)
    (hrow : opcodeTable[n]? = some ⟨name, packWord 0xFF ma mb, packWord opc 0 0, 2⟩) (hn : ∀ d, (i d).mnemonic = name)
    (htwo : commandWords opc = 2) (hu : unusedZero = true ↔ fieldA w &&& ma = 0 ∧ fieldB w &&& mb = 0)
    (hi : unusedZero = true → ∀ d, (i d).wellFormed = true ∧ encode (i d) = [w, d]) :
    Reading w rest (twoWord unusedZero i rest) := by
  subst ho
  have hmem := List.mem_of_getElem? hrow
  have hopc := fieldOpc_packWord _ 0 0 (fieldOpc_lt w) (by decide) (by decide)
  have hacc := opcodeTable_accepts_iff_masked hmem ha hb
  rw [← hu] at hacc
  cases rest with
  | nil => exact waits htwo rfl
  | cons d ds =>
    cases unusedZero with
    | false =>
      have h := unusedField (rest := d :: ds) _ hmem hopc (by simpa using hacc) (by simp)
      rwa [htwo] at h
    | true =>
      obtain ⟨hwf, he⟩ := hi rfl d
      exact command _ hmem hopc (hacc.2 rfl) (i d) (hn d) hwf (by rw [Instr.words, he, htwo]; rfl) ⟨ds, by rw [he]; rfl⟩

/-- A command without operands: format F0 (R65). -/
theorem ofNoOperand {i : Instr} (n : Nat) (ho : fieldOpc w = opc)
    (hrow : opcodeTable[n]? = some ⟨i.mnemonic, packWord 0xFF 0xFF 0xFFFF, packWord opc 0 0, 1⟩)
    (hone : commandWords opc = 1) (hwf : i.wellFormed = true) (he : encode i = [packWord opc 0 0]) :
    Reading w rest (oneWord (fieldA w == 0 && fieldB w == 0) i) := by
  refine ofOneWord n 0xFF 0xFFFF ho (by decide) (by decide) hrow hone (by simp) fun hz => ?_
  simp only [Bool.and_eq_true, beq_iff_eq] at hz
  exact ⟨hwf, by rw [he, packWord_of_fields ho hz.1 hz.2]⟩

/-- A 1-word command with an operand in field B alone: format FB (R65). -/
theorem ofOperandB {i : Nat → Instr} (n : Nat) (ho : fieldOpc w = opc)
    (hrow : opcodeTable[n]? = some ⟨(i (fieldB w)).mnemonic, packWord 0xFF 0xFF 0, packWord opc 0 0, 1⟩)
    (hone : commandWords opc = 1) (hwf : ∀ b, (i b).wellFormed = fitsB b) (he : ∀ b, encode (i b) = [packWord opc 0 b]) :
    Reading w rest (oneWord (fieldA w == 0) (i (fieldB w))) := by
  refine ofOneWord n 0xFF 0 ho (by decide) (by decide) hrow hone (by simp) fun hz => ?_
  exact ⟨(hwf _).trans (decide_eq_true (fieldB_lt w)), by rw [he, packWord_of_fields ho (beq_iff_eq.1 hz) rfl]⟩

end Reading

/-- The decoder answers by the opcode table. -/
theorem decode_reading (w : Word) (rest : List Word) : Reading w rest (decode (w :: rest)) := by
  have hfA : fitsA (fieldA w) = true := decide_eq_true (fieldA_lt w)
  have hfB : fitsB (fieldB w) = true := decide_eq_true (fieldB_lt w)
  simp only [decode]
  split
  next ho => exact .ofNoOperand 0 ho rfl rfl rfl rfl
  next ho => exact .ofNoOperand 1 ho rfl rfl rfl rfl
  next ho =>
    refine .ofTwoWord 2 0 0xFFFF ho (by decide) (by decide) rfl (fun _ => rfl) rfl (by simp) fun hb d => ⟨hfA, ?_⟩
    rw [encode, packWord_of_fields ho rfl (beq_iff_eq.1 hb)]
  next ho =>
    refine .ofOneWord 3 0 0xFFFF ho (by decide) (by decide) rfl rfl (by simp) fun hb => ⟨hfA, ?_⟩
    rw [encode, packWord_of_fields ho rfl (beq_iff_eq.1 hb)]
  next ho => exact .ofNoOperand 4 ho rfl rfl rfl rfl
  next ho => exact .ofNoOperand 5 ho rfl rfl rfl rfl
  next ho =>
    refine .ofTwoWord 6 0xFF 0 ho (by decide) (by decide) rfl (fun _ => rfl) rfl (by simp) fun ha d => ⟨hfB, ?_⟩
    rw [encode, packWord_of_fields ho (beq_iff_eq.1 ha) rfl]
  next ho => exact .ofOperandB 7 ho rfl rfl (fun _ => rfl) fun _ => rfl
  next ho => exact .ofOperandB 8 ho rfl rfl (fun _ => rfl) fun _ => rfl
  next ho => exact .ofNoOperand 9 ho rfl rfl rfl rfl
  next ho => exact .ofNoOperand 10 ho rfl rfl rfl rfl
  next ho => exact .ofNoOperand 11 ho rfl rfl rfl rfl
  next ho => exact .ofNoOperand 12 ho rfl rfl rfl rfl
  next ho =>
    refine .ofOneWord 13 0xFF 0xFF00 ho (by decide) (by decide) rfl rfl (by simp [fieldB_and_high]) fun hz => ⟨rfl, ?_⟩
    simp only [Bool.and_eq_true, beq_iff_eq] at hz
    have hb : fieldB w < 256 := by omega
    rw [encode, BitVec.toNat_ofNat, Nat.mod_eq_of_lt hb, packWord_of_fields ho hz.1 rfl]
  next ho => exact .ofNoOperand 14 ho rfl rfl rfl rfl
  next ho => exact .ofNoOperand 15 ho rfl rfl rfl rfl
  next ho => exact .ofNoOperand 16 ho rfl rfl rfl rfl
  next ho => exact .ofNoOperand 17 ho rfl rfl rfl rfl
  next ho =>
    refine .ofOneWord 18 0 0 ho (by decide) (by decide) rfl rfl (by simp) fun _ => ⟨?_, ?_⟩
    · rw [Instr.wellFormed, hfA, hfB]; rfl
    · rw [encode, packWord_of_fields ho rfl rfl]
  next ho => exact .ofOperandB 19 ho rfl rfl (fun _ => rfl) fun _ => rfl
  next =>
    simp only [imp_false] at *
    refine .reserved (fun r hr h => ?_) (if_neg (by omega))
    have := opcodeTable_opc hr
    omega

/-- An opcode of no row is reserved (R69). -/
theorem decode_of_reserved {w : Word} (rest : List Word)
    (h : 0x09 ≤ fieldOpc w ∧ fieldOpc w ≤ 0x0F ∨ 0x14 ≤ fieldOpc w ∧ fieldOpc w ≤ 0x1F ∨ 0x27 ≤ fieldOpc w) :
    decode (w :: rest) = .reject .reservedOpcode 1 := by
  have noRow : ∀ r ∈ opcodeTable, fieldOpc r.value ≠ fieldOpc w := fun r hr => by
    have := opcodeTable_opc hr
    omega
  have hone : commandWords (fieldOpc w) = 1 := if_neg (by omega)
  have hd := decode_reading w rest
  generalize decode (w :: rest) = d at hd ⊢
  cases hd with
  | reserved => rfl
  | waits two => omega
  | unusedField r row opc => exact absurd opc (noRow r row)
  | command r row opc => exact absurd opc (noRow r row)

/-- With a row for its OPC and all its words there, a command is rejected or read as the row's mask says (R70, R73). -/
theorem decode_of_row {w : Word} {rest : List Word} {r : OpcodeRow} (row : r ∈ opcodeTable)
    (hopc : fieldOpc r.value = fieldOpc w) (arrived : commandWords (fieldOpc w) = 2 → rest ≠ []) :
    (r.accepts w = false ∧ decode (w :: rest) = .reject .unusedField (commandWords (fieldOpc w))) ∨
      (r.accepts w = true ∧ ∃ i, decode (w :: rest) = .ok i ∧ i.mnemonic = r.mnemonic) := by
  have hd := decode_reading w rest
  generalize decode (w :: rest) = d at hd ⊢
  cases hd with
  | reserved noRow => exact absurd hopc (noRow r row)
  | waits two short => exact absurd short (arrived two)
  | unusedField q qrow qopc unused =>
    cases opcodeTable_opc_inj row qrow (hopc.trans qopc.symm)
    exact .inl ⟨unused, rfl⟩
  | command q qrow qopc accepted i named =>
    cases opcodeTable_opc_inj row qrow (hopc.trans qopc.symm)
    exact .inr ⟨accepted, i, rfl, named⟩

theorem decode_of_accepts {w : Word} {rest : List Word} {r : OpcodeRow} (row : r ∈ opcodeTable)
    (hacc : r.accepts w = true) (arrived : commandWords (fieldOpc w) = 2 → rest ≠ []) :
    ∃ i, decode (w :: rest) = .ok i ∧ i.mnemonic = r.mnemonic := by
  obtain ⟨hbad, -⟩ | ⟨-, hi⟩ := decode_of_row row ((opcodeTable_accepts_iff row w).1 hacc).1.symm arrived
  · rw [hacc] at hbad
    cases hbad
  · exact hi

/-- A bit set where the row's mask covers A or B is a non-zero unused field; the row's length goes (R70). -/
theorem decode_of_unused {w : Word} {rest : List Word} {opc n ma mb : Nat} (ho : fieldOpc w = opc)
    (hrow : ∃ r ∈ opcodeTable, fieldOpc r.value = opc ∧ r.words = n ∧ fieldA r.mask = ma ∧ fieldB r.mask = mb)
    (hbits : fieldA w &&& ma ≠ 0 ∨ fieldB w &&& mb ≠ 0) (arrived : n = 2 → rest ≠ []) :
    decode (w :: rest) = .reject .unusedField n := by
  subst ho
  obtain ⟨r, row, hopc, rfl, rfl, rfl⟩ := hrow
  rw [opcodeTable_words row, hopc] at arrived ⊢
  obtain ⟨-, hd⟩ | ⟨hacc, -⟩ := decode_of_row row hopc arrived
  · exact hd
  · obtain ⟨-, ha, hb⟩ := (opcodeTable_accepts_iff row w).1 hacc
    exact absurd hbits (by simp [ha, hb])

theorem decode_ok_row {w : Word} {rest : List Word} {i : Instr} (h : decode (w :: rest) = .ok i) :
    ∃ r ∈ opcodeTable, r.mnemonic = i.mnemonic ∧ r.accepts w = true := by
  have hr := decode_reading w rest
  rw [h] at hr
  cases hr with
  | command r row _ accepted _ named => exact ⟨r, row, named.symm, accepted⟩

theorem decode_ok_words {w : Word} {rest : List Word} {i : Instr} (h : decode (w :: rest) = .ok i) :
    i.words = commandWords (fieldOpc w) := by
  have hr := decode_reading w rest
  rw [h] at hr
  cases hr with
  | command _ _ _ _ _ _ _ len => exact len

theorem decode_reject_words {w : Word} {rest : List Word} {c : Reject} {n : Nat}
    (h : decode (w :: rest) = .reject c n) : n = commandWords (fieldOpc w) := by
  have hr := decode_reading w rest
  rw [h] at hr
  cases hr with
  | reserved _ one => exact one.symm
  | unusedField => rfl

theorem decode_eq_waitData_iff (w : Word) (rest : List Word) :
    decode (w :: rest) = .waitData ↔ commandWords (fieldOpc w) = 2 ∧ rest = [] := by
  have hr := decode_reading w rest
  generalize decode (w :: rest) = d at hr ⊢
  cases hr with
  | reserved noRow one => simp [one]
  | waits two short => simp [two, short]
  | unusedField _ _ _ _ arrived => simpa using arrived
  | command _ _ _ _ i _ _ len front =>
    refine ⟨nofun, fun ⟨two, hrest⟩ => ?_⟩
    obtain ⟨more, he⟩ := front
    have hlen := congrArg List.length he
    rw [hrest, List.length_append, ← Instr.words, len, two, List.length_singleton] at hlen
    omega

/-! ### Decoding and encoding (R65, R73) -/

theorem decode_ok_encode {ws : List Word} {i : Instr} (h : decode ws = .ok i) :
    i.wellFormed = true ∧ ∃ more, ws = encode i ++ more := by
  cases ws with
  | nil => cases h
  | cons w rest =>
    have hr := decode_reading w rest
    rw [h] at hr
    cases hr with
    | command _ _ _ _ _ _ fits _ front => exact ⟨fits, front⟩

theorem decode_encode_append {i : Instr} (rest : List Word) (h : i.wellFormed = true) :
    decode (encode i ++ rest) = .ok i := by
  cases i with
  | nop | reset | commit | qneed | frame | ldpc | interleave | map | crc8clr | bchenc | rand | bbhdr => rfl
  | crc8 b =>
    have hb : b.toNat < 256 := b.isLt
    have hhigh : b.toNat / 256 = 0 := Nat.div_eq_of_lt hb
    simp (disch := omega) [encode, decode, oneWord, fieldOpc_packWord, fieldA_packWord, fieldB_packWord, hhigh]
  | wrcfg a d | rdreg a | wrfb a d | rdfb a | rdcb a | rdadj a d | rdadjn a =>
    simp only [Instr.wellFormed, fitsA, fitsB, Bool.and_eq_true, decide_eq_true_eq] at h
    simp (disch := omega) [encode, decode, oneWord, twoWord, fieldOpc_packWord, fieldA_packWord, fieldB_packWord]

end Sys2Proof
end

section
/-! SUPPORT. How many words a step takes from CMD, and what a rejected encoding does (30_encoding.md R66, R69, R70). -/

namespace Sys2Proof.Machine

theorem step_of_ok {s : State} {i : Instr} (h : decode s.cmd = .ok i) : step s = exec i s := by
  rw [step, h]

theorem step_of_reject {s : State} {c : Reject} {n : Nat} (h : decode s.cmd = .reject c n) :
    step s = .next (s.rejected n .cmdReserved) := by
  rw [step, h]

theorem step_of_waitData {s : State} (h : decode s.cmd = .waitData) : step s = .next s := by
  rw [step, h]

/-! ### The words a step takes (R66) -/

/-- Only FRAME can wait once it is decoded (R262, case 3). -/
theorem State.hold_of_ok {s : State} {i : Instr} (hd : decode s.cmd = .ok i) (hi : i ≠ .frame) : s.hold = none := by
  simp only [State.hold, hd]
  split
  · exact absurd rfl hi
  · rfl

/-- A FRAME that does not hold takes its word, done or rejected (R204). -/
theorem execFrame_cmd_of_not_hold {s t : State} (hd : decode s.cmd = .ok .frame) (hh : s.hold = none)
    (h : execFrame s = .next t) : t.cmd = s.cmd.drop 1 := by
  simp only [State.hold, hd] at hh
  unfold execFrame at h
  cases hp : s.phase.tables with
  | none =>
    simp only [hp] at h
    cases h
    rfl
  | some tb =>
    simp only [hp] at h hh
    split at h
    · simp_all
    · cases h
      rfl

theorem exec_cmd_of_not_hold {s t : State} {i : Instr} (hd : decode s.cmd = .ok i) (hh : s.hold = none)
    (h : exec i s = .next t) : t.cmd = s.cmd.drop i.words := by
  obtain ⟨rfl, -⟩ | ht := exec_cmd i s t h
  · exact execFrame_cmd_of_not_hold hd hh h
  · exact ht

/-- A step that does not hold takes the words that OPC asks for, whether the command runs or is rejected. -/
theorem step_takes_commandWords {s : State} {w : Word} {rest : List Word} (hc : s.cmd = w :: rest)
    (hh : s.hold = none) : ∃ t, step s = .next t ∧ t.cmd = (w :: rest).drop (commandWords (fieldOpc w)) := by
  rw [← hc]
  cases hd : decode s.cmd with
  | ok i =>
    obtain ⟨t, ht⟩ := exec_answers i s
    rw [← decode_ok_words (hc ▸ hd)]
    exact ⟨t, (step_of_ok hd).trans ht, exec_cmd_of_not_hold hd hh ht⟩
  | reject c n =>
    rw [← decode_reject_words (hc ▸ hd)]
    exact ⟨_, step_of_reject hd, rfl⟩
  | waitCommand => simp [State.hold, hd] at hh
  | waitData => simp [State.hold, hd] at hh

/-- A 2-word command whose data word is there does not hold. -/
theorem State.hold_of_two_words {s : State} {w : Word} {rest : List Word} (hc : s.cmd = w :: rest)
    (two : commandWords (fieldOpc w) = 2) (arrived : rest ≠ []) : s.hold = none := by
  cases hd : decode s.cmd with
  | ok i =>
    refine State.hold_of_ok hd ?_
    rintro rfl
    exact absurd ((decode_ok_words (hc ▸ hd)).trans two) (by decide)
  | reject c n => simp [State.hold, hd]
  | waitCommand =>
    rw [hc, decode_eq_waitCommand_iff] at hd
    cases hd
  | waitData =>
    rw [hc, decode_eq_waitData_iff] at hd
    exact absurd hd.2 arrived

/-- A command that the decoder rejects (R69, R70): the raise, and its words gone. -/
theorem step_rejected_eq {s : State} {w : Word} {rest : List Word} {c : Reject} {n : Nat} (hc : s.cmd = w :: rest)
    (hd : decode (w :: rest) = .reject c n) : step s = .next { s with
      cmdErr := true, errCode := if s.phase = .fatal then s.errCode else .cmdReserved, cmd := (w :: rest).drop n } := by
  rw [← hc] at hd ⊢
  rw [step_of_reject hd, State.rejected_eq]

/-! ### The statements on encoding -/

/-- Settles O11: each format puts its operands in fields that the decoder reads back. -/
theorem decodeOfEncodeIsIdentity : Obligations.DecodeOfEncodeIsIdentity := fun _ rest h => decode_encode_append rest h

/-- Settles O7: the data word is awaited or taken with its command, and a step that does not hold takes its words. -/
theorem commandLengthIsDecidedByOpcode : Obligations.CommandLengthIsDecidedByOpcode := by
  intro s w rest hc
  refine ⟨fun ⟨two, hrest⟩ => step_of_waitData ?_, fun ⟨two, hrest⟩ => ?_, fun ⟨hone, hh⟩ => ?_⟩
  · rw [hc]
    exact (decode_eq_waitData_iff w rest).2 ⟨if_pos two, hrest⟩
  · have htwo : commandWords (fieldOpc w) = 2 := if_pos two
    have ht := step_takes_commandWords hc (State.hold_of_two_words hc htwo hrest)
    rwa [htwo] at ht
  · have ht := step_takes_commandWords hc hh
    rwa [commandWords, if_neg hone] at ht

/-- Settles O8: no row of the opcode table has a reserved opcode. -/
theorem reservedOpcodeRaisesCmdReserved : Obligations.ReservedOpcodeRaisesCmdReserved :=
  fun _ _ rest hc h => step_rejected_eq hc (decode_of_reserved rest h)

/-- Settles O9: the mask of each row covers the fields that its format leaves unused. -/
theorem nonzeroUnusedFieldRaisesCmdReserved : Obligations.NonzeroUnusedFieldRaisesCmdReserved := by
  intro s w rest hc
  refine ⟨fun h => step_rejected_eq (c := .unusedField) (n := 1) hc ?_,
    fun ⟨h, arrived⟩ => step_rejected_eq (c := .unusedField) (n := 2) hc ?_⟩
  · obtain ⟨ho, hz⟩ | ⟨ho, hb⟩ | ⟨ho, ha⟩ | ⟨ho, hz⟩ := h
    · exact decode_of_unused rfl (opcodeTable_formatF0 _ ho) (by simpa using hz) nofun
    · exact decode_of_unused ho opcodeTable_rdreg (by simpa using hb) nofun
    · exact decode_of_unused rfl (opcodeTable_formatFB _ ho) (by simpa using ha) nofun
    · refine decode_of_unused ho opcodeTable_crc8 (hz.imp (by simp) ?_) nofun
      rw [fieldB_and_high]
      omega
  · obtain ⟨ho, hb⟩ | ⟨ho, ha⟩ := h
    · exact decode_of_unused ho opcodeTable_wrcfg (by simpa using hb) fun _ => arrived
    · exact decode_of_unused ho opcodeTable_wrfb (by simpa using ha) fun _ => arrived

/-- Settles O10: each answer of the decoder goes by the one row of its opcode. -/
theorem decoderAgreesWithOpcodeTable : Obligations.DecoderAgreesWithOpcodeTable := by
  intro w d n
  constructor
  · rintro ⟨i, hd, rfl⟩
    exact decode_ok_row hd
  · rintro ⟨r, row, rfl, hacc⟩
    exact decode_of_accepts row hacc (by simp)

/-- Settles O12: every answer of the decoder that is a command is one of the encodings. -/
theorem decodedWordsAreTheEncoding : Obligations.DecodedWordsAreTheEncoding := fun _ _ h => decode_ok_encode h

/-- Settles O13: the nine commands encoded one after the other. -/
theorem setupEncodeProgramIsItsWordSequence : Obligations.SetupEncodeProgramIsItsWordSequence := by
  unfold Obligations.SetupEncodeProgramIsItsWordSequence
  decide

/-- Settles O14: the decoder run on each word. -/
theorem sampleWordsDecode : Obligations.SampleWordsDecode := by
  unfold Obligations.SampleWordsDecode
  decide

end Sys2Proof.Machine
end

section
/-! SUPPORT. Legality by STATE (40_control.md R79): what a command does where the table says no, and what READY keeps. -/

namespace Sys2Proof.Machine

/-! ### A rejected command, outside FATAL and inside it (R264, R266) -/

theorem State.rejected_of_ne_fatal {s : State} (n : Nat) (e : ErrCode) (hp : s.phase ≠ .fatal) :
    s.rejected n e = { s with cmdErr := true, errCode := e, cmd := s.cmd.drop n } := by
  rw [State.rejected_eq, if_neg hp]

theorem State.rejected_of_fatal {s : State} (n : Nat) (e : ErrCode) (hp : s.phase = .fatal) :
    s.rejected n e = { s with cmdErr := true, cmd := s.cmd.drop n } := by
  rw [State.rejected_eq, if_pos hp]

/-! ### Illegal commands (R79) -/

/-- The guard that every command of READY alone has, where STATE is not READY. -/
theorem readyGuard_of_not_ready {s : State} {f : Tables → Host.Outcome State Fault Refusal}
    (h : s.phase.tables.isSome = false) :
    (match s.phase.tables with
      | none => .next (s.rejected 1 .cmdState)
      | some tb => f tb) = Host.Outcome.next (s.rejected 1 .cmdState) := by
  rw [Option.isSome_eq_false_iff, Option.isNone_iff_eq_none] at h
  rw [h]

theorem exec_of_not_legalIn {i : Instr} {s : State} (h : legalIn i s.phase = false) :
    exec i s = .next (s.rejected i.words .cmdState) := by
  cases i with
  | nop | rdreg => cases h
  | reset | wrfb | rdfb | rdcb | crc8 | crc8clr => exact if_pos (by simpa [legalIn] using h)
  | wrcfg | commit => exact if_neg (Bool.eq_false_iff.1 h)
  | _ => exact readyGuard_of_not_ready h

/-- In FATAL the same, and ERRCODE keeps the Fatal's code (R264). -/
theorem exec_of_not_legalIn_in_fatal {i : Instr} {s : State} (hp : s.phase = .fatal) (h : legalIn i .fatal = false) :
    exec i s = .next { s with cmdErr := true, cmd := s.cmd.drop i.words } := by
  rw [exec_of_not_legalIn (hp ▸ h), State.rejected_of_fatal _ _ hp]

/-- Settles O16: every command's guard on STATE is its row of the table. -/
theorem commandIllegalInStateRaisesCmdState : Obligations.CommandIllegalInStateRaisesCmdState := by
  intro i s h
  rw [exec_of_not_legalIn h, State.rejected_eq]

/-! ### What READY keeps (R37, R79) -/

namespace Effect

variable {s t : State} {i : Instr} {tb : Tables}

/-- WRCFG, the one writer of the configuration, is not legal in READY. -/
theorem cfg_eq_of_ready (h : Effect s i t) (hp : s.phase = .ready tb) :
    t.cfg0 = s.cfg0 ∧ t.cfg1 = s.cfg1 ∧ t.cfg2 = s.cfg2 ∧ t.cfg3 = s.cfg3 := by
  cases h with
  | configured _ _ _ _ _ _ legal => simp [hp] at legal
  | _ => exact ⟨rfl, rfl, rfl, rfl⟩

/-- Of the two writers of STATE, COMMIT is not legal in READY. -/
theorem phase_eq_of_ready (h : Effect s i t) (hp : s.phase = .ready tb) (hreset : i ≠ .reset) :
    t.phase = .ready tb := by
  cases h with
  | committed _ _ legal => simp [hp] at legal
  | reset => exact absurd rfl hreset
  | _ => exact hp

end Effect

theorem exec_reset_of_ne_fatal {s : State} (hp : s.phase ≠ .fatal) :
    exec .reset s = .next (s.streamReset.retire 1) :=
  if_neg (Bool.eq_false_iff.1 (Phase.isFatal_of_ne hp))

/-- Settles O18: a command's effects in READY, and RESET by its meaning. -/
theorem readyKeepsConfigurationAndTables : Obligations.ReadyKeepsConfigurationAndTables := by
  intro s t tb i hp h
  have he := exec_effect h
  obtain ⟨h0, h1, h2, h3⟩ := he.cfg_eq_of_ready hp
  refine ⟨h0, h1, h2, h3, he.phase_eq_of_ready hp, ?_⟩
  rintro rfl
  rw [exec_reset_of_ne_fatal (by simp [hp])] at h
  cases h
  rfl

/-- Settles O6: `step` adds nothing to the command it has decoded. -/
theorem stepRunsTheDecodedCommand : Obligations.StepRunsTheDecodedCommand := fun _ _ => step_of_ok

end Sys2Proof.Machine
end

section
/-! SUPPORT. NOP, WRCFG and RDREG: the register that an index names, and what each command does with it (40_control.md R80 to
R82). -/

namespace Sys2Proof.Machine

variable {s : State} {a : Nat}

/-- Settles O22: the meaning of NOP. -/
theorem nopChangesNothing : Obligations.NopChangesNothing := fun _ => rfl

/-! ### Register indices (R24, R35) -/

theorem regOf_of_reserved (h : 3 < a ∧ a < 0x10 ∨ 0x15 < a) : regOf a = none := by
  unfold regOf
  split
  case h_11 => rfl
  all_goals omega

/-- Every register past CFG3 is read-only (R23). -/
theorem State.writeReg_eq_none (s : State) (d : Word) (h : 3 < a) : s.writeReg a d = none := by
  by_cases hres : a < 0x10 ∨ 0x15 < a
  · rw [State.writeReg, regOf_of_reserved (by omega)]
  · obtain ⟨hlo, hhi⟩ : 0x10 ≤ a ∧ a ≤ 0x15 := by omega
    interval_cases a <;> rfl

/-! ### WRCFG (R80) -/

theorem exec_wrcfg_of_writeReg {u : State} {d : Word} (hp : s.phase = .unconfigured ∨ s.phase = .cfgError)
    (hw : s.writeReg a d = some u) : exec (.wrcfg a d) s = .next (u.retire 2) := by
  simp only [exec, execWrcfg, (Phase.isConfiguring_iff _).2 hp, if_true, hw]

theorem exec_wrcfg_of_not_writable {d : Word} (hp : s.phase = .unconfigured ∨ s.phase = .cfgError) (h : 3 < a) :
    exec (.wrcfg a d) s = .next (s.rejected 2 .cmdReg) := by
  simp only [exec, execWrcfg, (Phase.isConfiguring_iff _).2 hp, if_true, s.writeReg_eq_none d h]

/-- Settles O23: the four writable registers one by one, every other index together, and the guard on STATE. -/
theorem wrcfgStoresTheMaskedWord : Obligations.WrcfgStoresTheMaskedWord := by
  intro s d
  refine ⟨fun hp => ?_, fun a tb hp => ?_, fun a hp => exec_of_not_legalIn_in_fatal hp rfl⟩
  · have alive : s.phase ≠ .fatal := by rcases hp with hp | hp <;> simp [hp]
    refine ⟨exec_wrcfg_of_writeReg (u := { s with cfg0 := d &&& wmaskCfg0 }) hp rfl,
      exec_wrcfg_of_writeReg (u := { s with cfg1 := d &&& wmaskCfg1 }) hp rfl,
      exec_wrcfg_of_writeReg (u := { s with cfg2 := d &&& wmaskCfg2 }) hp rfl,
      exec_wrcfg_of_writeReg (u := { s with cfg3 := d &&& wmaskCfg3 }) hp rfl, fun a ha => ?_⟩
    rw [exec_wrcfg_of_not_writable hp ha, State.rejected_of_ne_fatal 2 _ alive]
  · rw [exec_of_not_legalIn (by simp [legalIn, hp]), Instr.words_wrcfg, State.rejected_of_ne_fatal 2 _ (by simp [hp])]

/-! ### RDREG (R81) -/

theorem exec_rdreg_of_regOf {r : Reg} (h : regOf a = some r) :
    exec (.rdreg a) s = .next { s with resp := s.resp ++ [s.readReg r], cmd := s.cmd.drop 1 } := by
  simp only [exec, execRdreg, h]
  rfl

theorem exec_rdreg_of_reserved (h : 3 < a ∧ a < 0x10 ∨ 0x15 < a) :
    exec (.rdreg a) s = .next (s.rejected 1 .cmdReg) := by
  simp only [exec, execRdreg, regOf_of_reserved h]

/-- Settles O24: the ten indices of R24 one by one, and the reserved ones together. -/
theorem rdregPushesTheRegister : Obligations.RdregPushesTheRegister := by
  intro s
  constructor
  · have hcrct : s.readReg .crct = BitVec.ofNat 32 s.crct.toNat := (BitVec.ofNat_toNat _ _).symm
    simp only [List.forall_mem_cons, ← hcrct]
    exact ⟨exec_rdreg_of_regOf (r := .cfg0) rfl, exec_rdreg_of_regOf (r := .cfg1) rfl,
      exec_rdreg_of_regOf (r := .cfg2) rfl, exec_rdreg_of_regOf (r := .cfg3) rfl,
      exec_rdreg_of_regOf (r := .status) rfl, exec_rdreg_of_regOf (r := .fstate) rfl,
      exec_rdreg_of_regOf (r := .param0) rfl, exec_rdreg_of_regOf (r := .param1) rfl,
      exec_rdreg_of_regOf (r := .crct) rfl, exec_rdreg_of_regOf (r := .lastio) rfl, nofun⟩
  · intro a ha
    rw [exec_rdreg_of_reserved ha, State.rejected_eq]

end Sys2Proof.Machine
end

section
/-! SUPPORT. The buffer accesses WRFB, RDFB and RDCB (40_control.md R87 to R89): their two guards, and the bits of a word. -/

namespace Sys2Proof.Machine

variable {s : State}

/-! ### The guards that the three share (R55, R79) -/

/-- Past the end of the buffer: CMD_INDEX. -/
theorem bufferGuard_outside {words size k : Nat} {f : Host.Outcome State Fault Refusal} (hp : s.phase ≠ .fatal)
    (hk : size ≤ k) :
    (if s.phase.isFatal then .next (s.rejected words .cmdState)
      else if size ≤ k then .next (s.rejected words .cmdIndex) else f) =
      .next { s with cmdErr := true, errCode := .cmdIndex, cmd := s.cmd.drop words } := by
  simp [Phase.isFatal_of_ne hp, hk, State.rejected_of_ne_fatal words _ hp]

theorem bufferGuard_inside {words size k : Nat} {f : Host.Outcome State Fault Refusal} (hp : s.phase ≠ .fatal)
    (hk : k < size) :
    (if s.phase.isFatal then .next (s.rejected words .cmdState)
      else if size ≤ k then .next (s.rejected words .cmdIndex) else f) = f := by
  simp [Phase.isFatal_of_ne hp, hk]

/-! ### FRAMEBUF words (R51) -/

/-- Bit `31 − k` of a word, counted from the least significant, is bit `k` from the most significant. -/
theorem word_getLsbD_eq_getMsbD (v : Word) {k : Nat} (hk : k < 32) : v.getLsbD (31 - k) = v.getMsbD k := by
  simp [BitVec.getMsbD_eq_getLsbD, hk]

/-- Settles O30: the word written bit by bit, and the two guards. -/
theorem wrfbWritesOneFramebufWord : Obligations.WrfbWritesOneFramebufWord := by
  intro s w d
  refine ⟨fun hp hw => ⟨_, bufferGuard_inside hp (by simp only [fbWords]; omega), rfl, fun k hk => ?_, fun i hi => ?_⟩,
    fun hp hw => bufferGuard_outside hp hw, fun hp => exec_of_not_legalIn_in_fatal hp rfl⟩
  · simp [fbBit_fbWriteWord, word_getLsbD_eq_getMsbD d hk, hk]
  · simp only [State.retire_frameBuf, State.setFrameBuf_frameBuf, fbBit_fbWriteWord]
    rw [if_neg (by omega)]

/-- Settles O31: the word read bit by bit, and the two guards. -/
theorem rdfbPushesOneFramebufWord : Obligations.RdfbPushesOneFramebufWord := by
  intro s w
  refine ⟨fun hp hw => ⟨fbReadWord s.frameBuf w, fun k hk => ?_,
      bufferGuard_inside hp (by simp only [fbWords]; omega)⟩,
    fun hp hw => bufferGuard_outside hp hw, fun hp => exec_of_not_legalIn_in_fatal hp rfl⟩
  rw [word_getLsbD_eq_getMsbD _ hk, fbReadWord_getMsbD _ _ _ hk]

/-- Settles O32: the cell as the number it is, and the two guards. -/
theorem rdcbPushesOneCell : Obligations.RdcbPushesOneCell := by
  intro s j
  refine ⟨fun hp hj => ?_, fun hp hj => bufferGuard_outside hp hj, fun hp => exec_of_not_legalIn_in_fatal hp rfl⟩
  rw [BitVec.ofNat_toNat]
  exact bufferGuard_inside hp (by simp only [cbCells]; omega)

end Sys2Proof.Machine
end

section
/-! SUPPORT. NEED in HEM (46_pipeline.md R203): a run of bytes, and how many of them are payload. -/

namespace Sys2Proof.Machine

/-- How many of `n` bytes from packet byte `c` on are payload, and no sync byte. -/
def payloadCount (c n : Nat) : Nat := ((List.range n).filter fun k => decide ((c + k) % 188 ≠ 0)).length

theorem payloadCount_succ (c n : Nat) :
    payloadCount c (n + 1) = (if c % 188 = 0 then 0 else 1) + payloadCount (c + 1) n := by
  have htail : (List.range n).countP ((fun k => decide ((c + k) % 188 ≠ 0)) ∘ Nat.succ) = payloadCount (c + 1) n := by
    rw [payloadCount, ← List.countP_eq_length_filter]
    exact List.countP_congr fun k _ => by simp [Nat.add_right_comm, Nat.add_assoc]
  rw [payloadCount, ← List.countP_eq_length_filter, List.range_succ_eq_map, List.countP_cons, List.countP_map, htail,
    Nat.add_comm]
  by_cases h : c % 188 = 0 <;> simp [h]

theorem payloadCount_mod (c n : Nat) : payloadCount (c % 188) n = payloadCount c n := by
  simp [payloadCount]

/-- NEED in HEM is the shortest run of bytes with `d` payload bytes in it: it has `d`, and its last byte is one (R203). -/
theorem needHem_spec (d c : Nat) (hc : c < 188) :
    payloadCount c (needHem d c) = d ∧ (0 < needHem d c → (c + (needHem d c - 1)) % 188 ≠ 0) := by
  induction d generalizing c with
  | zero => exact ⟨rfl, nofun⟩
  | succ d ih =>
    rw [needHem]
    split
    next hsync =>
      subst hsync
      obtain ⟨hcount, hlast⟩ := ih 2 (by omega)
      rw [show 2 + needHem d 2 = needHem d 2 + 1 + 1 by omega, payloadCount_succ, payloadCount_succ, hcount]
      refine ⟨by simp; omega, fun _ => ?_⟩
      rcases Nat.eq_zero_or_pos (needHem d 2) with hz | hpos
      · simp [hz]
      · have := hlast hpos
        omega
    next hpay =>
      obtain ⟨hcount, hlast⟩ := ih ((c + 1) % 188) (Nat.mod_lt _ (by omega))
      rw [Nat.add_comm 1, payloadCount_succ, ← payloadCount_mod (c + 1), hcount, if_neg (by omega)]
      refine ⟨by omega, fun _ => ?_⟩
      rcases Nat.eq_zero_or_pos (needHem d ((c + 1) % 188)) with hz | hpos
      · omega
      · have := hlast hpos
        omega

theorem State.dataBytes_eq (s : State) (t : Tables) :
    s.dataBytes t = (t.par.kbch - 80 - (if cfgInband s.cfg0 = true ∧ s.ibc = 0 then 104 else 0)) / 8 := by
  simp [State.dataBytes, State.pad]

/-- Settles O33: NEED is the count of data bytes in NM, and `needHem` of it in HEM. -/
theorem qneedPushesNeed : Obligations.QneedPushesNeed := by
  intro s t hp
  refine ⟨s.need t, execQneed_ready s t hp, ?_⟩
  rw [← s.dataBytes_eq t, State.need]
  refine ⟨fun hm => by rw [hm], fun hm hc => ?_⟩
  rw [hm]
  exact needHem_spec _ _ hc

end Sys2Proof.Machine
end

section
/-! SUPPORT. The Parameter Table, and COMMIT past its first two checks (40_control.md R84, R85, R91 to R96). -/

namespace Sys2Proof.Machine

/-! ### The Parameter Table (R91 to R96) -/

theorem codeParams_invariants {fs : FrameSize} {r : CodeRate} {c : CodeParams} (h : codeParams fs r = some c) :
    c.nbch - c.kbch = c.pbch ∧ 0 < c.n - c.nbch ∧ c.n = frameBitsOf fs ∧ c.n - c.nbch = 360 * c.q ∧
      c.kbch % 8 = 0 ∧ (c.kbch - 80) % 8 = 0 ∧ (c.kbch - 184) % 8 = 0 ∧ c.nbch % 360 = 0 := by
  cases fs <;> cases r <;> simp only [codeParams, ptRow, Option.some.injEq, reduceCtorEq] at h <;> subst h <;> decide

/-- Settles O29: the rows as they are written, and the invariants row by row. -/
theorem parameterTableInvariants : Obligations.ParameterTableInvariants :=
  ⟨rfl, rfl, fun _ _ _ => codeParams_invariants⟩

/-! ### The interleaver tables (R221) -/

/-- Nc and Nr as R221 tabulates them; QPSK has none. -/
def ilvGeometry (fs : FrameSize) (m : Modulation) : Nat × Nat :=
  match fs, m with
  | .normal, .qam16 => (8, 8100)
  | .normal, .qam64 => (12, 5400)
  | .normal, .qam256 => (16, 4050)
  | .short, .qam16 => (8, 2025)
  | .short, .qam64 => (12, 1350)
  | .short, .qam256 => (8, 2025)
  | .normal, .qpsk => (0, 0)
  | .short, .qpsk => (0, 0)

theorem ilvGeometry_eq (fs : FrameSize) {m : Modulation} (hm : m ≠ .qpsk) :
    ilvColumns fs m = (ilvGeometry fs m).1 ∧ ilvRows (frameBitsOf fs) (ilvGeometry fs m).1 = (ilvGeometry fs m).2 := by
  cases m with
  | qpsk => exact absurd rfl hm
  | qam16 | qam64 | qam256 => cases fs <;> exact ⟨rfl, rfl⟩

/-- Both tables stand, with `nc` entries each, every offset below `nr` and a permutation of [0, nc) (R221). -/
def IlvTablesFit (nc nr : Nat) (tw mx : Option (List Nat)) : Prop :=
  ∃ t x, tw = some t ∧ mx = some x ∧ t.length = nc ∧ x.length = nc ∧ (∀ o ∈ t, o < nr) ∧ x.Perm (List.range nc)

theorem ilvTablesValid_iff_fit (nc nr : Nat) (tw mx : Option (List Nat)) :
    ilvTablesValid nc nr tw mx = true ↔ IlvTablesFit nc nr tw mx := by
  rw [ilvTablesValid_iff]
  constructor
  · rintro ⟨t, x, ht, hx, htw, hmx⟩
    obtain ⟨hlen, hoff⟩ := (twistValid_iff _ _ _).1 htw
    have hperm := (muxValid_iff _ _).1 hmx
    exact ⟨t, x, ht, hx, hlen, by simpa using hperm.length_eq, hoff, hperm⟩
  · rintro ⟨t, x, ht, hx, hlen, -, hoff, hperm⟩
    exact ⟨t, x, ht, hx, (twistValid_iff _ _ _).2 ⟨hlen, hoff⟩, (muxValid_iff _ _).2 hperm⟩

/-- COMMIT accepts the interleaver tables of its configuration (R84, R221). -/
def IlvAccepted (p : Params) (fs : FrameSize) (m : Modulation) (r : CodeRate) : Prop :=
  m = .qpsk ∨ IlvTablesFit (ilvGeometry fs m).1 (ilvGeometry fs m).2 (p.twist fs m r) (p.mux fs m r)

theorem ilvTableError_eq_false_iff {p : Params} {c0 : Word} {r : CodeRate} {c : CodeParams}
    (hn : c.n = frameBitsOf (cfgFs c0)) :
    ilvTableError p c0 r c = false ↔ IlvAccepted p (cfgFs c0) (cfgMod c0) r := by
  by_cases hm : cfgMod c0 = .qpsk
  · simp [ilvTableError, IlvAccepted, hm]
  · obtain ⟨hcols, hrows⟩ := ilvGeometry_eq (cfgFs c0) hm
    simp [ilvTableError, IlvAccepted, hm, hn, hcols, hrows, ilvTablesValid_iff_fit]

/-! ### The LDPC base table (R146, R148, R149) -/

/-- The base table is missing where it is needed, or is no base table of the row (R146, R148). -/
def BaseCorrupted (mode : LdpcMode) (base : Option (List (List Nat))) (c : CodeParams) : Prop :=
  (base = none ∧ mode = .computed) ∨
    ∃ b, base = some b ∧ (b.length ≠ c.nbch / 360 ∨ ∃ row ∈ b, ∃ x ∈ row, c.n - c.nbch ≤ x)

/-- The expanded table is larger than the adjacency store (R149). -/
def OverCapacity (cap : Nat) (base : Option (List (List Nat))) : Prop :=
  ∃ b, base = some b ∧ cap < 360 * (b.map List.length).sum

section

variable {mode : LdpcMode} {cap : Nat} {base : Option (List (List Nat))} {c : CodeParams}

theorem expandLdpc_of_corrupted (h : BaseCorrupted mode base c) :
    expandLdpc mode cap base c = .error .fatalLdpcTable := by
  obtain ⟨rfl, rfl⟩ | ⟨b, rfl, hb⟩ := h
  · rfl
  · exact if_pos ((baseWellFormed_eq_false_iff b c).2 hb)

theorem baseWellFormed_of_not_corrupted {b : List (List Nat)} (h : ¬ BaseCorrupted mode (some b) c) :
    ¬ baseWellFormed b c = false :=
  fun hb => h (.inr ⟨b, rfl, (baseWellFormed_eq_false_iff b c).1 hb⟩)

theorem expandLdpc_of_overCapacity (h : ¬ BaseCorrupted mode base c) (ho : OverCapacity cap base) :
    expandLdpc mode cap base c = .error .fatalLdpcCap := by
  obtain ⟨b, rfl, hcap⟩ := ho
  exact (if_neg (baseWellFormed_of_not_corrupted h)).trans (if_pos hcap)

theorem expandLdpc_of_accepted (h : ¬ BaseCorrupted mode base c) (ho : ¬ OverCapacity cap base) :
    expandLdpc mode cap base c = .ok (base.map (adjLists c)) := by
  cases base with
  | none =>
    cases mode with
    | zero => rfl
    | computed => exact absurd (.inl ⟨rfl, rfl⟩) h
  | some b => exact (if_neg (baseWellFormed_of_not_corrupted h)).trans (if_neg fun hcap => ho ⟨b, rfl, hcap⟩)

end

/-! ### COMMIT past the rate and in-band checks (R84) -/

theorem State.committed_cmd (s : State) (p : Params) : (s.committed p).cmd = s.cmd := by
  obtain ⟨q, e, h⟩ := s.committed_eq p
  rw [h]

section

variable {s : State} {r : CodeRate} {c : CodeParams} {p : Params}
  (hs : selectParams s.cfg0 = some (r, c)) (hin : (cfgInband s.cfg0 && cfgInbandN s.cfg2 == 0) = false)

include hs hin

theorem State.committed_ilvTable (hilv : ilvTableError p s.cfg0 r c = true) :
    s.committed p = s.raiseCfg .cfgIlvTable := by
  simp [State.committed, commitTables, hs, hin, hilv]

theorem State.committed_fatal {e : ErrCode} (hilv : ilvTableError p s.cfg0 r c = false)
    (he : expandLdpc p.ldpcMode p.ldpcCap (p.ldpcBase (cfgFs s.cfg0) r) c = .error e) :
    s.committed p = s.raiseFatal e := by
  simp [State.committed, commitTables, hs, hin, hilv, he]

theorem State.committed_ready {adj : Option (List (List Nat))} (hilv : ilvTableError p s.cfg0 r c = false)
    (ha : expandLdpc p.ldpcMode p.ldpcCap (p.ldpcBase (cfgFs s.cfg0) r) c = .ok adj) :
    s.committed p = { s with
      phase := .ready (buildTables c (cfgMod s.cfg0) (cfgRot s.cfg0) adj (p.twist (cfgFs s.cfg0) (cfgMod s.cfg0) r)
        (p.mux (cfgFs s.cfg0) (cfgMod s.cfg0) r))
      errCode := .none } := by
  simp [State.committed, commitTables, hs, hin, hilv, ha]

end

/-- Settles O28: each check by what it asks of the OPEN tables, and COMMIT by the check that stops it. -/
theorem commitBuildsTheTables : Obligations.CommitBuildsTheTables := by
  intro s r c p hp hr hc hin
  have hs := (selectParams_eq_some s.cfg0 r c).2 ⟨hr, hc⟩
  replace hin : (cfgInband s.cfg0 && cfgInbandN s.cfg2 == 0) = false := by simpa using hin
  obtain ⟨-, -, hn, -⟩ := codeParams_invariants hc
  have hilv := ilvTableError_eq_false_iff (p := p) (r := r) hn
  refine ⟨?_, fun hm => ?_, fun hbad => ?_, fun hok hbase => ?_, fun hok hbase hcap => ?_,
    fun hok hbase hcap => ?_⟩
  · rw [execCommit_configuring hp, State.retire, State.committed_cmd]
  · exact hn ▸ ilvGeometry_eq (cfgFs s.cfg0) hm
  · exact State.committed_ilvTable hs hin (Bool.eq_true_of_not_eq_false fun h => hbad (hilv.1 h))
  · exact State.committed_fatal hs hin (hilv.2 hok) (expandLdpc_of_corrupted hbase)
  · exact State.committed_fatal hs hin (hilv.2 hok) (expandLdpc_of_overCapacity hbase hcap)
  · exact State.committed_ready hs hin (hilv.2 hok) (expandLdpc_of_accepted hbase hcap)

end Sys2Proof.Machine
end

section
/-! SUPPORT. The CRC-8 engine (41_crc8.md): its table, its bit-serial and its reversed form, and the commands CRC8 and
CRC8CLR. -/

namespace Sys2Proof.Machine

/-! ### The commands (R114, R115) -/

theorem crc8Table_getD (i : Byte) : crc8Table.getD i.toNat 0 = crc8Entry i := by
  have hi : i.toNat < 256 := i.isLt
  simp [crc8Table, hi]

/-- Settles O34: both effects past the guard on STATE, and the guard in FATAL. -/
theorem crcCommandsDriveCrct : Obligations.CrcCommandsDriveCrct := by
  intro s b
  refine ⟨fun hp => ?_, fun hp => ⟨exec_of_not_legalIn_in_fatal hp rfl, exec_of_not_legalIn_in_fatal hp rfl⟩⟩
  have alive : ¬ s.phase.isFatal = true := (Phase.isFatal_iff _).not.2 hp
  rw [crc8Table_getD]
  exact ⟨if_neg alive, if_neg alive⟩

/-! ### Appending the CRC (R116) -/

theorem crc8_concat (bs : List Byte) (b : Byte) : crc8 (bs ++ [b]) = crc8Byte (crc8 bs) b := List.foldl_concat ..

theorem crc8Byte_self (s : Byte) : crc8Byte s s = 0 := by
  rw [crc8Byte, BitVec.xor_self]
  decide

/-- Settles O36: the last byte of the check meets itself in the register. -/
theorem crcRoundTripIsZero : Obligations.CrcRoundTripIsZero := fun bs => by
  rw [crc8_concat, crc8Byte_self]

/-! ### The bit-serial form (R113) -/

theorem byteBits_eq_map (b : Byte) : byteBits b = (List.range 8).map b.getMsbD := by
  refine List.map_congr_left fun k hk => ?_
  simp [BitVec.getMsbD, BitVec.getLsbD, List.mem_range.1 hk]

/-- A byte `y` XORed into the register at once gives up its bit 7 to the step, and the rest of it moves on. -/
theorem crc8Shift_xor (r y : Byte) : crc8Shift (r ^^^ y) = crc8Bit r y.msb ^^^ y <<< 1 := by
  simp only [crc8Shift, crc8Bit, BitVec.msb_xor, BitVec.shiftLeft_xor_distrib]
  split
  · ac_rfl
  · rfl

/-- After `n` steps from `r ^^^ y` the first `n` bits of `y` have been fed, and what is left of `y` still stands in the
register. -/
theorem crc8Shift_iterate_xor (r y : Byte) (n : Nat) :
    crc8Shift^[n] (r ^^^ y) = ((List.range n).map y.getMsbD).foldl crc8Bit r ^^^ y <<< n := by
  induction n with
  | zero => simp
  | succ n ih =>
    rw [Function.iterate_succ_apply', ih, crc8Shift_xor, BitVec.msb_shiftLeft, ← BitVec.shiftLeft_add, List.range_succ,
      List.map_append, List.map_singleton, List.foldl_concat]

theorem crc8Byte_eq_foldl (r b : Byte) : crc8Byte r b = (byteBits b).foldl crc8Bit r := by
  have hgone : b <<< 8 = 0#8 := BitVec.shiftLeft_eq_zero (Nat.le_refl 8)
  calc
    crc8Byte r b = crc8Shift^[8] (r ^^^ b) := rfl
    _ = (byteBits b).foldl crc8Bit r := by rw [crc8Shift_iterate_xor, hgone, BitVec.xor_zero, byteBits_eq_map]

/-- Settles O35: byte by byte, the 8 steps of the table's entry feed the 8 bits. -/
theorem crcBitSerialEqualsTableDriven : Obligations.CrcBitSerialEqualsTableDriven := by
  intro bs
  simp only [crc8Bits, bytesBits, List.foldl_flatMap, ← crc8Byte_eq_foldl]
  rfl

/-! ### The reversed form (R117) -/

theorem rev8_eq_reverse (x : Byte) : rev8 x = x.reverse := by
  refine BitVec.eq_of_getLsbD_eq fun k hk => ?_
  have hmirror : 7 - (7 - k) = k := by omega
  have hbit := bitsVal_testBit (byteBits x).reverse (7 - k) (by simp; omega)
  rw [List.getD_eq_getElem?_getD, List.getElem?_reverse (by simp; omega), List.length_reverse, byteBits_length, hmirror,
    byteBits_getElem? x k hk] at hbit
  rw [rev8, BitVec.getLsbD_ofNat, BitVec.getLsbD_reverse]
  simpa [hk] using hbit

theorem reverse_xor (x y : Byte) : (x ^^^ y).reverse = x.reverse ^^^ y.reverse :=
  BitVec.eq_of_getMsbD_eq fun k _ => by simp [BitVec.getMsbD_reverse]

theorem reverse_ushiftRight_one (x : Byte) : (x >>> 1).reverse = x.reverse <<< 1 :=
  BitVec.eq_of_getMsbD_eq fun k _ => by simp [BitVec.getMsbD_reverse, Nat.add_comm]

/-- The two registers are bit-reversed images of one another, step by step. -/
theorem reverse_crcReversedShift (s : Byte) : (crcReversedShift s).reverse = crc8Shift s.reverse := by
  have hpoly : (0xAB : Byte).reverse = 0xD5 := by decide
  rw [crcReversedShift, crc8Shift, BitVec.msb_reverse]
  split
  · rw [reverse_xor, reverse_ushiftRight_one, hpoly]
  · rw [reverse_ushiftRight_one]

theorem rev8_crcReversedByte (s b : Byte) : rev8 (crcReversedByte s (rev8 b)) = crc8Byte (rev8 s) b := by
  simp only [rev8_eq_reverse, crcReversedByte, crc8Byte, crc8Entry, reverse_crcReversedShift, reverse_xor,
    BitVec.reverse_reverse_eq]

/-- Settles O37: `rev8` carries the reversed register to the table-driven one, byte by byte. -/
theorem crcReversedMethodIsEquivalent : Obligations.CrcReversedMethodIsEquivalent := by
  intro bs
  have hstart : rev8 0 = 0 := by decide
  rw [crcReversed, List.foldl_map, ← List.foldl_hom rev8 (fun s b => (rev8_crcReversedByte s b).symm), hstart, crc8]

end Sys2Proof.Machine
end

section
/-! SUPPORT. The BCH encoder (42_bch.md): the shift of R129 as a linear map on the register, and the table, the
bit-serial division and the syndrome in terms of it. -/

namespace Sys2Proof.Machine

/-! ### The command (R133) -/

/-- Settles O38: FRAMEBUF is written once, at kbch, with the pbch bits of the parity. -/
theorem bchencWritesTheParity : Obligations.BchencWritesTheParity := by
  intro s tb hp
  refine ⟨_, execBchenc_ready s tb hp, rfl, fun k hk => ?_, fun i hi => ?_⟩
  · exact fbBit_fbWrite_inside _ _ _ k (by simpa using hk)
  · exact fbBit_fbWrite_outside _ _ _ i (by simpa using hi)

/-! ### The three generators (R127) -/

theorem buildBchGenerator_n12 : buildBchGenerator .n12 = 0x14e260e83845c511c50cf2cd8dc350889034785f7660255e7 := by
  decide +kernel

theorem buildBchGenerator_n10 : buildBchGenerator .n10 = 0x160150cedfc2a331f6a785703efd12301b8bb6591 := by
  decide +kernel

theorem buildBchGenerator_s12 : buildBchGenerator .s12 = 0x14062dbea9869b262cd23a39069528fe7d7d11905a5 := by
  decide +kernel

/-- Settles O39: the products evaluated, and the degree of each value. -/
theorem bchGeneratorsAreTheListedProducts : Obligations.BchGeneratorsAreTheListedProducts := by
  refine ⟨buildBchGenerator_n12, buildBchGenerator_n10, buildBchGenerator_s12, ?_, ?_, ?_⟩
  · rw [buildBchGenerator_n12]; decide
  · rw [buildBchGenerator_n10]; decide
  · rw [buildBchGenerator_s12]; decide

/-! ### Numbers as bits under XOR (R9) -/

theorem natBits_xor (w x y : Nat) : natBits w (x ^^^ y) = xorBits (natBits w x) (natBits w y) := by
  simp [natBits, xorBits]

theorem bitsVal_cons_xor (b : Bool) (v : Bits) : bitsVal (b :: v) = b.toNat <<< v.length ^^^ bitsVal v := by
  refine Nat.eq_of_testBit_eq fun i => ?_
  rw [bitsVal_cons, Nat.mul_comm, Nat.testBit_two_pow_mul_add _ (bitsVal_lt v), Nat.testBit_xor, Nat.testBit_shiftLeft]
  split
  next h => simp [Nat.not_le.2 h]
  next h =>
    have hhigh : (bitsVal v).testBit i = false :=
      Nat.testBit_lt_two_pow (Nat.lt_of_lt_of_le (bitsVal_lt v) (Nat.pow_le_pow_right (by omega) (Nat.le_of_not_lt h)))
    simp [hhigh, Nat.le_of_not_lt h]

/-- A number is its bits from `k` up, in place, and the bits below. -/
theorem xor_shiftRight_shiftLeft (r k : Nat) : r >>> k <<< k ^^^ r % 2 ^ k = r := by
  refine Nat.eq_of_testBit_eq fun i => ?_
  rw [Nat.testBit_xor, Nat.testBit_shiftLeft, Nat.testBit_shiftRight, Nat.testBit_mod_two_pow]
  by_cases h : i < k
  · simp [h, Nat.not_le.2 h]
  · simp [h, Nat.le_of_not_lt h, Nat.add_sub_cancel' (Nat.le_of_not_lt h)]

/-- XOR with its leading term takes that term away. -/
theorem xor_two_pow_of_testBit {x p : Nat} (h : x < 2 ^ (p + 1)) (hbit : x.testBit p = true) :
    x ^^^ 2 ^ p = x % 2 ^ p := by
  refine Nat.eq_of_testBit_eq fun i => ?_
  rw [Nat.testBit_xor, Nat.testBit_two_pow, Nat.testBit_mod_two_pow]
  rcases Nat.lt_trichotomy i p with hi | rfl | hi
  · simp [hi, hi.ne']
  · simp [hbit]
  · have hnone : x.testBit i = false :=
      Nat.testBit_lt_two_pow (Nat.lt_of_lt_of_le h (Nat.pow_le_pow_right (by omega) hi))
    simp [hi.ne, hi.not_gt, hnone]

theorem toNat_shiftLeft_lt {k p : Nat} (hk : k < p) (b : Bool) : b.toNat <<< k < 2 ^ p :=
  Nat.lt_of_lt_of_le (Nat.shiftLeft_lt (n := 1) b.toNat_lt) (Nat.pow_le_pow_right (by omega) (by omega))

/-! ### The shift (R129) is linear -/

section

variable {glow p : Nat}

theorem bchShift_eq (r : Nat) :
    bchShift glow p r = (r <<< 1) % 2 ^ p ^^^ if r.testBit (p - 1) then glow else 0 := by
  unfold bchShift
  split <;> simp

theorem bchShift_xor (a b : Nat) : bchShift glow p (a ^^^ b) = bchShift glow p a ^^^ bchShift glow p b := by
  have hcond : ∀ x y : Bool, (if xor x y then glow else 0) = (if x then glow else 0) ^^^ if y then glow else 0 := by
    intro x y
    cases x <;> cases y <;> simp
  simp only [bchShift_eq, Nat.testBit_xor, Nat.shiftLeft_xor_distrib, Nat.xor_mod_two_pow, hcond]
  ac_rfl

theorem bchShift_iterate_xor (n a b : Nat) :
    (bchShift glow p)^[n] (a ^^^ b) = (bchShift glow p)^[n] a ^^^ (bchShift glow p)^[n] b := by
  induction n with
  | zero => rfl
  | succ n ih => simp only [Function.iterate_succ_apply', ih, bchShift_xor]

/-- While no bit leaves the register, the shift is a shift. -/
theorem bchShift_of_lt {r : Nat} (h : r <<< 1 < 2 ^ p) : bchShift glow p r = r <<< 1 := by
  have htop : r.testBit (p - 1) = false := by
    refine Nat.testBit_lt_two_pow ?_
    cases p with
    | zero =>
      simp only [Nat.shiftLeft_eq] at h
      omega
    | succ p =>
      simp only [Nat.shiftLeft_eq, pow_succ, Nat.add_sub_cancel] at h ⊢
      omega
  simp [bchShift, htop, Nat.mod_eq_of_lt h]

theorem bchShift_iterate_of_lt {n r : Nat} (h : r <<< n < 2 ^ p) : (bchShift glow p)^[n] r = r <<< n := by
  induction n with
  | zero => rfl
  | succ n ih =>
    rw [Nat.shiftLeft_add] at h ⊢
    have hn : r <<< n < 2 ^ p := Nat.lt_of_le_of_lt Nat.le_shiftLeft h
    rw [Function.iterate_succ_apply', ih hn, bchShift_of_lt h]

theorem bchShift_lt (hglow : glow < 2 ^ p) (r : Nat) : bchShift glow p r < 2 ^ p := by
  have hmod : (r <<< 1) % 2 ^ p < 2 ^ p := Nat.mod_lt _ (Nat.two_pow_pos p)
  unfold bchShift
  split
  · exact Nat.xor_lt_two_pow hmod hglow
  · exact hmod

/-! ### Bit-serial division (R131) in terms of the shift -/

/-- The input bit enters at the top of the register. -/
theorem bchSerialBit_eq (hp : 0 < p) (r : Nat) (u : Bool) :
    bchSerialBit glow p r u = bchShift glow p (r ^^^ u.toNat <<< (p - 1)) := by
  have htop : (r ^^^ u.toNat <<< (p - 1)).testBit (p - 1) = xor (r.testBit (p - 1)) u := by
    cases u <;> simp
  have hout : ((r ^^^ u.toNat <<< (p - 1)) <<< 1) % 2 ^ p = (r <<< 1) % 2 ^ p := by
    rw [Nat.shiftLeft_xor_distrib, ← Nat.shiftLeft_add, Nat.sub_add_cancel hp, Nat.xor_mod_two_pow,
      Nat.shiftLeft_eq u.toNat, Nat.mul_mod_left, Nat.xor_zero]
  rw [bchShift, htop, hout, bchSerialBit]

theorem bchSerialBit_xor (hp : 0 < p) (r r' : Nat) (u u' : Bool) :
    bchSerialBit glow p (r ^^^ r') (xor u u') = bchSerialBit glow p r u ^^^ bchSerialBit glow p r' u' := by
  have hbit : (xor u u').toNat <<< (p - 1) = u.toNat <<< (p - 1) ^^^ u'.toNat <<< (p - 1) := by
    cases u <;> cases u' <;> simp
  rw [bchSerialBit_eq hp, bchSerialBit_eq hp, bchSerialBit_eq hp, ← bchShift_xor, hbit]
  ac_rfl

theorem bchSerialBit_foldl_lt (hp : 0 < p) (hglow : glow < 2 ^ p) {r : Nat} (hr : r < 2 ^ p) (u : Bits) :
    u.foldl (bchSerialBit glow p) r < 2 ^ p := by
  induction u generalizing r with
  | nil => exact hr
  | cons b u ih => exact ih (bchSerialBit_eq hp r b ▸ bchShift_lt hglow _)

/-- A bit sequence that fits the register can enter it at once. -/
theorem bchSerialBit_foldl (v : Bits) (r : Nat) (hv : v.length ≤ p) :
    v.foldl (bchSerialBit glow p) r = (bchShift glow p)^[v.length] (r ^^^ bitsVal v <<< (p - v.length)) := by
  induction v generalizing r with
  | nil => simp
  | cons b v ih =>
    rw [List.length_cons] at hv ⊢
    obtain ⟨m, rfl⟩ := Nat.exists_eq_add_of_le hv
    have hroom : bitsVal v <<< m <<< 1 < 2 ^ (v.length + 1 + m) := by
      rw [← Nat.shiftLeft_add]
      exact (Nat.shiftLeft_lt (bitsVal_lt v)).trans_eq (by ring_nf)
    have hfirst : v.length + 1 + m - 1 = v.length + m := by omega
    have hrest : v.length + 1 + m - v.length = m + 1 := by omega
    rw [List.foldl_cons, ih _ (by omega), bchSerialBit_eq (by omega), hfirst, hrest, Nat.shiftLeft_add,
      Nat.shiftLeft_add, ← bchShift_of_lt hroom, ← bchShift_xor, ← Function.iterate_succ_apply, bitsVal_cons_xor,
      Nat.add_sub_cancel_left, Nat.shiftLeft_xor_distrib, Nat.xor_assoc]

/-! ### The table (R129, R130) in terms of the shift -/

theorem buildBchTable_getD (g p : Nat) {i : Nat} (hi : i < 256) :
    (buildBchTable g p).getD i 0 = (bchShift (bchGlow g p) p)^[8] (i <<< (p - 8)) := by
  simp [buildBchTable, hi, bchEntry]

/-- One table look-up is 8 shifts with the byte in the high byte of the register. -/
theorem bchByte_eq (g : Nat) (hp : 8 ≤ p) {r : Nat} (hr : r < 2 ^ p) (b : Byte) :
    bchByte (buildBchTable g p) p r b = (bchShift (bchGlow g p) p)^[8] (r ^^^ b.toNat <<< (p - 8)) := by
  obtain ⟨k, rfl⟩ := Nat.exists_eq_add_of_le' hp
  rw [bchByte, Nat.add_sub_cancel]
  have hhigh : r >>> k < 2 ^ 8 := by
    rw [Nat.shiftRight_eq_div_pow]
    exact Nat.div_lt_of_lt_mul (by rwa [← pow_add])
  have hindex : r >>> k ^^^ b.toNat < 2 ^ 8 := Nat.xor_lt_two_pow hhigh b.isLt
  have hsplit : r ^^^ b.toNat <<< k = (r >>> k ^^^ b.toNat) <<< k ^^^ r % 2 ^ k := by
    conv_lhs => rw [← xor_shiftRight_shiftLeft r k]
    rw [Nat.shiftLeft_xor_distrib]
    ac_rfl
  have hlow : (r % 2 ^ k) <<< 8 = (r <<< 8) % 2 ^ (k + 8) := by
    rw [Nat.shiftLeft_eq, Nat.shiftLeft_eq, pow_add, Nat.mul_mod_mul_right]
  have hlt : (r % 2 ^ k) <<< 8 < 2 ^ (k + 8) := Nat.shiftLeft_lt (Nat.mod_lt _ (Nat.two_pow_pos k))
  rw [hsplit, bchShift_iterate_xor, bchShift_iterate_of_lt hlt, hlow, buildBchTable_getD g _ hindex,
    Nat.add_sub_cancel, Nat.xor_comm]

/-- Byte by byte, the look-ups feed the bits. -/
theorem bchByte_foldl_packBytes {g : Nat} (hp : 8 ≤ p) (hglow : bchGlow g p < 2 ^ p) (u : Bits)
    (hu : u.length % 8 = 0) {r : Nat} (hr : r < 2 ^ p) :
    (packBytes u).foldl (bchByte (buildBchTable g p) p) r = u.foldl (bchSerialBit (bchGlow g p) p) r := by
  induction u using packBytes.induct generalizing r with
  | case1 b0 b1 b2 b3 b4 b5 b6 b7 rest ih =>
    have hbyte : (BitVec.ofNat 8 (bitsVal [b0, b1, b2, b3, b4, b5, b6, b7])).toNat =
        bitsVal [b0, b1, b2, b3, b4, b5, b6, b7] := Nat.mod_eq_of_lt (bitsVal_lt _)
    have hfeed : bchByte (buildBchTable g p) p r (BitVec.ofNat 8 (bitsVal [b0, b1, b2, b3, b4, b5, b6, b7])) =
        [b0, b1, b2, b3, b4, b5, b6, b7].foldl (bchSerialBit (bchGlow g p) p) r := by
      rw [bchByte_eq g hp hr, hbyte, bchSerialBit_foldl _ r hp]
      rfl
    have hnext := bchSerialBit_foldl_lt (by omega) hglow hr [b0, b1, b2, b3, b4, b5, b6, b7]
    rw [packBytes_cons8, List.foldl_cons, hfeed, ih (by simp only [List.length_cons] at hu; omega) hnext]
    rfl
  | case2 u hshort =>
    have hlen : u.length < 8 := Nat.lt_of_not_le fun h => by
      obtain ⟨b0, b1, b2, b3, b4, b5, b6, b7, rest, rfl⟩ := eight_bits u h
      exact hshort _ _ _ _ _ _ _ _ _ rfl
    rw [packBytes_short u hlen, List.eq_nil_of_length_eq_zero (by omega : u.length = 0)]
    rfl

end

/-! ### Generators of degree p (R128) -/

theorem bchGlow_lt {g p : Nat} (hlo : 2 ^ p ≤ g) (hhi : g < 2 ^ (p + 1)) : bchGlow g p < 2 ^ p := by
  rw [bchGlow, xor_two_pow_of_testBit hhi (Nat.testBit_of_two_pow_le_and_two_pow_add_one_gt hlo hhi)]
  exact Nat.mod_lt _ (Nat.two_pow_pos p)

/-- Settles O40: from the register 0, byte by byte. -/
theorem bchTableDrivenEqualsBitSerial : Obligations.BchTableDrivenEqualsBitSerial := by
  intro g p u hp hlo hhi hu
  rw [bchParity, bchSerial, bchByte_foldl_packBytes hp (bchGlow_lt hlo hhi) u hu (Nat.two_pow_pos p)]

/-! ### Linearity (R134) -/

theorem bchSerialBit_foldl_xor {glow p : Nat} (hp : 0 < p) {u v : Bits} (huv : u.length = v.length) (r r' : Nat) :
    (xorBits u v).foldl (bchSerialBit glow p) (r ^^^ r') =
      u.foldl (bchSerialBit glow p) r ^^^ v.foldl (bchSerialBit glow p) r' := by
  induction u generalizing v r r' with
  | nil => simp [xorBits, List.length_eq_zero_iff.1 huv.symm]
  | cons a u ih =>
    cases v with
    | nil => cases huv
    | cons b v =>
      rw [List.foldl_cons, List.foldl_cons, ← ih (Nat.succ.inj huv), ← bchSerialBit_xor hp]
      rfl

theorem bchSerial_xor {glow p : Nat} (hp : 0 < p) {u v : Bits} (huv : u.length = v.length) :
    bchSerial glow p (xorBits u v) = xorBits (bchSerial glow p u) (bchSerial glow p v) := by
  rw [bchSerial, bchSerial, bchSerial, ← natBits_xor, ← bchSerialBit_foldl_xor hp huv, Nat.xor_self]

/-- Settles O42: all three parities by bit-serial division, which is linear. -/
theorem bchParityIsLinear : Obligations.BchParityIsLinear := by
  intro g p u v hp hlo hhi huv hu
  have serial : ∀ w : Bits, w.length % 8 = 0 → bchParity (buildBchTable g p) p w = bchSerial (bchGlow g p) p w :=
    fun w => bchTableDrivenEqualsBitSerial g p w hp hlo hhi
  rw [serial u hu, serial v (huv ▸ hu), serial (xorBits u v) (by rw [xorBits_length, ← huv, Nat.min_self, hu]),
    bchSerial_xor (by omega) huv]

/-! ### The syndrome (R131) -/

/-- One step of the long division with remainder `r`: `r` times x, reduced, plus the next coefficient. -/
def bchRemBit (glow p r : Nat) (b : Bool) : Nat := bchShift glow p r ^^^ b.toNat

section

variable {glow g p : Nat}

theorem bchRemBit_lt (hp : 0 < p) (hglow : glow < 2 ^ p) (r : Nat) (b : Bool) : bchRemBit glow p r b < 2 ^ p :=
  Nat.xor_lt_two_pow (bchShift_lt hglow r) (toNat_shiftLeft_lt hp b)

theorem bchRemBit_eq (hp : 0 < p) {r : Nat} (hr : r < 2 ^ p) (b : Bool) :
    bchRemBit (bchGlow g p) p r b =
      if (2 * r + b.toNat).testBit p then (2 * r + b.toNat) ^^^ g else 2 * r + b.toNat := by
  have hnext : 2 * r + b.toNat = r <<< 1 ^^^ b.toNat := by
    rw [Nat.shiftLeft_eq, pow_one, Nat.mul_comm]
    cases b <;> simp
  have hbit : b.toNat.testBit p = false := Nat.testBit_lt_two_pow (toNat_shiftLeft_lt hp b)
  have hcarry : (r <<< 1).testBit p = r.testBit (p - 1) := by simp [Nat.testBit_shiftLeft, Nat.succ_le_of_lt hp]
  have hwide : r <<< 1 < 2 ^ (p + 1) := Nat.shiftLeft_lt hr
  rw [hnext, Nat.testBit_xor, hbit, Bool.xor_false, bchRemBit, bchShift, ← hcarry]
  split
  next htop =>
    rw [← xor_two_pow_of_testBit hwide htop, bchGlow, Nat.xor_comm g, ← Nat.xor_assoc, Nat.xor_xor_cancel_right,
      Nat.xor_right_comm]
  next htop =>
    have hfits : r <<< 1 < 2 ^ p :=
      Nat.lt_of_not_le fun h => htop (Nat.testBit_of_two_pow_le_and_two_pow_add_one_gt h hwide)
    rw [Nat.mod_eq_of_lt hfits]

theorem gf2Rem_concat (g p : Nat) (v : Bits) (b : Bool) :
    gf2Rem g p (v ++ [b]) =
      if (2 * gf2Rem g p v + b.toNat).testBit p then (2 * gf2Rem g p v + b.toNat) ^^^ g
      else 2 * gf2Rem g p v + b.toNat := List.foldl_concat ..

/-- The remainder by the generator is the one that `bchRemBit` keeps. -/
theorem gf2Rem_eq (hlo : 2 ^ p ≤ g) (hhi : g < 2 ^ (p + 1)) (hp : 0 < p) (v : Bits) :
    gf2Rem g p v < 2 ^ p ∧ gf2Rem g p v = v.foldl (bchRemBit (bchGlow g p) p) 0 := by
  induction v using List.reverseRecOn with
  | nil => exact ⟨Nat.two_pow_pos p, rfl⟩
  | append_singleton v b ih =>
    obtain ⟨hlt, heq⟩ := ih
    rw [gf2Rem_concat, ← bchRemBit_eq hp hlt b, List.foldl_concat, heq]
    exact ⟨bchRemBit_lt hp (bchGlow_lt hlo hhi) _ b, rfl⟩

/-- Up to p coefficients at the end of the dividend, against one shift for each of them. -/
theorem bchRemBit_foldl (v : Bits) (r : Nat) (hv : v.length ≤ p) :
    v.foldl (bchRemBit glow p) r = (bchShift glow p)^[v.length] r ^^^ bitsVal v := by
  induction v generalizing r with
  | nil => simp
  | cons b v ih =>
    rw [List.length_cons] at hv ⊢
    rw [List.foldl_cons, ih _ (by omega), bchRemBit, bchShift_iterate_xor,
      bchShift_iterate_of_lt (toNat_shiftLeft_lt hv b), ← Function.iterate_succ_apply, bitsVal_cons_xor,
      Nat.xor_assoc]

/-- The register of the bit-serial division holds the remainder of the input times x^p. -/
theorem bchSerialBit_foldl_eq_shift_bchRemBit (hp : 0 < p) (u : Bits) (r : Nat) :
    u.foldl (bchSerialBit glow p) ((bchShift glow p)^[p] r) =
      (bchShift glow p)^[p] (u.foldl (bchRemBit glow p) r) := by
  refine List.foldl_hom _ fun r b => ?_
  obtain ⟨q, rfl⟩ := Nat.exists_eq_add_of_le' hp
  have htop : (bchShift glow (q + 1))^[q + 1] b.toNat = bchShift glow (q + 1) (b.toNat <<< q) := by
    rw [Function.iterate_succ_apply', bchShift_iterate_of_lt (toNat_shiftLeft_lt (Nat.lt_succ_self q) b)]
  rw [bchRemBit, bchShift_iterate_xor, htop, bchSerialBit_eq hp, bchShift_xor, ← Function.iterate_succ_apply,
    ← Function.iterate_succ_apply' (bchShift glow (q + 1))]
  rfl

/-- The parity is the remainder of the input times x^p, and so cancels it. -/
theorem gf2Rem_append_bchSerial (hlo : 2 ^ p ≤ g) (hhi : g < 2 ^ (p + 1)) (hp : 0 < p) (u : Bits) :
    gf2Rem g p (u ++ bchSerial (bchGlow g p) p u) = 0 := by
  have hrem := fun v => (gf2Rem_eq hlo hhi hp v).2
  have hlt := bchSerialBit_foldl_lt hp (bchGlow_lt hlo hhi) (Nat.two_pow_pos p) u
  have hzero : (bchShift (bchGlow g p) p)^[p] 0 = 0 := by rw [bchShift_iterate_of_lt] <;> simp
  have hreg : (bchShift (bchGlow g p) p)^[p] (gf2Rem g p u) = u.foldl (bchSerialBit (bchGlow g p) p) 0 := by
    rw [hrem, ← bchSerialBit_foldl_eq_shift_bchRemBit hp, hzero]
  calc
    gf2Rem g p (u ++ bchSerial (bchGlow g p) p u) =
        (bchSerial (bchGlow g p) p u).foldl (bchRemBit (bchGlow g p) p) (gf2Rem g p u) := by
      rw [hrem, hrem, List.foldl_append]
    _ = (bchShift (bchGlow g p) p)^[p] (gf2Rem g p u) ^^^ bitsVal (bchSerial (bchGlow g p) p u) := by
      rw [bchRemBit_foldl _ _ (bchSerial_length _ _ _).le, bchSerial_length]
    _ = 0 := by rw [hreg, bchSerial, bitsVal_natBits, Nat.mod_eq_of_lt hlt, Nat.xor_self]

end

theorem buildBchGenerator_degree (v : BchVariant) : 8 ≤ (buildBchGenerator v).log2 := by
  obtain ⟨-, -, -, h12, h10, hs12⟩ := bchGeneratorsAreTheListedProducts
  cases v with
  | n12 => omega
  | n10 => omega
  | s12 => omega

/-- Settles O41: the parity by bit-serial division, which cancels the remainder that the input leaves. -/
theorem bchCodewordHasZeroSyndrome : Obligations.BchCodewordHasZeroSyndrome := by
  intro v u hu g
  have hp : 8 ≤ g.log2 := buildBchGenerator_degree v
  have hne : g ≠ 0 := fun h => by simp [h] at hp
  have hlo : 2 ^ g.log2 ≤ g := Nat.log2_self_le hne
  rw [bchTableDrivenEqualsBitSerial g g.log2 u hp hlo Nat.lt_log2_self hu]
  exact gf2Rem_append_bchSerial hlo Nat.lt_log2_self (by omega) u

end Sys2Proof.Machine
end

section
/-! SUPPORT. The LDPC encoder and its adjacency (43_ldpc.md): the entries that the index generator makes, the lists they
fall into, the parity that LDPC writes, and the reads RDADJ and RDADJN. -/

namespace Sys2Proof.Machine

/-! ### The entries of one group and of all groups (R147, R148) -/

/-- Of the parts of a list, only part `k` holds `a`. -/
theorem count_flatMap_range {α : Type} [BEq α] [LawfulBEq α] {f : Nat → List α} {a : α} {n k : Nat} (hk : k < n)
    (hother : ∀ j ≠ k, a ∉ f j) : ((List.range n).flatMap f).count a = (f k).count a := by
  have hzero : ∀ j ≠ k, j ∈ List.range n → (List.count a ∘ f) j = 0 :=
    fun j hj _ => List.count_eq_zero.2 (hother j hj)
  rw [List.count_flatMap, List.sum_map_eq_nsmul_single k _ hzero,
    List.count_eq_one_of_mem List.nodup_range (List.mem_range.2 hk), one_smul, Function.comp_apply]

section

variable (c : CodeParams)

/-- The entries of rotation `r` of a group (R147). -/
def rotationEntries (g : Nat) (row : List Nat) (r : Nat) : List (Nat × Nat) :=
  row.map fun x => ((x + r * c.q) % c.nldpcp, 360 * g + r)

theorem groupEntries_eq (g : Nat) (row : List Nat) :
    groupEntries c g row = (List.range 360).flatMap (rotationEntries c g row) := rfl

theorem adjEntries_eq_flatMap (k : Nat) (base : List (List Nat)) :
    adjEntries c k base =
      (List.range base.length).flatMap fun g => groupEntries c (k + g) (base.getD g []) := by
  induction base generalizing k with
  | nil => rfl
  | cons row rest ih =>
    rw [adjEntries, ih, List.length_cons, List.range_succ_eq_map, List.flatMap_cons, List.flatMap_map]
    simp [Nat.add_assoc, Nat.add_comm 1]

theorem mem_rotationEntries {g r p i : Nat} {row : List Nat} :
    (p, i) ∈ rotationEntries c g row r ↔ ∃ x ∈ row, i = 360 * g + r ∧ (x + r * c.q) % c.nldpcp = p := by
  simp [rotationEntries, eq_comm, and_comm]

theorem mem_groupEntries {g p i : Nat} {row : List Nat} :
    (p, i) ∈ groupEntries c g row ↔
      ∃ r x, r < 360 ∧ x ∈ row ∧ i = 360 * g + r ∧ (x + r * c.q) % c.nldpcp = p := by
  simp [groupEntries_eq, mem_rotationEntries]

theorem mem_adjEntries {p i : Nat} {base : List (List Nat)} :
    (p, i) ∈ adjEntries c 0 base ↔
      ∃ g r x, g < base.length ∧ r < 360 ∧ x ∈ base.getD g [] ∧ i = 360 * g + r ∧
        (x + r * c.q) % c.nldpcp = p := by
  simp [adjEntries_eq_flatMap, mem_groupEntries]

/-- A rotation is about one systematic bit. -/
theorem snd_of_mem_rotationEntries {g r : Nat} {row : List Nat} {e : Nat × Nat}
    (h : e ∈ rotationEntries c g row r) : e.2 = 360 * g + r := by
  obtain ⟨-, -, hi, -⟩ := (mem_rotationEntries c).1 h
  exact hi

/-- A group is about its 360 systematic bits. -/
theorem snd_div_of_mem_groupEntries {g : Nat} {row : List Nat} {e : Nat × Nat} (h : e ∈ groupEntries c g row) :
    e.2 / 360 = g := by
  obtain ⟨r, -, hr, -, hi, -⟩ := (mem_groupEntries c).1 h
  omega

/-- Each seed of the row that produces the parity bit counts once. -/
theorem count_rotationEntries (g r p : Nat) (row : List Nat) :
    (rotationEntries c g row r).count (p, 360 * g + r) =
      row.countP fun x => decide ((x + r * c.q) % c.nldpcp = p) := by
  rw [rotationEntries, List.count_eq_countP, List.countP_map]
  exact List.countP_congr fun x _ => by simp

theorem count_groupEntries {r : Nat} (hr : r < 360) (g p : Nat) (row : List Nat) :
    (groupEntries c g row).count (p, 360 * g + r) = row.countP fun x => decide ((x + r * c.q) % c.nldpcp = p) := by
  rw [groupEntries_eq, count_flatMap_range hr, count_rotationEntries]
  intro j hj hmem
  have := snd_of_mem_rotationEntries c hmem
  omega

theorem count_adjEntries {base : List (List Nat)} {g r : Nat} (hg : g < base.length) (hr : r < 360) (p : Nat) :
    (adjEntries c 0 base).count (p, 360 * g + r) =
      (base.getD g []).countP fun x => decide ((x + r * c.q) % c.nldpcp = p) := by
  rw [adjEntries_eq_flatMap, count_flatMap_range hg, Nat.zero_add, count_groupEntries c hr]
  intro j hj hmem
  have := snd_div_of_mem_groupEntries c hmem
  omega

/-- The loop order of R148 goes up in the systematic bit, first inside a group. -/
theorem pairwise_groupEntries (g : Nat) (row : List Nat) :
    (groupEntries c g row).Pairwise fun e e' => e.2 ≤ e'.2 := by
  have hsnd := fun {r e} (he : e ∈ rotationEntries c g row r) => snd_of_mem_rotationEntries c he
  rw [groupEntries_eq, List.pairwise_flatMap]
  refine ⟨fun r _ => List.pairwise_of_forall_mem_list fun e he e' he' => ?_,
    List.pairwise_lt_range.imp fun hlt e he e' he' => ?_⟩
  · rw [hsnd he, hsnd he']
  · rw [hsnd he, hsnd he']
    omega

theorem pairwise_adjEntries (base : List (List Nat)) :
    (adjEntries c 0 base).Pairwise fun e e' => e.2 ≤ e'.2 := by
  rw [adjEntries_eq_flatMap, List.pairwise_flatMap]
  refine ⟨fun g _ => pairwise_groupEntries c _ _, List.pairwise_lt_range.imp fun hlt e he e' he' => ?_⟩
  have hg := snd_div_of_mem_groupEntries c he
  have hg' := snd_div_of_mem_groupEntries c he'
  omega

theorem groupEntries_length (g : Nat) (row : List Nat) : (groupEntries c g row).length = 360 * row.length := by
  have hrotation : ∀ r, (rotationEntries c g row r).length = row.length := fun r => List.length_map _
  rw [groupEntries_eq, List.length_flatMap, funext hrotation, List.map_const', List.sum_replicate,
    List.length_range, smul_eq_mul]

theorem adjEntries_length (k : Nat) (base : List (List Nat)) :
    (adjEntries c k base).length = 360 * (base.map List.length).sum := by
  induction base generalizing k with
  | nil => rfl
  | cons row rest ih => simp [adjEntries, groupEntries_length, ih, Nat.mul_add]

/-! ### The lists (R148) -/

/-- What the entries give the list of parity bit `p`. -/
def listOfParity (es : List (Nat × Nat)) (p : Nat) : List Nat :=
  es.filterMap fun e => if e.1 = p then some e.2 else none

theorem adjLists_eq (base : List (List Nat)) :
    adjLists c base = (List.range c.nldpcp).map (listOfParity (adjEntries c 0 base)) := rfl

theorem adjLists_getD {p : Nat} (hp : p < c.nldpcp) (base : List (List Nat)) :
    (adjLists c base).getD p [] = listOfParity (adjEntries c 0 base) p := by
  simp [adjLists_eq, hp]

end

section

variable (es : List (Nat × Nat)) (p : Nat)

theorem listOfParity_eq : listOfParity es p = (es.filter fun e => e.1 = p).map Prod.snd := by
  simp [listOfParity, ← List.filterMap_eq_map, List.filterMap_filter]

theorem count_listOfParity (i : Nat) : (listOfParity es p).count i = es.count (p, i) := by
  rw [listOfParity_eq, List.count_eq_countP, List.countP_map, List.countP_filter, List.count_eq_countP]
  refine List.countP_congr fun e _ => ?_
  simp [Prod.ext_iff, and_comm]

theorem mem_listOfParity {i : Nat} : i ∈ listOfParity es p ↔ (p, i) ∈ es := by
  rw [← List.count_pos_iff, count_listOfParity, List.count_pos_iff]

theorem pairwise_listOfParity (h : es.Pairwise fun e e' => e.2 ≤ e'.2) : (listOfParity es p).Pairwise (· ≤ ·) := by
  rw [listOfParity_eq, List.pairwise_map]
  exact h.filter _

theorem listOfParity_length : (listOfParity es p).length = (es.map Prod.fst).count p := by
  rw [listOfParity_eq, List.length_map, ← List.countP_eq_length_filter, List.count_eq_countP, List.countP_map]
  rfl

/-- Every entry falls into exactly one list. -/
theorem sum_listOfParity_length {n : Nat} (h : ∀ e ∈ es, e.1 < n) :
    ((List.range n).map fun p => (listOfParity es p).length).sum = es.length := by
  have hmem : ∀ p ∈ (es.map Prod.fst : Multiset Nat), p ∈ (List.range n).toFinset := by simpa using h
  rw [← List.length_map Prod.fst, ← Multiset.coe_card, ← Multiset.sum_count_eq_card hmem,
    List.sum_toFinset _ List.nodup_range]
  simp [listOfParity_length]

end

/-- Settles O44: a list's entries are counted, found and ordered as those of all groups are. -/
theorem ldpcAdjacencyFollowsTheIndexGenerator : Obligations.LdpcAdjacencyFollowsTheIndexGenerator := by
  intro c base
  refine ⟨adjLists_length c base, fun p hp => ?_⟩
  rw [adjLists_getD c hp]
  exact ⟨fun g r hg hr => (count_listOfParity _ p _).trans (count_adjEntries c hg hr p),
    fun i => (mem_listOfParity _ p).trans (mem_adjEntries c),
    pairwise_listOfParity _ p (pairwise_adjEntries c base)⟩

/-- Settles O45: the lists hold each entry once, and a row makes 360 entries for each seed. -/
theorem ldpcAdjacencyEntryCount : Obligations.LdpcAdjacencyEntryCount := by
  intro c base hpos
  have hlt : ∀ e ∈ adjEntries c 0 base, e.1 < c.nldpcp := fun e he => by
    obtain ⟨g, r, x, -, -, -, -, hp⟩ := (mem_adjEntries c).1 he
    exact hp ▸ Nat.mod_lt _ hpos
  rw [adjLists_eq, List.map_map]
  exact (sum_listOfParity_length _ hlt).trans (adjEntries_length c 0 base)

/-! ### LDPC (R150 to R152) -/

theorem xor_decide_odd (a b : Nat) : xor (decide (a % 2 = 1)) (decide (b % 2 = 1)) = decide ((a + b) % 2 = 1) := by
  rcases Nat.mod_two_eq_zero_or_one a with ha | ha <;> rcases Nat.mod_two_eq_zero_or_one b with hb | hb <;>
    simp [Nat.add_mod, ha, hb]

/-- The XOR over some lists of the XOR of each is the parity of all their set bits together. -/
theorem foldl_xor_adjXor (m : Memory) (ls : List (List Nat)) :
    (ls.map (adjXor m)).foldl xor false =
      decide ((ls.map fun l => (l.filter fun i => fbBit m i).length).sum % 2 = 1) := by
  induction ls using List.reverseRecOn with
  | nil => rfl
  | append_singleton ls l ih =>
    simp [ih, adjXor_eq, xor_decide_odd]

section

variable {mode : LdpcMode} {tb : Tables} {adj : List (List Nat)} {m : Memory}

theorem ldpcParity_length (h : mode = .zero ∨ tb.adj = some adj ∧ adj.length = tb.par.nldpcp) :
    (ldpcParity mode tb m).length = tb.par.nldpcp := by
  cases mode with
  | zero => exact List.length_replicate
  | computed =>
    obtain ⟨⟨⟩⟩ | ⟨hadj, hlen⟩ := h
    simp [ldpcParity, hadj, hlen]

theorem ldpcParity_zero_getD (p : Nat) : (ldpcParity .zero tb m).getD p false = false := by
  simp [ldpcParity]

theorem ldpcParity_computed_getD (hadj : tb.adj = some adj) {p : Nat} (hp : p < adj.length) :
    (ldpcParity .computed tb m).getD p false =
      decide (((adj.take (p + 1)).map fun l => (l.filter fun i => fbBit m i).length).sum % 2 = 1) := by
  rw [ldpcParity, hadj, prefixXor_getD _ _ _ (by simpa using hp), ← List.map_take, Option.getD_some, foldl_xor_adjXor]

end

/-- Settles O43: FRAMEBUF is written once, at nbch, with nldpcp bits, each known by the mode. -/
theorem ldpcFillsTheParityRegion : Obligations.LdpcFillsTheParityRegion := by
  intro s tb adj hready _ hadj
  have hlen := ldpcParity_length (m := s.frameBuf) hadj
  refine ⟨_, execLdpc_ready s tb hready, rfl, fun i hi => ?_, fun p hp => ?_⟩
  · refine fbBit_fbWrite_outside _ _ _ i ?_
    rw [hlen, CodeParams.nldpcp]
    omega
  · refine (fbBit_fbWrite_inside _ _ _ p (hlen ▸ hp)).trans ?_
    cases hmode : Config.params.ldpcMode with
    | zero => exact ldpcParity_zero_getD p
    | computed =>
      obtain ⟨hadj, hn⟩ := hadj.resolve_left (by simp [hmode])
      exact ldpcParity_computed_getD hadj (hn ▸ hp)

/-! ### RDADJ and RDADJN (R153, R154) -/

section

variable {s : State} {tb : Tables} {k p : Nat}

/-- A list that is not there is the same event for both reads. -/
theorem exec_adjacencyRead_of_error {e : ErrCode} (hready : s.phase = .ready tb) (h : adjList tb p = .error e) :
    exec (.rdadj k p) s = .next { s with cmdErr := true, errCode := e, cmd := s.cmd.drop 1 } ∧
      exec (.rdadjn p) s = .next { s with cmdErr := true, errCode := e, cmd := s.cmd.drop 1 } := by
  rw [← State.rejected_of_ne_fatal 1 e (by simp [hready])]
  simp [exec, execRdadj, execRdadjn, hready, h]

theorem exec_rdadj_of_ok {l : List Nat} (hready : s.phase = .ready tb) (h : adjList tb p = .ok l) :
    exec (.rdadj k p) s = .next { s with
      resp := s.resp ++ [if l.length ≤ k then 0xFFFFFFFF else BitVec.ofNat 32 (l.getD k 0)],
      cmd := s.cmd.drop 1 } := by
  by_cases hk : l.length ≤ k
  · simp [exec, execRdadj, hready, h, hk, State.pushResp, State.retire]
  · simp [exec, execRdadj, hready, h, Nat.lt_of_not_le hk, hk, State.pushResp, State.retire]

theorem exec_rdadjn_of_ok {l : List Nat} (hready : s.phase = .ready tb) (h : adjList tb p = .ok l) :
    exec (.rdadjn p) s = .next { s with resp := s.resp ++ [BitVec.ofNat 32 l.length], cmd := s.cmd.drop 1 } := by
  simp [exec, execRdadjn, hready, h, State.pushResp, State.retire]

theorem adjList_of_absent (h : tb.adj = none) : adjList tb p = .error .cmdUnavailable := by
  simp [adjList, h]

theorem adjList_outside {adj : List (List Nat)} (h : tb.adj = some adj) (hp : tb.par.nldpcp ≤ p) :
    adjList tb p = .error .cmdIndex := by
  simp [adjList, h, hp]

theorem adjList_inside {adj : List (List Nat)} (h : tb.adj = some adj) (hp : p < tb.par.nldpcp) :
    adjList tb p = .ok (adj.getD p []) := by
  simp [adjList, h, Nat.not_le.2 hp]

end

/-- Settles O46: both reads by what `adjList` answers. -/
theorem adjacencyReads : Obligations.AdjacencyReads := by
  intro s tb k p hready
  exact ⟨fun habsent => exec_adjacencyRead_of_error hready (adjList_of_absent habsent),
    fun adj hadj hp => exec_adjacencyRead_of_error hready (adjList_outside hadj hp),
    fun adj hadj hp => ⟨exec_rdadj_of_ok hready (adjList_inside hadj hp),
      exec_rdadjn_of_ok hready (adjList_inside hadj hp)⟩⟩

end Sys2Proof.Machine
end

section
/-! SUPPORT. The baseband header and the in-band field (44_bbheader.md): the header's bits as R174 lists them, and what
`State.writeHeader` makes of FRAMEBUF, for BBHDR and for FRAME. -/

namespace Sys2Proof.Machine

/-! ### The header's fields (R171, R174) -/

/-- PAD is the in-band field's length, on the frames that carry it (R173). -/
theorem State.pad_eq_ite (s : State) : s.pad = if cfgInband s.cfg0 = true ∧ s.ibc = 0 then 104 else 0 := by
  simp [State.pad]

theorem State.pad_eq_104_iff (s : State) : s.pad = 104 ↔ cfgInband s.cfg0 = true ∧ s.ibc = 0 := by
  simp [State.pad_eq_ite]

theorem headerCrc_toNat (mode : InputMode) (v : Bits) :
    (headerCrc mode v).toNat = if mode = .hem then (crc8Bits v).toNat ||| 1 else (crc8Bits v).toNat := by
  cases mode with
  | nm => rfl
  | hem => exact BitVec.toNat_or _ _

/-! ### FRAMEBUF after the header (R175, R197) -/

section

variable (s : State) (tb : Tables)

/-- The in-band field leaves the header in front of it as it is. -/
theorem fbBits_writeHeader_header : fbBits (s.writeHeader tb) 0 80 = s.bbHeader tb.par.kbch := by
  have hheader := fbBits_fbWrite_same s.frameBuf 0 (s.bbHeader tb.par.kbch)
  rw [bbHeader_length] at hheader
  rw [State.writeHeader]
  split
  · rw [fbBits_fbWrite_outside _ _ _ _ _ (by simp), hheader]
  · exact hheader

theorem fbBits_writeHeader_inband (hpad : s.pad = 104) : fbBits (s.writeHeader tb) 80 104 = s.inbandB := by
  rw [State.writeHeader, if_pos hpad, ← inbandB_length s]
  exact fbBits_fbWrite_same _ 80 s.inbandB

theorem fbBit_writeHeader_outside {i : Nat} (hi : 80 + s.pad ≤ i) :
    fbBit (s.writeHeader tb) i = fbBit s.frameBuf i := by
  have hheader : fbBit (fbWrite s.frameBuf 0 (s.bbHeader tb.par.kbch)) i = fbBit s.frameBuf i :=
    fbBit_fbWrite_outside _ _ _ i (by rw [bbHeader_length]; omega)
  rw [State.writeHeader]
  split
  · rw [fbBit_fbWrite_outside _ _ _ i (by rw [inbandB_length]; omega), hheader]
  · exact hheader

end

/-- Settles O47: FRAMEBUF after `State.writeHeader`, in the header, in the in-band field and behind them. -/
theorem bbhdrWritesTheHeader : Obligations.BbhdrWritesTheHeader := by
  intro s tb hready carried pad fields crc
  have hpad : s.pad = pad := s.pad_eq_ite
  have hfields : s.headerFields tb.par.kbch = fields := by rw [State.headerFields, hpad]; rfl
  refine ⟨_, execBbhdr_ready s tb hready, rfl, ?_, fun hcarried => ?_, fun i hi => ?_⟩
  · rw [← headerCrc_toNat, ← hfields]
    exact fbBits_writeHeader_header s tb
  · exact fbBits_writeHeader_inband s tb (s.pad_eq_104_iff.2 hcarried)
  · exact fbBit_writeHeader_outside s tb (hpad ▸ hi)

end Sys2Proof.Machine
end

section
/-! SUPPORT. The randomizer (45_randomizer.md): what RAND leaves in FRAMEBUF, the bits of the LFSR's sequence one by one,
and its period. -/

namespace Sys2Proof.Machine

/-! ### FRAMEBUF after the randomizer (R187) -/

section

variable (tb : Tables) (m : Memory) {i : Nat}

theorem fbBit_randomize_inside (hseq : tb.par.kbch ≤ tb.rseq.length) (hi : i < tb.par.kbch) :
    fbBit (randomize tb m) i = xor (fbBit m i) (tb.rseq.getD i false) := by
  have hlen : i < (xorBits (fbBits m 0 tb.par.kbch) tb.rseq).length := by
    rw [xorBits_length, fbBits_length]; omega
  have hwritten := fbBit_fbWrite_inside m 0 _ i hlen
  rw [xorBits_getD _ _ _ (by simpa using hi) (by omega), fbBits_getD _ _ _ _ hi] at hwritten
  simpa [randomize] using hwritten

theorem fbBit_randomize_outside (hi : tb.par.kbch ≤ i) : fbBit (randomize tb m) i = fbBit m i :=
  fbBit_fbWrite_outside m 0 _ i (by rw [xorBits_length, fbBits_length]; omega)

end

/-- Settles O48: RAND writes FRAMEBUF by `randomize` and takes its word. -/
theorem randXorsTheSequence : Obligations.RandXorsTheSequence := by
  intro s tb hready hseq
  exact ⟨_, execRand_ready s tb hready, rfl, fun _ hi => fbBit_randomize_inside tb s.frameBuf hseq hi,
    fun _ hi => fbBit_randomize_outside tb s.frameBuf hi⟩

/-! ### The bits of the sequence (R186) -/

/-- Output `i` of the LFSR from the register `sr`. -/
def lfsrBit (sr : BitVec 15) (i : Nat) : Bool := lfsrOut (lfsrNext^[i] sr)

theorem lfsrBits_getD {n i : Nat} (sr : BitVec 15) (hi : i < n) : (lfsrBits n sr).getD i false = lfsrBit sr i := by
  induction i generalizing n sr with
  | zero => obtain ⟨n, rfl⟩ := Nat.exists_eq_add_one.2 hi; rfl
  | succ i ih =>
    obtain ⟨n, rfl⟩ := Nat.exists_eq_add_one.2 (Nat.zero_lt_of_lt hi)
    exact ih (lfsrNext sr) (Nat.lt_of_succ_lt_succ hi)

theorem lfsrBits_take (k n : Nat) (sr : BitVec 15) : (lfsrBits n sr).take k = lfsrBits (min k n) sr := by
  induction k generalizing n sr with
  | zero => simp [lfsrBits]
  | succ k ih =>
    cases n with
    | zero => rfl
    | succ n => rw [Nat.add_min_add_right, lfsrBits, lfsrBits, List.take_succ_cons, ih]

/-! ### The recurrence of the generator polynomial 1 + x^14 + x^15 (R186) -/

theorem lfsrNext_getLsbD_last (sr : BitVec 15) : (lfsrNext sr).getLsbD 14 = lfsrOut sr := by
  unfold lfsrNext
  cases lfsrOut sr <;> simp

theorem lfsrNext_getLsbD (sr : BitVec 15) {j : Nat} (hj : j < 14) :
    (lfsrNext sr).getLsbD j = sr.getLsbD (j + 1) := by
  have hfeed : (0x4000#15).getLsbD j = false := by
    interval_cases j <;> rfl
  unfold lfsrNext
  cases lfsrOut sr <;> simp [hfeed, Nat.add_comm]

/-- An output enters stage 1, bit 14, and moves one bit down with each step. -/
theorem lfsrIterate_getLsbD (sr : BitVec 15) {k : Nat} (hk : k ≤ 14) :
    (lfsrNext^[k + 1] sr).getLsbD (14 - k) = lfsrOut sr := by
  induction k with
  | zero => exact lfsrNext_getLsbD_last sr
  | succ k ih =>
    rw [Function.iterate_succ_apply', lfsrNext_getLsbD _ (by omega), show 14 - (k + 1) + 1 = 14 - k by omega]
    exact ih (by omega)

/-- Bits 0 and 1 of the register after 15 steps are the first two outputs. -/
theorem lfsrBit_fifteen (sr : BitVec 15) : lfsrBit sr 15 = xor (lfsrBit sr 1) (lfsrBit sr 0) := by
  have hstage15 : (lfsrNext^[15] sr).getLsbD 0 = lfsrBit sr 0 := lfsrIterate_getLsbD sr (k := 14) le_rfl
  have hstage14 : (lfsrNext^[15] sr).getLsbD 1 = lfsrBit sr 1 :=
    lfsrIterate_getLsbD (lfsrNext sr) (k := 13) (by omega)
  rw [lfsrBit, lfsrOut, hstage15, hstage14, Bool.xor_comm]

theorem lfsrBit_recurrence (sr : BitVec 15) (i : Nat) :
    lfsrBit sr (i + 15) = xor (lfsrBit sr (i + 1)) (lfsrBit sr i) := by
  induction i generalizing sr with
  | zero => exact lfsrBit_fifteen sr
  | succ i ih => exact ih (lfsrNext sr)

/-! ### The period (R189)

Write x for the shift of a sequence of bits by one. Over GF(2) the recurrence says x^15 = x + 1, so x^16 = x^2 + x, and
squaring is linear: x^(2^(k+4)) = x^(2^(k+1)) + x^(2^k) for every k. From this x^(2^15) = x follows. -/

section

variable {b : Nat → Bool}

/-- Squaring both sides of x^n = x^p + x^q. -/
theorem shift_two_mul {n p q : Nat} (h : ∀ i, b (i + n) = xor (b (i + p)) (b (i + q))) (i : Nat) :
    b (i + 2 * n) = xor (b (i + 2 * p)) (b (i + 2 * q)) := by
  have hswap : b (i + q + p) = b (i + p + q) := by rw [Nat.add_right_comm]
  calc b (i + 2 * n) = b (i + n + n) := by rw [Nat.two_mul, ← Nat.add_assoc]
    _ = xor (b (i + p + n)) (b (i + q + n)) := by
      rw [h (i + n), Nat.add_right_comm i n p, Nat.add_right_comm i n q]
    _ = xor (b (i + p + p)) (b (i + q + q)) := by rw [h, h, hswap]; simp
    _ = xor (b (i + 2 * p)) (b (i + 2 * q)) := by simp only [Nat.two_mul, Nat.add_assoc]

variable (hrec : ∀ i, b (i + 15) = xor (b (i + 1)) (b i))
include hrec

theorem shift_two_pow (k i : Nat) : b (i + 2 ^ (k + 4)) = xor (b (i + 2 ^ (k + 1))) (b (i + 2 ^ k)) := by
  induction k generalizing i with
  | zero => exact hrec (i + 1)
  | succ k ih =>
    have hsquare := shift_two_mul ih i
    rwa [← Nat.pow_succ', ← Nat.pow_succ', ← Nat.pow_succ'] at hsquare

/-- x^(2^15) = x, the exponent brought down by four squarings at a time. -/
theorem shift_two_pow_fifteen (i : Nat) : b (i + 2 ^ 15) = b (i + 1) := by
  have hdown := fun k => shift_two_pow hrec k i
  have hcancel : ∀ x y z : Bool, xor (xor x y) (xor y z) = xor x z := by decide
  have hlast : ∀ x y z : Bool, xor (xor x y) (xor (xor y z) x) = z := by decide
  calc b (i + 2 ^ 15) = xor (b (i + 2 ^ 12)) (b (i + 2 ^ 11)) := hdown 11
    _ = xor (b (i + 2 ^ 9)) (b (i + 2 ^ 7)) := by rw [hdown 8, hdown 7, hcancel]
    _ = xor (xor (b (i + 2 ^ 6)) (b (i + 2 ^ 5))) (xor (b (i + 2 ^ 4)) (b (i + 2 ^ 3))) := by rw [hdown 5, hdown 3]
    _ = b (i + 2 ^ 0) := by rw [hdown 2, hdown 1, hdown 0, hcancel, hlast]

theorem period_of_recurrence (i : Nat) : b (i + 32767) = b i := by
  have hback : ∀ j, b j = xor (b (j + 1)) (b (j + 15)) := fun j => by
    rw [hrec, ← Bool.xor_assoc, Bool.xor_self, Bool.false_xor]
  calc b (i + 32767) = xor (b (i + 32767 + 1)) (b (i + 32767 + 15)) := hback _
    _ = xor (b (i + 2 ^ 15)) (b (i + 14 + 2 ^ 15)) := by simp only [Nat.add_assoc, Nat.reduceAdd, Nat.reducePow]
    _ = xor (b (i + 1)) (b (i + 15)) := by rw [shift_two_pow_fifteen hrec, shift_two_pow_fifteen hrec]
    _ = b i := (hback i).symm

end

theorem lfsrBit_add_period (sr : BitVec 15) (i : Nat) : lfsrBit sr (i + 32767) = lfsrBit sr i :=
  period_of_recurrence (lfsrBit_recurrence sr) i

theorem buildRandSeq_getD {i : Nat} (hi : i < 64800) : buildRandSeq.getD i false = lfsrBit randSeed i :=
  lfsrBits_getD randSeed hi

/-- Settles O49: the period by the recurrence of the outputs, the first bits by evaluation. -/
theorem randomizerSequenceIsPeriodic : Obligations.RandomizerSequenceIsPeriodic := by
  refine ⟨buildRandSeq_length, ?_, fun i hi => ?_⟩
  · rw [buildRandSeq, lfsrBits_take]
    decide
  · rw [buildRandSeq_getD hi, buildRandSeq_getD (by omega), lfsrBit_add_period]

end Sys2Proof.Machine
end

section
/-! SUPPORT. FRAME in READY (46_pipeline.md R197, R204 to R207): the hold and the completion, and what FRAMEBUF holds in a
frame and behind it. -/

namespace Sys2Proof.Machine

variable {s : State} {tb : Tables}

/-! ### Hold and completion (R204) -/

theorem exec_frame_of_short (hp : s.phase = .ready tb) (h : s.input.length < s.need tb) : exec .frame s = .next s := by
  rw [exec, execFrame_ready s tb hp, if_pos h]

theorem exec_frame_of_enough (hp : s.phase = .ready tb) (h : s.need tb ≤ s.input.length) :
    exec .frame s = .next ((s.frameDone tb).retire 1) := by
  rw [exec, execFrame_ready s tb hp, if_neg (Nat.not_lt.2 h)]

/-- Settles O50: the two ways of FRAME in READY, and what the packet loop leaves in IN. -/
theorem frameHoldsOnUnderSupply : Obligations.FrameHoldsOnUnderSupply := by
  intro s tb hp
  refine ⟨exec_frame_of_short hp, fun h => ⟨_, exec_frame_of_enough hp h, ?_, rfl⟩⟩
  obtain ⟨-, hrest, -⟩ := s.filled_spec tb h
  exact hrest

/-! ### The two counts of LASTIO (R34) -/

theorem packLastio_mod (used nbch : Nat) : (packLastio used nbch).toNat % 65536 = used % 65536 := by
  simp only [packLastio, BitVec.toNat_ofNat]
  omega

/-- No data byte has more than one sync byte before it. -/
theorem needHem_le (d c : Nat) : needHem d c ≤ 2 * d := by
  induction d generalizing c with
  | zero => exact le_rfl
  | succ d ih =>
    rw [needHem]
    split
    · have := ih 2
      omega
    · have := ih ((c + 1) % 188)
      omega

theorem State.need_le (s : State) (t : Tables) : s.need t ≤ 2 * s.dataBytes t := by
  unfold State.need
  cases cfgInMode s.cfg0 with
  | nm => exact Nat.le_mul_of_pos_left _ (by omega)
  | hem => exact needHem_le _ _

theorem State.need_lt (s : State) (h : tb.par.kbch ≤ 64800) : s.need tb < 65536 := by
  have hle := s.need_le tb
  have hdata : s.dataBytes tb ≤ tb.par.kbch / 8 := Nat.div_le_div_right (by omega)
  omega

/-! ### FRAMEBUF before, between and after the randomizer and the BCH encoder (R195, R197) -/

theorem fbBits_append (m : Memory) (a n k : Nat) : fbBits m a (n + k) = fbBits m a n ++ fbBits m (a + n) k := by
  simp only [fbBits_eq_map, List.range_add, List.map_append, List.map_map, Function.comp_def, Nat.add_assoc]

theorem fbBits_randomize (m : Memory) (hseq : tb.par.kbch ≤ tb.rseq.length) :
    fbBits (randomize tb m) 0 tb.par.kbch = xorBits (fbBits m 0 tb.par.kbch) tb.rseq := by
  have hlen : (xorBits (fbBits m 0 tb.par.kbch) tb.rseq).length = tb.par.kbch := by simp [hseq]
  have hwritten := fbBits_fbWrite_same m 0 (xorBits (fbBits m 0 tb.par.kbch) tb.rseq)
  rwa [hlen] at hwritten

theorem fbBits_bchEncode_info (tb : Tables) (m : Memory) :
    fbBits (bchEncode tb m) 0 tb.par.kbch = fbBits m 0 tb.par.kbch :=
  fbBits_fbWrite_outside _ _ _ _ _ (.inl (Nat.zero_add _).le)

theorem fbBits_bchEncode_parity (tb : Tables) (m : Memory) :
    fbBits (bchEncode tb m) tb.par.kbch tb.par.pbch =
      bchParity tb.bcht tb.par.pbch (fbBits (bchEncode tb m) 0 tb.par.kbch) := by
  have hwritten := fbBits_fbWrite_same m tb.par.kbch (bchParity tb.bcht tb.par.pbch (fbBits m 0 tb.par.kbch))
  rw [bchParity_length] at hwritten
  rw [fbBits_bchEncode_info]
  exact hwritten

/-- The in-band field of the frame, where it carries one (R173, R197). -/
def State.inbandField (s : State) : Bits := if s.pad = 104 then s.inbandB else []

@[simp] theorem State.inbandField_length (s : State) : s.inbandField.length = s.pad := by
  rcases s.pad_eq with hpad | hpad <;> simp [State.inbandField, hpad]

theorem fbBits_writeHeader_inbandField (s : State) (tb : Tables) :
    fbBits (s.writeHeader tb) 80 s.pad = s.inbandField := by
  rcases s.pad_eq with hpad | hpad
  · rw [State.inbandField, if_pos hpad, hpad, fbBits_writeHeader_inband s tb hpad]
  · simp [State.inbandField, hpad, fbBits_eq_map]

/-- The frame before randomization: header, in-band field and data field (R195). -/
theorem fbBits_frameRaw (s : State) (tb : Tables) :
    fbBits (s.frameRaw tb) 0 (80 + s.pad + (bytesBits (s.filled tb).out).length) =
      s.bbHeader tb.par.kbch ++ s.inbandField ++ bytesBits (s.filled tb).out := by
  have hheader : fbBits (s.frameRaw tb) 0 80 = s.bbHeader tb.par.kbch := by
    rw [State.frameRaw, fbBits_fbWrite_outside _ _ _ _ _ (by omega), fbBits_writeHeader_header]
  have hinband : fbBits (s.frameRaw tb) 80 s.pad = s.inbandField := by
    rw [State.frameRaw, fbBits_fbWrite_outside _ _ _ _ _ (by omega), fbBits_writeHeader_inbandField]
  have hdata : fbBits (s.frameRaw tb) (80 + s.pad) (bytesBits (s.filled tb).out).length =
      bytesBits (s.filled tb).out := fbBits_fbWrite_same _ _ _
  rw [fbBits_append, fbBits_append, Nat.zero_add, Nat.zero_add, hheader, hinband, hdata]

/-- The data field fills the frame to kbch, a whole number of bytes (R96, R196). -/
theorem dataField_length {fs : FrameSize} {r : CodeRate} (hrow : codeParams fs r = some tb.par)
    (hneed : s.need tb ≤ s.input.length) : (bytesBits (s.filled tb).out).length = tb.par.kbch - 80 - s.pad := by
  obtain ⟨-, -, hout⟩ := s.filled_spec tb hneed
  obtain ⟨-, -, -, -, -, hwhole, hwhole', -⟩ := codeParams_invariants hrow
  rw [bytesBits_length, hout, State.dataBytes]
  rcases s.pad_eq with hpad | hpad <;> rw [hpad] <;> omega

theorem rawFrame_length {fs : FrameSize} {r : CodeRate} (hrow : codeParams fs r = some tb.par)
    (hneed : s.need tb ≤ s.input.length) : 80 + s.pad + (bytesBits (s.filled tb).out).length = tb.par.kbch := by
  obtain ⟨hkbch, -⟩ := codeParams_sizes hrow
  rw [dataField_length hrow hneed]
  rcases s.pad_eq with hpad | hpad <;> omega

/-- FRAME writes nothing behind the BCH parity (R197). -/
theorem fbBit_frameCoded_outside {fs : FrameSize} {r : CodeRate} {i : Nat} (hrow : codeParams fs r = some tb.par)
    (hneed : s.need tb ≤ s.input.length) (hi : tb.par.nbch ≤ i) :
    fbBit (s.frameCoded tb) i = fbBit s.frameBuf i := by
  obtain ⟨-, hnbch, -⟩ := codeParams_sizes hrow
  have hframe := rawFrame_length hrow hneed
  have hparity : fbBit (s.frameCoded tb) i = fbBit (randomize tb (s.frameRaw tb)) i :=
    fbBit_fbWrite_outside _ _ _ i (by rw [bchParity_length]; omega)
  have hdata : fbBit (s.frameRaw tb) i = fbBit (s.writeHeader tb) i := fbBit_fbWrite_outside _ _ _ i (by omega)
  rw [hparity, fbBit_randomize_outside tb _ (by omega), hdata, fbBit_writeHeader_outside s tb (by omega)]

/-- Settles O51: `State.frameDone` field by field, its counts by the packet loop, and FRAMEBUF behind the frame. -/
theorem frameConsumesNeedAndPushesNbch : Obligations.FrameConsumesNeedAndPushesNbch := by
  intro s tb fs r hp hrow _ hneed
  obtain ⟨hused, hrest, -⟩ := s.filled_spec tb hneed
  obtain ⟨-, hnbch, hn, hmax, -⟩ := codeParams_sizes hrow
  have hin : s.need tb < 65536 := s.need_lt (by omega)
  refine ⟨_, exec_frame_of_enough hp hneed, ?_, ?_, ?_, fun i hi => fbBit_frameCoded_outside hrow hneed hi⟩
  · rw [← hrest]
    rfl
  · calc (packLastio (s.filled tb).used tb.par.nbch).toNat % 65536 = (s.filled tb).used % 65536 := packLastio_mod _ _
      _ = s.need tb := by rw [hused, Nat.mod_eq_of_lt hin]
  · exact (packLastio_div _ _).trans (Nat.mod_eq_of_lt (by omega))

/-- Settles O52: the raw frame in FRAMEBUF, then the randomizer, then the BCH encoder. -/
theorem frameLaysOutTheBbframe : Obligations.FrameLaysOutTheBbframe := by
  intro s tb fs r hp hrow hseq hneed carried pad data raw
  have hpad : s.pad = pad := s.pad_eq_ite
  have hraw : s.bbHeader tb.par.kbch ++ s.inbandField ++ data = raw := by
    simp only [State.inbandField, s.pad_eq_104_iff]
    rfl
  have hframe := rawFrame_length hrow hneed
  have hbuf := fbBits_frameRaw s tb
  rw [hframe, hraw] at hbuf
  refine ⟨_, exec_frame_of_enough hp hneed, hpad ▸ dataField_length hrow hneed, ?_, ?_,
    fbBits_bchEncode_parity tb (randomize tb (s.frameRaw tb))⟩
  · rw [← hbuf, fbBits_length]
  · calc fbBits (s.frameCoded tb) 0 tb.par.kbch = fbBits (randomize tb (s.frameRaw tb)) 0 tb.par.kbch :=
        fbBits_bchEncode_info _ _
      _ = xorBits raw tb.rseq := by rw [fbBits_randomize _ hseq, hbuf]

end Sys2Proof.Machine
end

section
/-! SUPPORT. The packet state machine over a whole frame (46_pipeline.md R198 to R202, R269): what the loop of FRAME emits
and the packet state it leaves, byte by byte from the start of the frame. -/

namespace Sys2Proof.Machine

variable {s : State} {tb : Tables} {f : PacketState} {bs : List Byte} {d : Nat}

/-- PBC after a frame, in both modes (R208). -/
theorem State.filled_pbc (hpbc : s.pbc.toNat < 188) (hneed : s.need tb ≤ s.input.length) :
    (s.filled tb).packet.pbc.toNat = (s.pbc.toNat + s.need tb) % 188 := by
  obtain ⟨hused, -⟩ := s.filled_spec tb hneed
  have hloop : (s.filled tb).packet.pbc.toNat = (s.pbc.toNat + (s.filled tb).used) % 188 := fillData_pbc _ _ _ _ hpbc
  rw [hloop, hused]

/-! ### Normal mode (R198, R200, R201) -/

/-- In NM, one data byte more is one packet step more, on the byte behind those consumed. -/
theorem fillData_nm_concat (f : PacketState) (hd : d < bs.length) :
    (fillData .nm f (d + 1) bs).packet = (packetStepNm (fillData .nm f d bs).packet (bs.getD d 0)).1 ∧
      (fillData .nm f (d + 1) bs).out = (fillData .nm f d bs).out ++
        [if (fillData .nm f d bs).packet.pbc = 0 then (fillData .nm f d bs).packet.pcrc else bs.getD d 0] := by
  induction d generalizing f bs with
  | zero =>
    obtain ⟨b, bs, rfl⟩ := List.exists_cons_of_length_pos hd
    simp [fillData_nm_succ, fillData_zero]
  | succ d ih =>
    obtain ⟨b, bs, rfl⟩ := List.exists_cons_of_length_pos (Nat.zero_lt_of_lt hd)
    obtain ⟨hpacket, hout⟩ := ih (packetStepNm f b).1 (Nat.lt_of_succ_lt_succ hd)
    rw [fillData_nm_succ, fillData_nm_succ]
    exact ⟨hpacket, congrArg (List.cons _) hout⟩

/-- After `d` bytes in NM, PBC is 0 exactly where the next byte is a packet's sync byte. -/
theorem fillData_nm_pbc_eq_zero_iff (hf : f.pbc.toNat < 188) (hd : d ≤ bs.length) :
    (fillData .nm f d bs).packet.pbc = 0 ↔ (f.pbc.toNat + d) % 188 = 0 := by
  obtain ⟨hused, -⟩ := fillData_nm f d bs hd
  rw [byte_eq_zero_iff, fillData_pbc .nm f d bs hf, hused]

theorem fillData_nm_pcrc (hf : f.pbc.toNat < 188) (hd : d ≤ bs.length) :
    (fillData .nm f d bs).packet.pcrc = slotCrc f.pcrc f.pbc.toNat bs d := by
  induction d with
  | zero => rw [fillData_zero, slotCrc_zero]
  | succ d ih =>
    have hlt : d < bs.length := hd
    obtain ⟨hpacket, -⟩ := fillData_nm_concat f hlt
    rw [hpacket, packetStepNm_pcrc, slotCrc_succ _ _ _ _ hlt, ih hlt.le]
    simp only [fillData_nm_pbc_eq_zero_iff hf hlt.le]

/-- Byte `k` of the data field that NM makes of the bytes `bs` from the packet state `f` (R198, R201). -/
def nmDataByte (f : PacketState) (bs : List Byte) (k : Nat) : Byte :=
  if (f.pbc.toNat + k) % 188 = 0 then slotCrc f.pcrc f.pbc.toNat bs k else bs.getD k 0

theorem fillData_nm_out (hf : f.pbc.toNat < 188) (hd : d ≤ bs.length) :
    (fillData .nm f d bs).out = (List.range d).map (nmDataByte f bs) := by
  induction d with
  | zero => rw [fillData_zero]; rfl
  | succ d ih =>
    have hlt : d < bs.length := hd
    obtain ⟨-, hout⟩ := fillData_nm_concat f hlt
    rw [hout, ih hlt.le, List.range_succ, List.map_append, fillData_nm_pcrc hf hlt.le]
    simp only [fillData_nm_pbc_eq_zero_iff hf hlt.le]
    rfl

/-- Byte `k` behind packet byte `c` stands at a sync slot and is not 0x47 (R200). -/
def isMismatch (c : Nat) (bs : List Byte) (k : Nat) : Bool := decide ((c + k) % 188 = 0 ∧ bs.getD k 0 ≠ syncByte)

/-- The sync mismatches among the first `d` bytes, the first of them being packet byte `c`. -/
def mismatches (c : Nat) (bs : List Byte) (d : Nat) : Nat := ((List.range d).filter (isMismatch c bs)).length

theorem mismatches_succ (c : Nat) (bs : List Byte) (d : Nat) :
    mismatches c bs (d + 1) = mismatches c bs d + if isMismatch c bs d then 1 else 0 := by
  rw [mismatches, List.range_succ, List.filter_append, List.length_append, List.filter_singleton]
  cases isMismatch c bs d <;> rfl

/-- The warning state after `d` bytes in NM: each mismatch is counted once, and the count saturates (R269). -/
theorem fillData_nm_warn (hf : f.pbc.toNat < 188) (hd : d ≤ bs.length) :
    (fillData .nm f d bs).packet.swcnt.toNat = min (f.swcnt.toNat + mismatches f.pbc.toNat bs d) 0xFFFF ∧
      ((fillData .nm f d bs).packet.syncWarn = true ↔ f.syncWarn = true ∨ 0 < mismatches f.pbc.toNat bs d) := by
  induction d with
  | zero =>
    have hmax := f.swcnt.isLt
    rw [fillData_zero]
    simp only [mismatches, List.range_zero, List.filter_nil, List.length_nil]
    exact ⟨by omega, by simp⟩
  | succ d ih =>
    have hlt : d < bs.length := hd
    obtain ⟨hpacket, -⟩ := fillData_nm_concat f hlt
    obtain ⟨hcount, hflag⟩ := ih hlt.le
    obtain ⟨hwarn, hbump⟩ := packetStepNm_warn (fillData .nm f d bs).packet (bs.getD d 0)
    have hbad : isMismatch f.pbc.toNat bs d = true ↔
        (fillData .nm f d bs).packet.pbc = 0 ∧ bs.getD d 0 ≠ syncByte := by
      rw [isMismatch, decide_eq_true_iff, fillData_nm_pbc_eq_zero_iff hf hlt.le]
    rw [hpacket, hwarn, hbump, mismatches_succ, ← Bool.decide_and]
    simp only [← hbad]
    cases isMismatch f.pbc.toNat bs d with
    | false => simpa using ⟨hcount, hflag⟩
    | true =>
      simp only [if_true, bumpSwcnt_toNat, hcount]
      exact ⟨by omega, by simp⟩

/-- In NM the loop is asked for NEED data bytes (R203). -/
theorem State.filled_nm (hm : cfgInMode s.cfg0 = .nm) : s.filled tb = fillData .nm s.packet (s.need tb) s.input := by
  rw [State.filled, State.need, hm]

/-- Settles O53: the data field of the loop in NM, read at byte k. -/
theorem nmDataFieldCarriesBytesAndCrcs : Obligations.NmDataFieldCarriesBytesAndCrcs := by
  intro s tb k hm hpbc hneed hk
  have hout : (s.filled tb).out = (List.range (s.need tb)).map (nmDataByte s.packet s.input) := by
    rw [State.filled_nm hm]
    exact fillData_nm_out hpbc hneed
  have hbyte : ((List.range (s.need tb)).map (nmDataByte s.packet s.input)).getD k 0 =
      nmDataByte s.packet s.input k := by simp [hk]
  rw [hout]
  exact ⟨by simp, hbyte⟩

/-- Settles O55: the packet state that the loop leaves in NM. -/
theorem frameCountsSyncMismatches : Obligations.FrameCountsSyncMismatches := by
  intro s tb hp hm hpbc hneed bad
  obtain ⟨hcount, hflag⟩ := fillData_nm_warn (f := s.packet) hpbc hneed
  have hpcrc := fillData_nm_pcrc (f := s.packet) hpbc hneed
  rw [← State.filled_nm hm] at hcount hflag hpcrc
  exact ⟨_, exec_frame_of_enough hp hneed, hcount, hflag, State.filled_pbc hpbc hneed, hpcrc, rfl, rfl, rfl⟩

/-! ### High-efficiency mode (R199, R202) -/

/-- The first `n` bytes of `bs` without those at a packet's sync byte, the first of them being packet byte `c`. -/
def payload (c : Nat) (bs : List Byte) (n : Nat) : List Byte :=
  ((List.range n).filter fun k => decide ((c + k) % 188 ≠ 0)).map (bs.getD · 0)

theorem payload_cons (c : Nat) (b : Byte) (bs : List Byte) (n : Nat) :
    payload c (b :: bs) (n + 1) = (if c % 188 = 0 then [] else [b]) ++ payload (c + 1) bs n := by
  have hshift : (fun k => decide ((c + k) % 188 ≠ 0)) ∘ Nat.succ = fun k => decide ((c + 1 + k) % 188 ≠ 0) := by
    funext k
    simp [Nat.add_right_comm, Nat.add_assoc]
  rw [payload, List.range_succ_eq_map, List.filter_cons, List.filter_map, hshift]
  by_cases h : c % 188 = 0 <;> simp [h, payload]

theorem payload_mod (c : Nat) (bs : List Byte) (n : Nat) : payload (c % 188) bs n = payload c bs n := by
  simp [payload]

/-- In HEM the loop emits the payload of the bytes it has consumed. -/
theorem fillData_hem_out (hf : f.pbc.toNat < 188) :
    (fillData .hem f d bs).out = payload f.pbc.toNat bs (fillData .hem f d bs).used := by
  induction bs generalizing f d with
  | nil => cases d <;> rfl
  | cons b bs ih =>
    cases d with
    | zero => rfl
    | succ d =>
      rw [fillData_hem_succ]
      split
      next hsync =>
        have hc : f.pbc.toNat = 0 := (byte_eq_zero_iff _).1 hsync
        rw [payload_cons, hc, if_pos rfl]
        exact ih (f := { f with pbc := 1 }) (show 1 < 188 by omega)
      next hpay =>
        have hc : f.pbc.toNat % 188 ≠ 0 := by
          rw [Nat.mod_eq_of_lt hf]
          exact fun h => hpay ((byte_eq_zero_iff _).2 h)
        have hnext := nextPbc_toNat f.pbc
        have htail := ih (f := { f with pbc := nextPbc f.pbc }) (d := d) (hnext ▸ Nat.mod_lt _ (by omega))
        rw [payload_cons, if_neg hc, ← payload_mod, ← hnext]
        exact congrArg (List.cons b) htail

theorem State.filled_hem_packet (hm : cfgInMode s.cfg0 = .hem) :
    (s.filled tb).packet = { s.packet with pbc := (s.filled tb).packet.pbc } := by
  rw [State.filled, hm]
  exact fillData_hem_packet _ _ _

/-- Settles O54: the data field and the packet state that the loop leaves in HEM. -/
theorem hemDataFieldDropsSyncBytes : Obligations.HemDataFieldDropsSyncBytes := by
  intro s tb hm hpbc hneed
  obtain ⟨hused, -⟩ := s.filled_spec tb hneed
  have hpacket := State.filled_hem_packet (tb := tb) hm
  refine ⟨?_, hpacket, fun hp => ⟨_, exec_frame_of_enough hp hneed, State.filled_pbc hpbc hneed,
    congrArg PacketState.pcrc hpacket, congrArg PacketState.syncWarn hpacket, congrArg PacketState.swcnt hpacket⟩⟩
  have hout : (s.filled tb).out = payload s.pbc.toNat s.input (s.filled tb).used := by
    rw [State.filled, hm]
    exact fillData_hem_out hpbc
  rw [hout, hused]
  rfl

end Sys2Proof.Machine
end

section
/-! SUPPORT. The interleaver (47_interleaver.md): the regroup and its inverse, the map of R229 and its inverse, and the cells
that INTERLEAVE writes. -/

namespace Sys2Proof.Machine

/-! ### The regroup (R222) -/

section

variable {c : CodeParams} {i : Nat}

theorem regroupIndex_of_lt (hi : i < c.nbch) : regroupIndex c i = i := if_pos hi

/-- Row `s` and column `t` of the parity region change places. -/
theorem regroupIndex_parity (c : CodeParams) (t : Nat) {s : Nat} (hs : s < 360) :
    regroupIndex c (c.nbch + 360 * t + s) = c.nbch + c.q * s + t := by
  have hoff : c.nbch + 360 * t + s - c.nbch = 360 * t + s := by omega
  have hrow : (360 * t + s) % 360 = s := by omega
  have hcol : (360 * t + s) / 360 = t := by omega
  rw [regroupIndex, if_neg (by omega), hoff, hrow, hcol]

/-- The index of u at which bit `i` of λ stands after the regroup: the way back of `regroupIndex`. -/
def regroupInverse (c : CodeParams) (i : Nat) : Nat :=
  if i < c.nbch then i else c.nbch + 360 * ((i - c.nbch) % c.q) + (i - c.nbch) / c.q

theorem regroupInverse_parity {t : Nat} (ht : t < c.q) (s : Nat) :
    regroupInverse c (c.nbch + c.q * s + t) = c.nbch + 360 * t + s := by
  have hoff : c.nbch + c.q * s + t - c.nbch = c.q * s + t := by omega
  have hcol : (c.q * s + t) % c.q = t := by rw [Nat.mul_add_mod, Nat.mod_eq_of_lt ht]
  have hrow : (c.q * s + t) / c.q = s := by
    rw [Nat.mul_add_div (Nat.zero_lt_of_lt ht), Nat.div_eq_of_lt ht, Nat.add_zero]
  rw [regroupInverse, if_neg (by omega), hoff, hcol, hrow]

variable (hn : c.n = c.nbch + 360 * c.q)
include hn

/-- A bit of the frame lies before the parity region, or in row `s` and column `t` of it. -/
theorem frame_index_cases (hi : i < c.n) :
    i < c.nbch ∨ ∃ t < c.q, ∃ s < 360, i = c.nbch + 360 * t + s := by
  by_cases h : i < c.nbch
  · exact .inl h
  · exact .inr ⟨(i - c.nbch) / 360, by omega, (i - c.nbch) % 360, by omega, by omega⟩

theorem regroupIndex_lt (hi : i < c.n) : regroupIndex c i < c.n := by
  obtain h | ⟨t, ht, s, hs, rfl⟩ := frame_index_cases hn hi
  · rwa [regroupIndex_of_lt h]
  · have hrows : c.q * s + c.q ≤ c.q * 360 := by rw [← Nat.mul_succ]; exact Nat.mul_le_mul_left _ hs
    rw [regroupIndex_parity c t hs]
    omega

theorem regroupInverse_regroupIndex (hi : i < c.n) : regroupInverse c (regroupIndex c i) = i := by
  obtain h | ⟨t, ht, s, hs, rfl⟩ := frame_index_cases hn hi
  · rw [regroupIndex_of_lt h, regroupInverse, if_pos h]
  · rw [regroupIndex_parity c t hs, regroupInverse_parity ht]

end

/-! ### The map of R229 and its inverse -/

/-- The bit of u that cell bit `k` of cell `j` holds: the inverse of `ilvPlace`. -/
def ilvSource (m nc nr : Nat) (tw mx : List Nat) (j k : Nat) : Nat :=
  let c := mx.idxOf (j % (nc / m) * m + k)
  c * nr + (j / (nc / m) + (nr - tw.getD c 0)) % nr

/-- Twisting down by `o` undoes twisting up by `o` (R223). -/
theorem untwist_twist {nr o r : Nat} (hr : r < nr) (ho : o < nr) : ((r + o) % nr + (nr - o)) % nr = r := by
  rw [Nat.mod_add_mod, show r + o + (nr - o) = r + nr by omega, Nat.add_mod_right, Nat.mod_eq_of_lt hr]

theorem twist_untwist {nr o r : Nat} (hr : r < nr) (ho : o < nr) : ((r + (nr - o)) % nr + o) % nr = r := by
  rw [Nat.mod_add_mod, show r + (nr - o) + o = r + nr by omega, Nat.add_mod_right, Nat.mod_eq_of_lt hr]

/-- `high * n + low` with `low` below `n`, taken apart again. -/
theorem mul_add_div_mod {n low : Nat} (high : Nat) (hlow : low < n) :
    (high * n + low) / n = high ∧ (high * n + low) % n = low :=
  (Nat.div_mod_unique (Nat.zero_lt_of_lt hlow)).2 ⟨by rw [Nat.add_comm, Nat.mul_comm], hlow⟩

section

variable {m nc nr : Nat} {tw mx : List Nat}

theorem twist_getD_lt (hnr : 0 < nr) (htw : ∀ x ∈ tw, x < nr) (c : Nat) : tw.getD c 0 < nr := by
  by_cases hc : c < tw.length
  · rw [List.getD_eq_getElem _ _ hc]
    exact htw _ (List.getElem_mem hc)
  · rwa [List.getD_eq_default _ _ (Nat.le_of_not_lt hc)]

/-- Before repacking, every cell bit stands in one of its row's columns (R226). -/
theorem cellBit_dest_lt {j k : Nat} (hdvd : nc % m = 0) (hj : j < nr * (nc / m)) (hk : k < m) :
    j % (nc / m) * m + k < nc := by
  have hper : 0 < nc / m := Nat.pos_of_mul_pos_left (Nat.zero_lt_of_lt hj)
  calc j % (nc / m) * m + k < (j % (nc / m) + 1) * m := by rw [Nat.succ_mul]; omega
    _ ≤ nc / m * m := Nat.mul_le_mul_right m (Nat.mod_lt j hper)
    _ = nc := Nat.div_mul_cancel (Nat.dvd_of_mod_eq_zero hdvd)

variable (hmx : mx.Perm (List.range nc))
include hmx

theorem mux_length : mx.length = nc := by simpa using hmx.length_eq

theorem mux_getD_lt {c : Nat} (hc : c < nc) : mx.getD c 0 < nc := by
  rw [List.getD_eq_getElem _ _ (by rwa [mux_length hmx])]
  exact List.mem_range.1 (hmx.mem_iff.1 (List.getElem_mem _))

theorem mux_idxOf_getD {c : Nat} (hc : c < nc) : mx.idxOf (mx.getD c 0) = c := by
  rw [List.getD_eq_getElem _ _ (by rwa [mux_length hmx])]
  exact (hmx.nodup_iff.2 List.nodup_range).idxOf_getElem c _

theorem mux_idxOf_lt {d : Nat} (hd : d < nc) : mx.idxOf d < nc :=
  mux_length hmx ▸ List.idxOf_lt_length_of_mem (hmx.mem_iff.2 (List.mem_range.2 hd))

theorem mux_getD_idxOf {d : Nat} (hd : d < nc) : mx.getD (mx.idxOf d) 0 = d := by
  rw [List.getD_eq_getElem _ _ (by rw [mux_length hmx]; exact mux_idxOf_lt hmx hd)]
  exact List.getElem_idxOf _

variable (hdvd : nc % m = 0)
include hdvd

/-- Repacking puts a destination into one of its row's cells (R226). -/
theorem mux_cell_lt {c : Nat} (hc : c < nc) : mx.getD c 0 / m < nc / m :=
  Nat.div_lt_div_of_lt_of_dvd (Nat.dvd_of_mod_eq_zero hdvd) (mux_getD_lt hmx hc)

/-- R229: `ilvSource` finds the frame bit back from its place. -/
theorem ilvSource_ilvPlace (htw : ∀ x ∈ tw, x < nr) {i : Nat} (hi : i < nr * nc) :
    ilvSource m nc nr tw mx (ilvPlace m nc nr tw mx i).1 (ilvPlace m nc nr tw mx i).2 = i := by
  have hnr : 0 < nr := Nat.pos_of_mul_pos_right (Nat.zero_lt_of_lt hi)
  have hc : i / nr < nc := Nat.div_lt_of_lt_mul hi
  obtain ⟨hrow, hcol⟩ := mul_add_div_mod ((i % nr + tw.getD (i / nr) 0) % nr) (mux_cell_lt hmx hdvd hc)
  simp only [ilvSource, ilvPlace, hrow, hcol, Nat.div_add_mod', mux_idxOf_getD hmx hc]
  rw [untwist_twist (Nat.mod_lt _ hnr) (twist_getD_lt hnr htw _), Nat.div_add_mod']

theorem ilvPlace_lt {i : Nat} (hi : i < nr * nc) : (ilvPlace m nc nr tw mx i).1 < nr * (nc / m) := by
  have hnr : 0 < nr := Nat.pos_of_mul_pos_right (Nat.zero_lt_of_lt hi)
  have hcell := mux_cell_lt hmx hdvd (Nat.div_lt_of_lt_mul hi)
  calc (ilvPlace m nc nr tw mx i).1 < ((i % nr + tw.getD (i / nr) 0) % nr + 1) * (nc / m) := by
        rw [Nat.succ_mul]; exact Nat.add_lt_add_left hcell _
    _ ≤ nr * (nc / m) := Nat.mul_le_mul_right _ (Nat.mod_lt _ hnr)

variable {j k : Nat} (hj : j < nr * (nc / m)) (hk : k < m)
include hj hk

theorem ilvSource_lt : ilvSource m nc nr tw mx j k < nr * nc := by
  have hnr : 0 < nr := Nat.pos_of_mul_pos_right (Nat.zero_lt_of_lt hj)
  have hc : mx.idxOf (j % (nc / m) * m + k) < nc := mux_idxOf_lt hmx (cellBit_dest_lt hdvd hj hk)
  calc ilvSource m nc nr tw mx j k < (mx.idxOf (j % (nc / m) * m + k) + 1) * nr := by
        rw [Nat.succ_mul]; exact Nat.add_lt_add_left (Nat.mod_lt _ hnr) _
    _ ≤ nc * nr := Nat.mul_le_mul_right nr hc
    _ = nr * nc := Nat.mul_comm nc nr

variable (htw : ∀ x ∈ tw, x < nr)
include htw

/-- R229: `ilvSource` gives a frame bit that goes to the cell bit asked for. -/
theorem ilvPlace_ilvSource : ilvPlace m nc nr tw mx (ilvSource m nc nr tw mx j k) = (j, k) := by
  have hnr : 0 < nr := Nat.pos_of_mul_pos_right (Nat.zero_lt_of_lt hj)
  have hrow : j / (nc / m) < nr := Nat.div_lt_of_lt_mul (Nat.mul_comm .. ▸ hj)
  obtain ⟨hcol, hin⟩ := mul_add_div_mod (mx.idxOf (j % (nc / m) * m + k))
    (Nat.mod_lt (j / (nc / m) + (nr - tw.getD (mx.idxOf (j % (nc / m) * m + k)) 0)) hnr)
  obtain ⟨hcell, hbit⟩ := mul_add_div_mod (j % (nc / m)) hk
  simp only [ilvPlace, ilvSource, hcol, hin, mux_getD_idxOf hmx (cellBit_dest_lt hdvd hj hk), hcell, hbit]
  rw [twist_untwist hrow (twist_getD_lt hnr htw _), Nat.div_add_mod']

end

/-- Settles O58: the map and the regroup each have an inverse. -/
theorem interleaverMapIsABijection : Obligations.InterleaverMapIsABijection := by
  refine ⟨fun m nc nr tw mx _ _ hdvd _ htw hmx j k hj hk => ?_, fun c hn =>
    ⟨fun i hi => ⟨regroupIndex_lt hn hi, fun i' hi' heq => ?_⟩, fun i => regroupIndex_of_lt,
      fun s hs t _ => regroupIndex_parity c t hs⟩⟩
  · refine ⟨_, ilvSource_lt hmx hdvd hj hk, ilvPlace_ilvSource hmx hdvd hj hk htw, fun i' hi' hplace => ?_⟩
    have hback := ilvSource_ilvPlace hmx hdvd htw hi'
    rw [hplace] at hback
    exact hback.symm
  · rw [← regroupInverse_regroupIndex hn hi, heq, regroupInverse_regroupIndex hn hi']

/-! ### The bits of a cell (R226, R227) -/

section

variable {m : Nat} (hm : m ≤ 8) (y : Nat → Bool)
include hm

theorem cellOf_toNat : (cellOf m y).toNat = bitsVal ((List.range m).map y) := by
  have hlt := bitsVal_lt ((List.range m).map y)
  rw [List.length_map, List.length_range] at hlt
  exact Nat.mod_eq_of_lt (hlt.trans_le (Nat.pow_le_pow_right (by omega) hm))

theorem cellOf_lt : (cellOf m y).toNat < 2 ^ m := by
  simpa [cellOf_toNat hm y] using bitsVal_lt ((List.range m).map y)

theorem cellOf_getLsbD {k : Nat} (hk : k < m) : (cellOf m y).getLsbD (m - 1 - k) = y k := by
  have hbit := bitsVal_testBit ((List.range m).map y) k (by simpa using hk)
  simpa [BitVec.getLsbD, cellOf_toNat hm y, hk] using hbit

end

/-- A QPSK cell is a pair of bits (R227). -/
theorem cellOf_two (y : Nat → Bool) : (cellOf 2 y).toNat = 2 * (y 0).toNat + (y 1).toNat := by
  rw [cellOf_toNat (by decide)]
  simp [bitsVal, List.range_succ]

theorem modBits_bounds (m : Modulation) : 0 < modBits m ∧ modBits m ≤ 8 := by
  cases m <;> decide

/-- Twist, mux and repacking together: cell bit `k` of cell `j` is bit `ilvSource` of u (R223 to R226). -/
theorem ilvCell_qam {m : Modulation} (hm : m ≠ .qpsk) (nc nr : Nat) (tw mx : List Nat) (u : Nat → Bool) (j : Nat) :
    ilvCell m nc nr tw mx u j = cellOf (modBits m) fun k => u (ilvSource (modBits m) nc nr tw mx j k) := by
  cases m with
  | qpsk => exact absurd rfl hm
  | qam16 | qam64 | qam256 => rfl

theorem regroupApplies_qpsk_iff (nonQpsk : Bool) (rate : Option CodeRate) :
    regroupApplies nonQpsk .qpsk rate = true ↔ rate = some .r1_3 ∨ rate = some .r2_5 := by
  simp [regroupApplies]

theorem regroupApplies_qam {m : Modulation} (hm : m ≠ .qpsk) (nonQpsk : Bool) (rate : Option CodeRate) :
    regroupApplies nonQpsk m rate = nonQpsk := by
  cases m with
  | qpsk => exact absurd rfl hm
  | qam16 | qam64 | qam256 => rfl

/-! ### The cells that INTERLEAVE writes (R228) -/

section

variable (s : State) (nonQpsk : Bool) (tb : Tables)

/-- The bits u that INTERLEAVE puts into cells (R228). -/
def State.ilvInput : Nat → Bool :=
  ilvBit (regroupApplies nonQpsk (cfgMod s.cfg0) (cfgRate s.cfg0)) tb.par (fbBits s.frameBuf 0 tb.par.n).toArray

/-- u is the frame, or its regroup where R222 applies. -/
theorem State.ilvInput_eq {P : Prop} [Decidable P]
    (happlies : regroupApplies nonQpsk (cfgMod s.cfg0) (cfgRate s.cfg0) = true ↔ P)
    (hn : P → tb.par.n = tb.par.nbch + 360 * tb.par.q) {i : Nat} (hi : i < tb.par.n) :
    s.ilvInput nonQpsk tb i = fbBit s.frameBuf (if P then regroupIndex tb.par i else i) := by
  have hlt : (if P then regroupIndex tb.par i else i) < tb.par.n := by
    split
    next hP => exact regroupIndex_lt (hn hP) hi
    next => exact hi
  have hbit := fbBits_getD s.frameBuf 0 _ _ hlt
  simpa [State.ilvInput, ilvBit, happlies] using hbit

theorem State.interleaved_inside {j : Nat} (hj : j < tb.par.n / modBits (cfgMod s.cfg0)) :
    (s.interleaved nonQpsk tb).read j =
      ilvCell (cfgMod s.cfg0) (ilvColumns (cfgFs s.cfg0) (cfgMod s.cfg0))
        (tb.par.n / ilvColumns (cfgFs s.cfg0) (cfgMod s.cfg0)) tb.tw tb.mx (s.ilvInput nonQpsk tb) j := by
  rw [State.interleaved, Memory.read_writeRange, if_pos (by simpa [cellCount] using hj)]
  simp [ilvCells, cellCount, hj, ilvRows, State.ilvInput]

theorem State.interleaved_outside {j : Nat} (hj : tb.par.n / modBits (cfgMod s.cfg0) ≤ j) :
    (s.interleaved nonQpsk tb).read j = s.cellBuf.read j := by
  rw [State.interleaved, Memory.read_writeRange, if_neg (by simpa [cellCount] using hj)]

end

/-- Settles O56: CELLBUF by what the cells hold, a QPSK cell being two neighbouring bits of u. -/
theorem interleaveQpskPairsBits : Obligations.InterleaveQpskPairsBits := by
  intro s tb hready hmod heven low hn
  have happlies : regroupApplies Config.params.regroupNonQpsk (cfgMod s.cfg0) (cfgRate s.cfg0) = true ↔ low := by
    rw [hmod, regroupApplies_qpsk_iff]
  have hbits : modBits (cfgMod s.cfg0) = 2 := by rw [hmod]; rfl
  refine ⟨_, execInterleave_ready s tb hready, rfl, fun j hj => ?_, fun j hj => ?_⟩
  · have hcell := s.interleaved_inside Config.params.regroupNonQpsk tb (hbits ▸ hj)
    rw [hmod] at hcell
    rw [← s.ilvInput_eq _ tb happlies hn (show 2 * j < tb.par.n by omega),
      ← s.ilvInput_eq _ tb happlies hn (show 2 * j + 1 < tb.par.n by omega)]
    exact (congrArg BitVec.toNat hcell).trans (cellOf_two _)
  · exact s.interleaved_outside _ tb (hbits ▸ hj)

/-- The geometry of R221 fits: the columns make up the frame, and the cells of a row make up the row. -/
theorem ilvColumns_fit (fs : FrameSize) {m : Modulation} (hm : m ≠ .qpsk) :
    frameBitsOf fs / ilvColumns fs m * ilvColumns fs m = frameBitsOf fs ∧ ilvColumns fs m % modBits m = 0 := by
  cases m with
  | qpsk => exact absurd rfl hm
  | qam16 | qam64 | qam256 => cases fs <;> decide

/-- Settles O57: each frame bit is the source of its place. -/
theorem interleaveQamTwistsAndMuxes : Obligations.InterleaveQamTwistsAndMuxes := by
  intro s tb hready hmod m nc nr hframe hn _ htw hmx
  obtain ⟨hpos, hm8⟩ := modBits_bounds (cfgMod s.cfg0)
  obtain ⟨hrows, hdvd⟩ := ilvColumns_fit (cfgFs s.cfg0) hmod
  rw [← hframe] at hrows
  have happlies : regroupApplies Config.params.regroupNonQpsk (cfgMod s.cfg0) (cfgRate s.cfg0) = true ↔
      Config.params.regroupNonQpsk = true := by rw [regroupApplies_qam hmod]
  have hcells : nr * (nc / m) = tb.par.n / m := by
    rw [← hrows, Nat.mul_div_assoc _ (Nat.dvd_of_mod_eq_zero hdvd)]
  have hread (j : Nat) (hj : j < tb.par.n / m) :=
    (s.interleaved_inside Config.params.regroupNonQpsk tb hj).trans (ilvCell_qam hmod ..)
  refine ⟨_, execInterleave_ready s tb hready, rfl, fun i hi => ?_, fun j hj => ?_, fun j hj => ?_⟩
  · have hplace := ilvPlace_lt hmx hdvd (tw := tb.tw) (hrows ▸ hi)
    rw [← s.ilvInput_eq _ tb happlies (fun _ => hn) hi]
    calc _ = (cellOf m fun k => s.ilvInput Config.params.regroupNonQpsk tb
            (ilvSource m nc nr tb.tw tb.mx (ilvPlace m nc nr tb.tw tb.mx i).1 k)).getLsbD _ :=
          congrArg (BitVec.getLsbD · _) (hread _ (hcells ▸ hplace))
      _ = s.ilvInput Config.params.regroupNonQpsk tb (ilvSource m nc nr tb.tw tb.mx
            (ilvPlace m nc nr tb.tw tb.mx i).1 (ilvPlace m nc nr tb.tw tb.mx i).2) :=
          cellOf_getLsbD hm8 _ (Nat.mod_lt _ hpos)
      _ = s.ilvInput Config.params.regroupNonQpsk tb i :=
          congrArg _ (ilvSource_ilvPlace hmx hdvd htw (hrows ▸ hi))
  · exact (congrArg BitVec.toNat (hread j hj)).trans_lt (cellOf_lt hm8 _)
  · exact s.interleaved_outside _ tb hj

end Sys2Proof.Machine
end

section
/-! SUPPORT. The mapper (48_mapper.md): the Gray labels of a cell value, the complex numbers of CONST and their energy, and the
symbols that MAP pushes. -/

namespace Sys2Proof.Machine

/-! ### The Gray labels (R242) -/

theorem natBits_succ (w x : Nat) : natBits (w + 1) x = x.testBit w :: natBits w x := by
  rw [natBits, List.range_succ_eq_map, List.map_cons, List.map_map]
  congr 1
  exact List.map_congr_left fun t _ => congrArg x.testBit (by simp; omega)

theorem natBits_two_pow_add (w x : Nat) : natBits w (2 ^ w + x) = natBits w x :=
  List.map_congr_left fun k hk => Nat.testBit_two_pow_add_gt (by have := List.mem_range.mp hk; omega) x

/-- The bits y_o, y_{o+2}, … of cell value `v`, m/2 of them, sign bit first. -/
def labelBits (m : Modulation) (v o : Nat) : Bits :=
  (List.range (modBits m / 2)).map fun t => v.testBit (modBits m - 1 - (2 * t + o))

@[simp] theorem labelBits_length (m : Modulation) (v o : Nat) : (labelBits m v o).length = modBits m / 2 := by
  simp [labelBits]

theorem evenBits_natBits (m : Modulation) (v : Nat) : evenBits (natBits (modBits m) v) = labelBits m v 0 := by
  cases m <;> rfl

theorem oddBits_natBits (m : Modulation) (v : Nat) : oddBits (natBits (modBits m) v) = labelBits m v 1 := by
  cases m <;> rfl

theorem cellLabel_eq_bitsVal (m : Modulation) (v o : Nat) : cellLabel m v o = bitsVal (labelBits m v o) := by
  cases m <;> simp [cellLabel, labelBits, bitsVal, modBits, List.range_succ, ← Nat.toNat_testBit] <;> omega

/-- The Gray decoding of R242, label by label, gives the amplitudes of the table. -/
theorem level_natBits (m : Modulation) :
    ∀ x < 2 ^ (modBits m / 2), level (natBits (modBits m / 2) x) = (levelTable m).getD x 0 := by
  cases m <;> decide

theorem level_labelBits (m : Modulation) (v o : Nat) :
    level (labelBits m v o) = (levelTable m).getD (cellLabel m v o) 0 := by
  have hlt := bitsVal_lt (labelBits m v o)
  have hbits := natBits_bitsVal (labelBits m v o)
  rw [labelBits_length] at hlt hbits
  rw [cellLabel_eq_bitsVal, ← level_natBits m _ hlt, hbits]

theorem pointI_eq (m : Modulation) (v : Nat) : pointI (modBits m) v = (levelTable m).getD (cellLabel m v 0) 0 := by
  rw [pointI, evenBits_natBits, level_labelBits]

theorem pointQ_eq (m : Modulation) (v : Nat) : pointQ (modBits m) v = (levelTable m).getD (cellLabel m v 1) 0 := by
  rw [pointQ, oddBits_natBits, level_labelBits]

/-! ### Sums over the cell values -/

/-- The numbers below 2^(w+1) are those below 2^w with a 0 or a 1 before their bits. -/
theorem sum_natBits_succ (w : Nat) (f : Bits → ℤ) :
    ∑ v ∈ Finset.range (2 ^ (w + 1)), f (natBits (w + 1) v) =
      ∑ v ∈ Finset.range (2 ^ w), (f (false :: natBits w v) + f (true :: natBits w v)) := by
  rw [pow_succ, mul_two, Finset.sum_range_add, Finset.sum_add_distrib]
  congr 1 <;> refine Finset.sum_congr rfl fun v hv => ?_ <;>
    have htop : v.testBit w = false := Nat.testBit_lt_two_pow (Finset.mem_range.mp hv)
  · rw [natBits_succ, htop]
  · rw [natBits_succ, Nat.testBit_two_pow_add_eq, htop, Bool.not_false, natBits_two_pow_add]

/-- The cell values of 2k bits are the pairs of labels of k bits: the two top bits of a value are the top bits of its two
labels. -/
theorem sum_labels (k : Nat) (f : Bits → Bits → ℤ) :
    ∑ v ∈ Finset.range (2 ^ (2 * k)), f (evenBits (natBits (2 * k) v)) (oddBits (natBits (2 * k) v)) =
      ∑ x ∈ Finset.range (2 ^ k), ∑ y ∈ Finset.range (2 ^ k), f (natBits k x) (natBits k y) := by
  induction k generalizing f with
  | zero => simp [natBits, evenBits, oddBits]
  | succ k ih =>
    have htop := sum_natBits_succ (2 * k + 1) fun u => f (evenBits u) (oddBits u)
    have hnext (a : Bool) := sum_natBits_succ (2 * k) fun u => f (evenBits (a :: u)) (oddBits (a :: u))
    have hrest (a b : Bool) := ih fun x y => f (a :: x) (b :: y)
    have hx := sum_natBits_succ k fun x => ∑ y ∈ Finset.range (2 ^ (k + 1)), f x (natBits (k + 1) y)
    have hy (x : Bits) := sum_natBits_succ k (f x)
    rw [Nat.mul_succ, htop, hx]
    simp only [Finset.sum_add_distrib, hnext, hy, evenBits, oddBits, hrest]

/-- The mean of I² + Q² is E (R243), being twice the mean square of the amplitudes of the labels. -/
theorem sum_amplitudes_sq (m : Modulation) :
    ∑ v ∈ Finset.range (2 ^ modBits m), (pointI (modBits m) v ^ 2 + pointQ (modBits m) v ^ 2) =
      2 ^ modBits m * normEnergy m := by
  have hlevels : 2 * ∑ x ∈ Finset.range (2 ^ (modBits m / 2)), level (natBits (modBits m / 2) x) ^ 2 =
      2 ^ (modBits m / 2) * normEnergy m := by cases m <;> decide
  have hhalves : modBits m = 2 * (modBits m / 2) := by cases m <;> rfl
  have hpairs := sum_labels (modBits m / 2) fun x y => level x ^ 2 + level y ^ 2
  rw [← hhalves] at hpairs
  refine hpairs.trans ?_
  have hpow : (2 : ℤ) ^ modBits m = 2 ^ (modBits m / 2) * 2 ^ (modBits m / 2) := by cases m <;> rfl
  simp only [Finset.sum_add_distrib, Finset.sum_const, Finset.card_range, nsmul_eq_mul, ← Finset.mul_sum]
  push_cast
  linear_combination 2 ^ (modBits m / 2) * hlevels - normEnergy m * hpow

/-! ### The complex numbers of CONST (R243, R244) -/

theorem plainPoint_value (i q : Int) (e : Nat) :
    ExactComplex.value (plainPoint i q e) = (i + q * Complex.I) / Real.sqrt e := by
  apply Complex.ext <;>
    simp [ExactComplex.value, plainPoint, ExactReal.value, Complex.div_ofReal_re, Complex.div_ofReal_im]

theorem rotatedPoint_value (i q : Int) (e phi : Nat) :
    ExactComplex.value (rotatedPoint i q e phi) =
      ExactComplex.value (plainPoint i q e) * Complex.exp ((phi / 1000000000 * (Real.pi / 180) : ℝ) * Complex.I) := by
  apply Complex.ext <;>
    simp only [ExactComplex.value, plainPoint, rotatedPoint, ExactReal.value, Complex.mul_re, Complex.mul_im,
      Complex.exp_ofReal_mul_I_re, Complex.exp_ofReal_mul_I_im] <;>
    simp <;> ring

theorem constPoint_false_value (m : Modulation) (v : Nat) :
    ExactComplex.value (constPoint m false v) =
      (pointI (modBits m) v + pointQ (modBits m) v * Complex.I) / Real.sqrt (normEnergy m) :=
  plainPoint_value ..

theorem constPoint_true_value (m : Modulation) (v : Nat) :
    ExactComplex.value (constPoint m true v) =
      ExactComplex.value (constPoint m false v) * Complex.exp (rotationAngle m * Complex.I) :=
  rotatedPoint_value ..

theorem energy_eq_normSq (z : ExactComplex) : ExactComplex.energy z = Complex.normSq (ExactComplex.value z) := by
  simp [ExactComplex.energy, ExactComplex.value, Complex.normSq_apply, sq]

/-- The rotation keeps the energy of a point, since |e^(iΦ)| = 1. -/
theorem constPoint_energy (m : Modulation) (rot : Bool) (v : Nat) :
    ExactComplex.energy (constPoint m rot v) =
      ((pointI (modBits m) v ^ 2 + pointQ (modBits m) v ^ 2 : ℤ) : ℝ) / normEnergy m := by
  have hplain : Complex.normSq (ExactComplex.value (constPoint m false v)) =
      ((pointI (modBits m) v ^ 2 + pointQ (modBits m) v ^ 2 : ℤ) : ℝ) / normEnergy m := by
    rw [constPoint_false_value, map_div₀, Complex.normSq_ofReal, Real.mul_self_sqrt (Nat.cast_nonneg _),
      ← Complex.ofReal_intCast, ← Complex.ofReal_intCast, Complex.normSq_add_mul_I]
    push_cast
    rfl
  have hturn : Complex.normSq (Complex.exp (rotationAngle m * Complex.I)) = 1 := by
    rw [Complex.normSq_eq_norm_sq, Complex.norm_exp_ofReal_mul_I, one_pow]
  rw [energy_eq_normSq]
  cases rot with
  | false => exact hplain
  | true => rw [constPoint_true_value, map_mul, hturn, mul_one, hplain]

theorem buildConst_energy_sum (m : Modulation) (rot : Bool) :
    ((buildConst m rot).map ExactComplex.energy).sum = 2 ^ modBits m := by
  have hpos : (normEnergy m : ℝ) ≠ 0 := by cases m <;> simp [normEnergy]
  calc ((buildConst m rot).map ExactComplex.energy).sum
      = ∑ v ∈ Finset.range (2 ^ modBits m), ExactComplex.energy (constPoint m rot v) := by
        rw [buildConst, List.map_map]
        rfl
    _ = ((∑ v ∈ Finset.range (2 ^ modBits m), (pointI (modBits m) v ^ 2 + pointQ (modBits m) v ^ 2) : ℤ) : ℝ) /
          normEnergy m := by
        simp only [constPoint_energy, Finset.sum_div, Int.cast_sum]
    _ = 2 ^ modBits m := by
        rw [sum_amplitudes_sq]
        push_cast
        exact mul_div_cancel_right₀ _ hpos

theorem buildConst_getD (m : Modulation) (rot : Bool) {v : Nat} (hv : v < 2 ^ modBits m) :
    (buildConst m rot).getD v default = constPoint m rot v := by
  simp [buildConst, List.getD_eq_getElem?_getD, hv]

/-- Settles O60: each entry is I + iQ over √E, turned by e^(iΦ), and the labels run over all pairs of amplitudes. -/
theorem constellationMeanEnergyIsOne : Obligations.ConstellationMeanEnergyIsOne := by
  refine ⟨fun m rot => ?_, rfl, ?_, fun m v hv => ⟨pointI_eq m v, pointQ_eq m v, ?_, ?_⟩⟩
  · rw [buildConst_energy_sum, div_self (by positivity)]
  · norm_num [rotationAngle, rotationNanoDeg]
  · rw [buildConst_getD m false hv, constPoint_false_value, pointI_eq, pointQ_eq]
  · rw [buildConst_getD m true hv, constPoint_true_value, constPoint_false_value, pointI_eq, pointQ_eq]

/-! ### The symbols that MAP pushes (R245, R246) -/

theorem cellPoint_readRange (points : List ExactComplex) (m : Modulation) (cells : Memory) {n j : Nat} (hj : j < n) :
    cellPoint points m (cells.readRange 0 n).toArray j =
      points.getD ((cells.read j).toNat % 2 ^ modBits m) default := by
  simp [cellPoint, cells.readRange_getElem? 0 n j hj]

theorem cyclic_pred {n j : Nat} (hj : j < n) : (j + (n - 1)) % n = if j = 0 then n - 1 else j - 1 := by
  split
  next h => rw [h, Nat.zero_add, Nat.mod_eq_of_lt (by omega)]
  next h => rw [show j + (n - 1) = j - 1 + n by omega, Nat.add_mod_right, Nat.mod_eq_of_lt (by omega)]

/-- One symbol, read from CELLBUF itself: cell 0 comes after cell n − 1 (R245). -/
theorem mapSymbol_readRange (points : List ExactComplex) (m : Modulation) (rot : Bool) (cells : Memory) {n j : Nat}
    (hj : j < n) :
    let point := fun j => points.getD ((cells.read j).toNat % 2 ^ modBits m) default
    mapSymbol points m rot n (cells.readRange 0 n).toArray j =
      if rot = true then { re := (point j).re, im := (point (if j = 0 then n - 1 else j - 1)).im } else point j := by
  have hprev : (j + (n - 1)) % n < n := Nat.mod_lt _ (by omega)
  rw [mapSymbol, cellPoint_readRange _ _ _ hj, cellPoint_readRange _ _ _ hprev, cyclic_pred hj]

/-- Settles O59, symbol by symbol. -/
theorem mapPushesOneSymbolPerCell : Obligations.MapPushesOneSymbolPerCell := by
  intro s tb hready m n point
  have hexact := List.map_congr_left fun j (hj : j ∈ List.range n) =>
    mapSymbol_readRange tb.points (cfgMod s.cfg0) (cfgRot s.cfg0) s.cellBuf (List.mem_range.mp hj)
  refine (execMap_ready s tb hready).trans ?_
  rw [State.mapped, show s.mapExact tb = _ from hexact, List.map_map]
  rfl

end Sys2Proof.Machine
end

section
/-! SUPPORT. Where the core waits, what FATAL lets through, and the two resets (60_exceptions.md R262, R264 to R268;
70_reset_and_hazards.md R280, R281). -/

namespace Sys2Proof.Machine

/-! ### Holds (R262) -/

/-- FRAME holds in READY alone, and there only while IN is short (R204). -/
theorem State.short_of_frame_hold {s : State} (hd : decode s.cmd = .ok .frame) (hh : s.hold ≠ none) :
    ∃ tb, s.phase = .ready tb ∧ s.input.length < s.need tb := by
  simp only [State.hold, hd] at hh
  cases hp : s.phase.tables with
  | none => simp [hp] at hh
  | some tb =>
    rw [Phase.tables_eq_some_iff] at hp
    exact ⟨tb, hp, by simpa [hp] using hh⟩

theorem step_of_hold {s : State} (hh : s.hold ≠ none) : step s = .next s := by
  cases hd : decode s.cmd with
  | ok i =>
    have hi : i = .frame := by_contra fun hi => hh (State.hold_of_ok hd hi)
    subst hi
    obtain ⟨tb, hp, short⟩ := State.short_of_frame_hold hd hh
    rw [step_of_ok hd, exec_frame_of_short hp short]
  | reject c n => simp [State.hold, hd] at hh
  | waitCommand => rw [step, hd]
  | waitData => exact step_of_waitData hd

theorem commandWords_pos (opc : Nat) : 0 < commandWords opc := by
  rw [commandWords]
  split <;> decide

/-- A step that does not hold takes at least one word from CMD (R66). -/
theorem step_ne_self_of_not_hold {s : State} (hh : s.hold = none) : step s ≠ .next s := by
  intro h
  cases hc : s.cmd with
  | nil =>
    rw [(State.hold_eq_idle_iff s).2 hc] at hh
    cases hh
  | cons w rest =>
    obtain ⟨t, ht, htc⟩ := step_takes_commandWords hc hh
    obtain rfl : s = t := by simpa [h] using ht
    have hlen := congrArg List.length (hc.symm.trans htc)
    have hpos := commandWords_pos (fieldOpc w)
    simp only [List.length_drop, List.length_cons] at hlen
    omega

/-- Settles O15: a hold changes nothing, any other step shortens CMD, and the output streams decide no hold. -/
theorem stepChangesNothingExactlyInAHold : Obligations.StepChangesNothingExactlyInAHold := by
  intro s
  exact ⟨⟨fun h hh => step_ne_self_of_not_hold hh h, step_of_hold⟩, fun _ => ⟨rfl, rfl, rfl⟩⟩

/-! ### FATAL (R264, R266, R268) -/

/-- The column of FATAL in the table of R79. -/
theorem legalIn_fatal_iff (i : Instr) : legalIn i .fatal = true ↔ i = .nop ∨ ∃ a, i = .rdreg a := by
  cases i <;> simp [legalIn]

/-- `t` is `s` but for CMDERR, RESP and CMD. -/
def State.SameButReport (s t : State) : Prop := t = { s with cmdErr := t.cmdErr, resp := t.resp, cmd := t.cmd }

theorem State.sameButReport_rejected {s : State} (n : Nat) (e : ErrCode) (hp : s.phase = .fatal) :
    s.SameButReport (s.rejected n e) := by
  rw [State.rejected_of_fatal n e hp]
  rfl

/-- RDREG answers or is rejected, in every state (R81). -/
theorem Effect.sameButReport_of_rdreg {s t : State} {a : Nat} (h : Effect s (.rdreg a) t) (hp : s.phase = .fatal) :
    s.SameButReport t := by
  cases h with
  | rejected => exact State.sameButReport_rejected _ _ hp
  | responded => rfl
  | crctSet _ _ after => cases after
  | frameBufSet _ _ _ _ after => cases after

theorem exec_sameButReport_of_fatal {s t : State} {i : Instr} (hp : s.phase = .fatal) (h : exec i s = .next t) :
    s.SameButReport t := by
  cases hl : legalIn i .fatal with
  | true =>
    obtain rfl | ⟨a, rfl⟩ := (legalIn_fatal_iff i).1 hl
    · cases h
      rfl
    · exact (exec_effect h).sameButReport_of_rdreg hp
  | false =>
    rw [exec_of_not_legalIn_in_fatal hp hl] at h
    cases h
    rfl

/-- Settles O17: a command runs or is rejected, an encoding is rejected, and a hold changes nothing. -/
theorem noStepLeavesFatal : Obligations.NoStepLeavesFatal := by
  intro s t hp h
  cases hd : decode s.cmd with
  | ok i => exact exec_sameButReport_of_fatal hp (step_of_ok hd ▸ h)
  | reject c n =>
    rw [step_of_reject hd] at h
    cases h
    exact State.sameButReport_rejected n _ hp
  | waitCommand | waitData =>
    rw [step_of_hold (by simp [State.hold, hd])] at h
    cases h
    rfl

/-! ### The host and the resets (R262, R280, R281) -/

/-- The invariant says nothing about the streams, and the host touches nothing else. -/
theorem State.Inv.host {s : State} (h : s.Inv) (m : HostMove) : (s.host m).Inv := by
  cases m <;> exact { h with }

theorem State.Inv.powerOn (s : State) : s.powerOn.Inv :=
  have h : State.reset.Inv := invHoldsAtReset
  { h with }

/-- Settles O5: the streams are outside the invariant, and each move is its meaning. -/
theorem hostMovesAndPowerOnKeepInv : Obligations.HostMovesAndPowerOnKeepInv :=
  ⟨fun _ m h => h.host m, State.Inv.powerOn,
    fun _ => ⟨fun _ => rfl, fun _ => rfl, fun _ => rfl, fun _ => rfl, fun _ => rfl⟩⟩

/-- Settles O1: every value is one that `State.reset` gives, and an empty memory reads 0 everywhere (R43). -/
theorem powerOnSetsEveryRegisterAndBuffer : Obligations.PowerOnSetsEveryRegisterAndBuffer := by
  intro s
  have hstatus : s.powerOn.status = 0 := rfl
  have hframe : ∀ i, fbBit s.powerOn.frameBuf i = false := fun _ => BitVec.getMsbD_zero
  have hcell : ∀ j, s.powerOn.cellBuf.read j = 0 := fun _ => rfl
  exact ⟨rfl, rfl, rfl, rfl, rfl, rfl, rfl, rfl, rfl, rfl, hstatus, rfl, rfl, rfl, rfl, rfl, hframe, hcell⟩

/-- Settles O2: RESET by its meaning where it is legal, and its row of R79 in FATAL. -/
theorem resetCommandAppliesStreamReset : Obligations.ResetCommandAppliesStreamReset := fun _ =>
  ⟨exec_reset_of_ne_fatal, fun hp => exec_of_not_legalIn_in_fatal hp rfl⟩

end Sys2Proof.Machine
end
